-- ==== Sys2Proof/Word.lean ====
section
/-! DEFINITION. The two word types of the block: a byte on a bus (R7) and a host command word (R91). -/

namespace Sys2Proof

/-- A byte: a register value, a physical address or a byte of a frame (R7, R60, R90). -/
abbrev Byte := BitVec 8

/-- A host word: HOSTCMD16 and the widest host register (R43, R91). -/
abbrev Word16 := BitVec 16

end Sys2Proof
end

