-- ==== Sys2Proof/Config.lean ====
section
/-! DEFINITION. What an implementation fixes (the parameters of R6, the handles of R26 and R27), what the outside world
presents to a step (R9, R20, R181), and the free values of the model. -/

namespace Sys2Proof

/-- The communication mode of a handle (R24). -/
inductive Mode where
  | spi
  | i2c
  | undefined
deriving DecidableEq, Repr, Inhabited

/-- The physical address layout of a handle (R23). -/
inductive Bank where
  | bank0
  | bank1
deriving DecidableEq, Repr, Inhabited

/-- One port's configuration block: the eight initial register values in the source's order, and the
configuration-register value, of which only port A's is ever sent (R26, R202). -/
structure PortCfg where
  iodir   : Byte := 0
  ipol    : Byte := 0
  gpinten : Byte := 0
  defval  : Byte := 0
  intcon  : Byte := 0
  gppu    : Byte := 0
  gpio    : Byte := 0
  olat    : Byte := 0
  iocon   : Byte := 0
deriving DecidableEq, Repr, Inhabited

/-- The static configuration of one device handle (R27). -/
structure HandleCfg where
  mode   : Mode
  opcode : BitVec 3
  bank   : Bank
  portA  : PortCfg
  portB  : PortCfg
  csLine : Nat
deriving DecidableEq, Repr, Inhabited

/-- The parameters of the block (R6): `ctxHandle` has one entry for each of the N_CTX contexts (R29), `cfg` one for
each of the N_DEV handles, `nCs` is N_CS. They are constant while the block runs (R28; entry 1). -/
structure Params where
  ctxHandle : List Nat
  cfg       : List HandleCfg
  nCs       : Nat
deriving DecidableEq, Repr, Inhabited

/-- The status a transport primitive returns (R9, R160, R162, R163). -/
inductive Status where
  | ok
  | error
  | timeout
deriving DecidableEq, Repr, Inhabited

/-- The host registers (R39 to R45). The first four exist once per context. -/
inductive HostReg where
  | cmd
  | rspData
  | rspOk
  | ctxStatus
  | faultStatus
  | faultCtx
  | faultDev
deriving DecidableEq, Repr, Inhabited

/-- The agent that takes the next step, and which of its moves it makes (R11, R20). The schedule is open (R79); see
entry 2. -/
inductive Turn where
  /-- The host writes `Inputs.word` to a host register; to `CMD` this is ACCEPT or a held write (R39, R200). -/
  | hostWrite (r : HostReg)
  /-- The interface offers the held `CMD` write again (R39). -/
  | cmdHeld
  /-- The host reads a host register (R20). -/
  | hostRead (r : HostReg)
  /-- The host applies reset (R260). -/
  | reset
  /-- The selected context takes its step (R164). -/
  | context
  /-- The SPI master drives `spiBusy` to `Inputs.busy` (R181). -/
  | spiMaster
deriving DecidableEq, Repr, Inhabited

/-- What the outside world presents to one step: whose turn it is, and what the host and the masters would answer
there. None of it is state of the block: the values are free (R79, R160, R162, R163, R181; entry 2). -/
structure Inputs where
  turn      : Turn    := .context
  /-- The context that the turn concerns: of `CMD[s]`, of a per-context register, or the context that steps. -/
  sel       : Nat     := 0
  /-- The word on the host's data lines. -/
  word      : Word16  := 0
  /-- The level that the SPI master drives on its turn. -/
  busy      : Bool    := false
  /-- The three bytes `SpiExchange` would return (R160). -/
  rx0       : Byte    := 0
  rx1       : Byte    := 0
  rx2       : Byte    := 0
  spiSt     : Status  := .ok
  /-- The status `I2cWrite` would return (R162). -/
  i2cTxSt   : Status  := .ok
  /-- The byte and the status `I2cRead` would return (R163). -/
  i2cRxByte : Byte    := 0
  i2cRxSt   : Status  := .ok
deriving DecidableEq, Repr, Inhabited

/-- The SPI clock polarity, phase, bit order and rate (R6, R64). -/
structure SpiFrameFormat where
  clockPolarity : Bool
  clockPhase    : Bool
  msbFirst      : Bool
  clockRate     : Nat
deriving DecidableEq, Repr, Inhabited

namespace Config

/-- FREE VALUE: the inputs presented after the n-th step. Nothing constrains the schedule or the answers (R11, R79,
R160, R162, R163, R181; I1, I4, I6, I7, I9). Entry 2. -/
opaque inputs : Nat → Inputs

/-- OPEN: the electrical level of an asserted chip-select. No rule reads it (R6, R31). Entry 13. -/
opaque csActiveLevel : Bool

/-- OPEN: the bit-level SPI format, which belongs to the SPI master. No rule reads it (R6, R64). Entry 13. -/
opaque spiFrameFormat : SpiFrameFormat

/-- OPEN: how the I2C master puts the slave-address argument on the wire. No rule reads it (R6, R107). Entry 13. -/
opaque i2cSlaWire : Byte → Byte

/-- The third SPI byte of a read (R6, R144). -/
def dummyByte : Byte := 0x00#8

/-- The timeout of one SPI exchange, in the source's unnamed time-units: timing only (R179). -/
def tSpi : Nat := 2000

/-- The timeout of each I2C phase: timing only (R179). -/
def tI2c : Nat := 1000

/-- The handle of program P1 of `95_test_vectors.md`. -/
def handleP1 : HandleCfg :=
  { mode := .spi, opcode := 0b101#3, bank := .bank0, portA := {}, portB := {}, csLine := 0 }

/-- The handle of program P2 of `95_test_vectors.md`, on the second chip-select line (which I2C does not use). -/
def handleP2 : HandleCfg :=
  { mode := .i2c, opcode := 0b110#3, bank := .bank1, csLine := 1,
    portA := { iodir := 0xFF#8, gpinten := 0x0F#8, gppu := 0xFF#8, iocon := 0x80#8 },
    portB := { gpio := 0x55#8, olat := 0x55#8 } }

/-- DESIGN CHOICE (entry 1): the parameters that `State.reset` carries. The spec leaves every one of them to the
caller (R6); statements about all states hold for every value of them. -/
def params : Params := { ctxHandle := [0, 1], cfg := [handleP1, handleP2], nCs := 2 }

end Config

end Sys2Proof
end

