-- ==== Sys2Proof/Syntax.lean ====
section
/-! DEFINITION. The instructions: one constructor for each row of the opcode table (R112). -/

namespace Sys2Proof

/-- A port of the device (R21). -/
inductive Port where
  | A
  | B
deriving DecidableEq, Repr, Inhabited

/-- A logical register of the device, in the order of its index (R22). -/
inductive LReg where
  | iodir
  | ipol
  | gpinten
  | defval
  | intcon
  | iocon
  | gppu
  | intf
  | intcap
  | gpio
  | olat
deriving DecidableEq, Repr, Inhabited

/-- The rows of the opcode table. The first three are the host commands (R92), the next four the pseudo-instructions
(R109), the last four the frames on the wire, with the operand bytes that follow the control byte (R102 to R105). -/
inductive Instr where
  | init
  | read (p : Port) (r : LReg)
  | write (p : Port) (r : LReg) (v : Byte)
  | readPortA
  | readPortB
  | writePortA (v : Byte)
  | writePortB (v : Byte)
  | spiWriteFrame (effop : BitVec 2) (addr data : Byte)
  | spiReadFrame (effop : BitVec 2) (addr : Byte)
  | i2cWriteFrame (opcode : BitVec 3) (addr data : Byte)
  | i2cReadFrame (opcode : BitVec 3) (addr : Byte)
deriving DecidableEq, Repr

end Sys2Proof
end

