-- ==== Sys2Proof/WellFormed.lean ====
section
/-! DEFINITION. Which instructions and which parameters the spec admits. -/

namespace Sys2Proof

/-- The highest physical address of either bank: 0 to 21 under Bank0, 0 to 10 and 16 to 26 under Bank1, together every
value from 0 to 26 (R60, R111, R126). -/
def maxAddr : Nat := 26

/-- An instruction's operands are those its encoding admits. Ports, register indices and data bytes of a host command
are in range by their types (R93 to R95). A frame carries an address of the device's map (R111). -/
def Instr.wellFormed : Instr → Bool
  | .init | .read _ _ | .write _ _ _ => true
  | .readPortA | .readPortB | .writePortA _ | .writePortB _ => true
  | .spiWriteFrame _ a _ | .i2cWriteFrame _ a _ => decide (a.toNat ≤ maxAddr)
  | .spiReadFrame _ a | .i2cReadFrame _ a => decide (a.toNat ≤ maxAddr)

/-- The parameters are what R6, R27 and R29 ask: at least one context and one line, every context's handle exists,
every handle's chip-select line exists. (N_DEV ≥ 1 follows.) -/
abbrev Params.WellFormed (p : Params) : Prop :=
  0 < p.ctxHandle.length ∧ 0 < p.nCs ∧
    (∀ h ∈ p.ctxHandle, h < p.cfg.length) ∧ (∀ g ∈ p.cfg, g.csLine < p.nCs)

end Sys2Proof
end

