-- ==== Sys2Proof/Decode.lean ====
section
/-! DEFINITION. The encodings (30_encoding.md): decoding of host words and of frames, total and rejecting by name; the
encoder; and the host's numbering of the opcode table's words. -/

namespace Sys2Proof

/-- The port bit: 0 = A, 1 = B (R21). -/
def Port.bit : Port → BitVec 1
  | .A => 0#1
  | .B => 1#1

/-- Every port bit is legal (R93). -/
def Port.ofBit (b : BitVec 1) : Port := if b = 1#1 then .B else .A

/-- The logical register index (R22). -/
def LReg.index : LReg → BitVec 4
  | .iodir => 0#4
  | .ipol => 1#4
  | .gpinten => 2#4
  | .defval => 3#4
  | .intcon => 4#4
  | .iocon => 5#4
  | .gppu => 6#4
  | .intf => 7#4
  | .intcap => 8#4
  | .gpio => 9#4
  | .olat => 10#4

/-- Values 0 to 10 name a register, 11 to 15 none (R94). -/
def LReg.ofIndex (i : BitVec 4) : Option LReg :=
  match i.toNat with
  | 0 => some .iodir
  | 1 => some .ipol
  | 2 => some .gpinten
  | 3 => some .defval
  | 4 => some .intcon
  | 5 => some .iocon
  | 6 => some .gppu
  | 7 => some .intf
  | 8 => some .intcap
  | 9 => some .gpio
  | 10 => some .olat
  | _ => none

/-- What is decoded: a host command word, or the bytes of one frame on one of the two buses, first byte first (R63,
R90). -/
inductive Code where
  | word (w : Word16)
  | spi (bytes : List Byte)
  | i2c (bytes : List Byte)
deriving DecidableEq, Repr

/-- Why a code is no instruction. The first five are the conditions of R110, the others those of R111. -/
inductive Illegal where
  | rsvdSet
  | opReserved
  | initFieldsNonzero
  | regOutOfRange
  | readDataNonzero
  | controlByte
  | addressByte
  | dummyByte
  | frameLength
deriving DecidableEq, Repr

/-- The answer of the decoder. -/
inductive Decoded where
  | instr (i : Instr)
  | illegal (e : Illegal)
deriving DecidableEq, Repr

/-- Decoding of a host command word (R97). The pseudo-instructions have no encoding of their own: their words decode to
READ and WRITE (R109, R112). -/
def decodeWord (w : Word16) : Decoded :=
  let op := w.extractLsb' 14 2
  let port := Port.ofBit (w.extractLsb' 12 1)
  let reg := LReg.ofIndex (w.extractLsb' 8 4)
  let data := w.extractLsb' 0 8
  if w.extractLsb' 13 1 ≠ 0#1 then .illegal .rsvdSet
  else if op = 0b00#2 then
    if w.extractLsb' 0 13 ≠ 0#13 then .illegal .initFieldsNonzero else .instr .init
  else if op = 0b01#2 then
    match reg with
    | none => .illegal .regOutOfRange
    | some r => if data ≠ 0#8 then .illegal .readDataNonzero else .instr (.read port r)
  else if op = 0b10#2 then
    match reg with
    | none => .illegal .regOutOfRange
    | some r => .instr (.write port r data)
  else .illegal .opReserved

/-- Decoding of a frame on SPI: three bytes, `0b01000 a1 a0 rw`, the address, and the data or the dummy byte; bit 0 of
the control byte tells a read from a write (R99, R102, R106). -/
def decodeSpi : List Byte → Decoded
  | [c, a, d] =>
    if c.extractLsb' 3 5 ≠ 0b01000#5 then .illegal .controlByte
    else if maxAddr < a.toNat then .illegal .addressByte
    else if c.extractLsb' 0 1 = 0#1 then .instr (.spiWriteFrame (c.extractLsb' 1 2) a d)
    else if d ≠ Config.dummyByte then .illegal .dummyByte
    else .instr (.spiReadFrame (c.extractLsb' 1 2) a)
  | _ => .illegal .frameLength

/-- Decoding of a frame on I2C: a 3-byte write payload or a 2-byte read header, `0b0100 a2 a1 a0 rw` first (R99, R104,
R105, R106). -/
def decodeI2c : List Byte → Decoded
  | [c, a, d] =>
    if c.extractLsb' 4 4 ≠ 0b0100#4 ∨ c.extractLsb' 0 1 ≠ 0#1 then .illegal .controlByte
    else if maxAddr < a.toNat then .illegal .addressByte
    else .instr (.i2cWriteFrame (c.extractLsb' 1 3) a d)
  | [c, a] =>
    if c.extractLsb' 4 4 ≠ 0b0100#4 ∨ c.extractLsb' 0 1 ≠ 1#1 then .illegal .controlByte
    else if maxAddr < a.toNat then .illegal .addressByte
    else .instr (.i2cReadFrame (c.extractLsb' 1 3) a)
  | _ => .illegal .frameLength

/-- The decoder. -/
def decode : Code → Decoded
  | .word w => decodeWord w
  | .spi bytes => decodeSpi bytes
  | .i2c bytes => decodeI2c bytes

/-- The fields of R91 laid out: OP, RSVD = 0, PORT, REG, DATA. -/
def hostWord (op : BitVec 2) (port : BitVec 1) (reg : BitVec 4) (data : Byte) : Word16 :=
  op ++ 0#1 ++ port ++ reg ++ data

/-- The SPI control byte `0b01000 a1 a0 rw` (R99). -/
def spiControl (effop : BitVec 2) (rw : BitVec 1) : Byte := 0b01000#5 ++ effop ++ rw

/-- The I2C control byte `0b0100 a2 a1 a0 rw` (R99). -/
def i2cControl (opcode : BitVec 3) (rw : BitVec 1) : Byte := 0b0100#4 ++ opcode ++ rw

/-- The encoder (R97, R99, R102, R104, R105, R109). -/
def encode : Instr → Code
  | .init => .word (hostWord 0b00#2 0#1 0#4 0#8)
  | .read p r => .word (hostWord 0b01#2 p.bit r.index 0#8)
  | .write p r v => .word (hostWord 0b10#2 p.bit r.index v)
  | .readPortA => .word 0x4900#16
  | .readPortB => .word 0x5900#16
  | .writePortA v => .word (0x8900#16 ||| v.setWidth 16)
  | .writePortB v => .word (0x9900#16 ||| v.setWidth 16)
  | .spiWriteFrame e a d => .spi [spiControl e 0#1, a, d]
  | .spiReadFrame e a => .spi [spiControl e 1#1, a, Config.dummyByte]
  | .i2cWriteFrame o a d => .i2c [i2cControl o 0#1, a, d]
  | .i2cReadFrame o a => .i2c [i2cControl o 1#1, a]

/-- The core instruction a pseudo-instruction expands to; every other instruction is its own core (R109). -/
def Instr.core : Instr → Instr
  | .readPortA => .read .A .gpio
  | .readPortB => .read .B .gpio
  | .writePortA v => .write .A .gpio v
  | .writePortB v => .write .B .gpio v
  | i => i

/-- The host command word of an instruction; 0 for a frame, which has none. -/
def Instr.word (i : Instr) : Word16 :=
  match encode i with
  | .word w => w
  | _ => 0#16

/-- The bytes of a frame; none for a host command, which is one word. -/
def Instr.bytes (i : Instr) : List Byte :=
  match encode i with
  | .word _ => []
  | .spi bs => bs
  | .i2c bs => bs

/-- The instruction of a decoded code, if it is one. -/
def Decoded.toOption : Decoded → Option Instr
  | .instr i => some i
  | .illegal _ => none

/-- The codes that the bits `w` of an opcode-table row can stand for, in the order they are tried: a 16-bit row is a
host command word, an 8-bit row a control byte whose operand bytes are 0. A control byte alone does not say which bus
carries it: SPI is tried first (DESIGN CHOICE, entry 9). -/
def tableCodes (nbits w : Nat) : List Code :=
  let c := BitVec.ofNat 8 w
  if nbits = 16 then [.word (BitVec.ofNat 16 w)]
  else if nbits = 8 then [.spi [c, 0#8, 0#8], .i2c [c, 0#8, 0#8], .i2c [c, 0#8]]
  else []

/-- The instruction that the decoder reads from the bits of an opcode-table row. -/
def decodeTableWord (nbits w : Nat) : Option Instr :=
  (tableCodes nbits w).findSome? fun c => (decode c).toOption

end Sys2Proof
end

