-- ==== Sys2Proof/Machine/State.lean ====
section
/-! DEFINITION. The state of the block (10_state.md), its reset value, and the names of its stops. -/

namespace Sys2Proof.Machine

/-- The operation of a transaction (R25). -/
inductive RW where
  | read
  | write
deriving DecidableEq, Repr, Inhabited

/-- A register access, or the chip-select pulse of INIT (R33). -/
inductive TxnKind where
  | pulse
  | reg
deriving DecidableEq, Repr, Inhabited

/-- One locked bus transaction (R33). -/
structure Txn where
  kind  : TxnKind
  rw    : RW
  port  : Port
  reg   : LReg
  data  : Byte
  check : Bool
deriving DecidableEq, Repr, Inhabited

/-- Where a context's sequencer is (R34). -/
inductive Phase where
  | idle
  | lockWait
  | csAssert
  | waitIdlePre
  | spiXfer
  | waitIdlePost
  | csDeassert
  | i2cWrite
  | i2cRead
  | release
deriving DecidableEq, Repr, Inhabited

/-- The kind of a command (R32). -/
inductive CmdKind where
  | init
  | read
  | write
deriving DecidableEq, Repr, Inhabited

/-- The state of one context (R32), and the `CMD` write that the interface holds for it (R39; entries 5, 6). The
defaults are the reset values. -/
structure Ctx where
  phase   : Phase          := .idle
  cmd     : Option CmdKind := none
  cur     : Option Txn     := none
  pending : List Txn       := []
  rdByte  : Option Byte    := none
  initOk  : Option Bool    := none
  rspData : Option Byte    := none
  rspOk   : Option Bool    := none
  held    : Option Word16  := none
deriving DecidableEq, Repr, Inhabited

/-- A context right after reset (R32, R260). -/
def Ctx.reset : Ctx := {}

/-- The fault causes 1 to 8 (R230). -/
inductive Cause where
  | spiXferError
  | spiXferTimeout
  | i2cTxError
  | i2cTxTimeout
  | i2cRxError
  | i2cRxTimeout
  | modeUndefined
  | illegalCmd
deriving DecidableEq, Repr, Inhabited

/-- The fault record: cause, context, that context's handle, and the phase of the faulting step (R35). -/
structure FaultRec where
  cause : Cause
  ctx   : Nat
  dev   : Nat
  phase : Phase
deriving DecidableEq, Repr, Inhabited

/-- The value of a `Respond` event: a byte for READ, a Boolean for INIT, none for WRITE (R38). -/
inductive RespVal where
  | none
  | byte (b : Byte)
  | bool (b : Bool)
deriving DecidableEq, Repr, Inhabited

/-- The bus-visible events (R38). -/
inductive Event where
  | accept (c : Nat) (w : Word16)
  | lock (c : Nat)
  | cs (c : Nat) (line : Nat) (v : Bool)
  | spi (c : Nat) (tx rx : List Byte) (st : Status)
  | i2cW (c : Nat) (sla : Byte) (bytes : List Byte) (st : Status)
  | i2cR (c : Nat) (sla : Byte) (b : Byte) (st : Status)
  | unlock (c : Nat)
  | respond (c : Nat) (cmd : CmdKind) (v : RespVal)
  | fault (c : Nat) (cause : Cause)
deriving DecidableEq, Repr, Inhabited

/-- The state of the machine. `lock` (R30), `cs` (R31, one entry a line), `ctx` (R32, one entry a context), `fault`
(R35), `spiBusy` (R37, the SPI master's), `trace` (R38, oldest event first) and the constant parameters `par` (R28; entry 1) are the spec's. `inp` and `tick` (entry 2)
and `readData` (entry 15) are the model's own. -/
structure State where
  par      : Params
  lock     : Option Nat
  cs       : List Bool
  ctx      : List Ctx
  fault    : Option FaultRec
  spiBusy  : Bool
  trace    : List Event
  inp      : Inputs
  tick     : Nat
  readData : Option Word16
deriving DecidableEq, Repr, Inhabited

/-- Why the machine stops. The spec's own fault (R231) is no stop of the machine: it is a next state. -/
inductive Fault where
  /-- Raised by every operation on a context when the turn names a context at or above N_CTX, which does not exist
  (R244). SAFE: the machine stops where the spec gives no agent and no register; no step from a legal state names one
  (entry 4). -/
  | noSuchContext
deriving DecidableEq, Repr

/-- Why an instruction is refused. -/
inductive Refusal where
  /-- An instruction without a meaning; no arm of exec answers it. SAFE. -/
  | notModelled (mnemonic : String)
  /-- Raised by the step when the bytes due on a bus are no frame. SAFE: it happens only in states that no run
  reaches (R111; entry 17). -/
  | notAFrame
deriving DecidableEq, Repr

/-- The block right after reset, for any parameters and any level of the external `spiBusy` (R260). -/
def State.resetOf (p : Params) (busy : Bool) : State :=
  { par      := p
    lock     := none
    cs       := List.replicate p.nCs false
    ctx      := List.replicate p.ctxHandle.length Ctx.reset
    fault    := none
    spiBusy  := busy
    trace    := []
    inp      := {}
    tick     := 0
    readData := none }

/-- The machine right after reset (R260) under the parameters of entry 1; `spiBusy`, which the spec leaves to the SPI
master (R37), starts low (entry 10). -/
def State.reset : State := State.resetOf Config.params false

end Sys2Proof.Machine
end

