-- ==== Sys2Proof/Machine/Ops.lean ====
section
/-! DEFINITION. The named operations over the state: parameters, contexts, lock, chip-selects, trace; taking the fault
(R231) and, beside it, the only way out of it, reset (R234, R260). -/

namespace Sys2Proof

/-- N_CTX (R6). -/
def Params.nCtx (p : Params) : Nat := p.ctxHandle.length

/-- N_DEV (R6). -/
def Params.nDev (p : Params) : Nat := p.cfg.length

/-- `ctxHandle(c)` (R29). -/
def Params.handle (p : Params) (c : Nat) : Nat := p.ctxHandle.getD c 0

/-- `Cfg(ctxHandle(c))` (R27, R164). A handle that does not exist reads as one of mode UNDEFINED (entry 17). -/
def Params.handleCfg (p : Params) (c : Nat) : HandleCfg :=
  p.cfg.getD (p.handle c)
    { mode := .undefined, opcode := 0, bank := .bank0, portA := {}, portB := {}, csLine := 0 }

namespace Machine

/-- `ctx[c]` (R8, R32). -/
def State.getCtx (s : State) (c : Nat) : Ctx := s.ctx.getD c Ctx.reset

/-- `ctx[c] <- f ctx[c]` (R8). -/
def State.modCtx (s : State) (c : Nat) (f : Ctx → Ctx) : State :=
  { s with ctx := s.ctx.set c (f (s.getCtx c)) }

/-- `Emit(e)` (R8, R38). -/
def State.emit (s : State) (e : Event) : State := { s with trace := s.trace ++ [e] }

/-- `lock <- o` (R30). -/
def State.setLock (s : State) (o : Option Nat) : State := { s with lock := o }

/-- `cs[l]` (R31). -/
def State.getCs (s : State) (l : Nat) : Bool := s.cs.getD l false

/-- `cs[l] <- v` (R31). -/
def State.setCs (s : State) (l : Nat) (v : Bool) : State := { s with cs := s.cs.set l v }

/-- Taking the fault: `raise Fault(cause)` in a step of context c. The record keeps the cause, the context, its handle
and the phase of the step; `escalate` follows from the record (R36, R231). Nothing else changes (R235). -/
def raiseFault (s : State) (c : Nat) (cause : Cause) : State :=
  ({ s with fault := some { cause := cause, ctx := c, dev := s.par.handle c, phase := (s.getCtx c).phase } }).emit
    (.fault c cause)

/-- Leaving the fault: reset, a host step at any time (R234, R260). Every piece of block state takes its reset value,
the interface drops its held writes (entry 6); the parameters, the external input and the model's own fields stay. -/
def applyReset (s : State) : State :=
  { State.resetOf s.par s.spiBusy with inp := s.inp, tick := s.tick, readData := s.readData }

/-- An operation on the context that the turn names. A context at or above N_CTX does not exist (R244; entry 4). -/
def onContext (s : State) (f : Nat → State → State) : Host.Outcome State Fault Refusal :=
  if s.inp.sel < s.par.nCtx then .next (f s.inp.sel s) else .fault .noSuchContext

/-- The inputs of the next step, with the named context brought below N_CTX, so that the schedule names only agents
that exist (R20; entry 4). -/
def legalInputs (p : Params) (i : Inputs) : Inputs := { i with sel := i.sel % p.nCtx }

/-- The end of every step: the outside world presents its next inputs (R11, R20; entry 2). -/
def finish (s : State) : State :=
  { s with inp := legalInputs s.par (Config.inputs s.tick), tick := s.tick + 1 }

end Machine

end Sys2Proof
end

