-- ==== Sys2Proof/Machine/Operands.lean ====
section
/-! DEFINITION. The operand forms: the address resolver (40_address_resolver.md), the frame builder
(41_frame_builder.md), and the frame that is due on the bus (R165). All are pure (R123, R147). -/

namespace Sys2Proof.Machine

/-- Bank0 = 0, Bank1 = 1 (R23). -/
def bankCode : Bank → BitVec 1
  | .bank0 => 0#1
  | .bank1 => 1#1

/-- Bit 0 of the control byte: 1 for READ, 0 for WRITE (R25). -/
def rwBit : RW → BitVec 1
  | .read => 1#1
  | .write => 0#1

/-- RESOLVE: the physical address of a logical register (R120, R121, R122). -/
def resolve (b : Bank) (p : Port) (r : LReg) : Byte :=
  let i : Byte := r.index.setWidth 8
  match b with
  | .bank0 => (i <<< 1) ||| p.bit.setWidth 8
  | .bank1 => i + (if p = .B then 0x10#8 else 0x00#8)

/-- EFFOP: the opcode, masked to its low 2 bits on SPI only (R140). -/
def effop (m : Mode) (opcode : BitVec 3) : BitVec 3 :=
  if m = .spi then opcode &&& 0b011#3 else opcode

/-- CTRL: the control byte (R98, R141). -/
def ctrl (m : Mode) (opcode : BitVec 3) (rw : RW) : Byte :=
  let base : Byte := if rw = .read then 0x41#8 else 0x40#8
  base ||| ((effop m opcode).setWidth 8 <<< 1)

/-- BUILD_FRAME: three bytes for a write (R142), two for a read (R143). -/
def buildFrame (m : Mode) (opcode : BitVec 3) (addr : Byte) (rw : RW) (data : Byte) : List Byte :=
  match rw with
  | .write => [ctrl m opcode .write, addr, data]
  | .read => [ctrl m opcode .read, addr]

/-- SPI_TX: the SPI transmit frame, a read's padded with the dummy byte (R102, R144). -/
def spiTx (frame : List Byte) (rw : RW) : List Byte :=
  match rw with
  | .write => frame
  | .read => frame ++ [Config.dummyByte]

/-- SLA: the I2C slave address argument (R107, R146). -/
def sla (opcode : BitVec 3) : Byte := opcode.setWidth 8

/-- `addr(t)` (R165). -/
def txnAddr (g : HandleCfg) (t : Txn) : Byte := resolve g.bank t.port t.reg

/-- `frame(t)` (R165). -/
def txnFrame (g : HandleCfg) (t : Txn) : List Byte :=
  buildFrame g.mode g.opcode (txnAddr g t) t.rw t.data

/-- The frame whose transport step context c is about to take, on its bus; none when no transport step of c is enabled
(R164, R169, R172, R173). The read phase of I2C belongs to the frame whose header it completes (R105). -/
def dueFrame (s : State) (c : Nat) : Option Code :=
  let g := s.par.handleCfg c
  let C := s.getCtx c
  if s.fault = none then
    match C.phase, C.cur with
    | .spiXfer, some t => some (.spi (spiTx (txnFrame g t) t.rw))
    | .i2cWrite, some t => some (.i2c (txnFrame g t))
    | .i2cRead, some t => some (.i2c (buildFrame g.mode g.opcode (txnAddr g t) .read t.data))
    | _, _ => none
  else none

end Sys2Proof.Machine
end

