-- ==== Sys2Proof/Machine/HostCmd.lean ====
section
/-! DEFINITION. The host commands (43_device_commands.md): accepting a word, the expansions, and the meanings of the
three commands and the four port wrappers. -/

namespace Sys2Proof.Machine

/-- `W(p, r, v)` (R202). -/
def txnWrite (p : Port) (r : LReg) (v : Byte) : Txn :=
  { kind := .reg, rw := .write, port := p, reg := r, data := v, check := false }

/-- `R(p, r)` (R202). -/
def txnRead (p : Port) (r : LReg) : Txn :=
  { kind := .reg, rw := .read, port := p, reg := r, data := 0x00#8, check := false }

/-- INIT's chip-select pulse; its unused fields as R33 writes them (R33, R202). -/
def txnPulse : Txn :=
  { kind := .pulse, rw := .read, port := .A, reg := .iodir, data := 0x00#8, check := false }

/-- INIT's read-back of the configuration register (R202, R203). -/
def txnCheck : Txn :=
  { kind := .reg, rw := .read, port := .A, reg := .iocon, data := 0x00#8, check := true }

/-- `EIGHT(p, pc)`: the eight register writes of one port (R202). -/
def initPort (p : Port) (pc : PortCfg) : List Txn :=
  [txnWrite p .iodir pc.iodir, txnWrite p .ipol pc.ipol, txnWrite p .gpinten pc.gpinten, txnWrite p .defval pc.defval,
   txnWrite p .intcon pc.intcon, txnWrite p .gppu pc.gppu, txnWrite p .gpio pc.gpio, txnWrite p .olat pc.olat]

/-- `INITSEQ(g)` (R202). -/
def initSeq (g : HandleCfg) : List Txn :=
  (if g.mode = .spi then [txnPulse] else []) ++ [txnWrite .A .iocon g.portA.iocon, txnCheck]
    ++ initPort .A g.portA ++ initPort .B g.portB

/-- ACCEPT is enabled (R200). -/
def acceptEnabled (s : State) (c : Nat) : Bool := (s.getCtx c).phase == .idle && s.fault.isNone

/-- The start of ACCEPT: the word is taken from the interface and the event emitted (R39, R200). -/
def takeWord (s : State) (c : Nat) (w : Word16) : State :=
  (s.emit (.accept c w)).modCtx c fun C => { C with held := none }

/-- ACCEPT of a legal word: MODE_UNDEFINED, or the command's transaction list is loaded (R200). -/
def acceptCommand (w : Word16) (k : CmdKind) (expand : HandleCfg → List Txn) (c : Nat) (s : State) : State :=
  let g := s.par.handleCfg c
  if g.mode = .undefined then raiseFault (takeWord s c w) c .modeUndefined
  else
    (takeWord s c w).modCtx c fun C =>
      { C with cmd := some k, rdByte := none, initOk := none, cur := (expand g).head?, pending := (expand g).tail,
               phase := .lockWait }

/-- ACCEPT of an illegal word (R110, R200). -/
def acceptIllegal (w : Word16) (c : Nat) (s : State) : State := raiseFault (takeWord s c w) c .illegalCmd

/-- A write of word w to `CMD[c]`: ACCEPT where it is enabled; otherwise the interface holds the write until it is
(R39). -/
def writeCmd (w : Word16) (accept : Nat → State → State) (c : Nat) (s : State) : State :=
  if acceptEnabled s c then accept c s else s.modCtx c fun C => { C with held := some w }

/-- A write of a command's word to the `CMD` register of the context that the turn names. -/
def hostCommand (w : Word16) (k : CmdKind) (expand : HandleCfg → List Txn) (s : State) :
    Host.Outcome State Fault Refusal :=
  onContext s (writeCmd w (acceptCommand w k expand))

/-- A write of an illegal word to the `CMD` register of the context that the turn names. -/
def hostIllegal (w : Word16) (s : State) : Host.Outcome State Fault Refusal :=
  onContext s (writeCmd w (acceptIllegal w))

/-- INIT (R201, R202). -/
def execInit (s : State) : Host.Outcome State Fault Refusal :=
  hostCommand Instr.init.word .init initSeq s

/-- READ p, r (R204). -/
def execRead (p : Port) (r : LReg) (s : State) : Host.Outcome State Fault Refusal :=
  hostCommand (Instr.read p r).word .read (fun _ => [txnRead p r]) s

/-- WRITE p, r, v (R205). The read-only registers are written like any other. -/
def execWrite (p : Port) (r : LReg) (v : Byte) (s : State) : Host.Outcome State Fault Refusal :=
  hostCommand (Instr.write p r v).word .write (fun _ => [txnWrite p r v]) s

/-- READ_PORT_A (R206). -/
def execReadPortA (s : State) : Host.Outcome State Fault Refusal :=
  hostCommand Instr.readPortA.word .read (fun _ => [txnRead .A .gpio]) s

/-- READ_PORT_B (R207). -/
def execReadPortB (s : State) : Host.Outcome State Fault Refusal :=
  hostCommand Instr.readPortB.word .read (fun _ => [txnRead .B .gpio]) s

/-- WRITE_PORT_A v (R208). -/
def execWritePortA (v : Byte) (s : State) : Host.Outcome State Fault Refusal :=
  hostCommand (Instr.writePortA v).word .write (fun _ => [txnWrite .A .gpio v]) s

/-- WRITE_PORT_B v (R209). -/
def execWritePortB (v : Byte) (s : State) : Host.Outcome State Fault Refusal :=
  hostCommand (Instr.writePortB v).word .write (fun _ => [txnWrite .B .gpio v]) s

end Sys2Proof.Machine
end

