-- ==== Sys2Proof/Machine/WireFrame.lean ====
section
/-! DEFINITION. The wire frames: the phase steps that call a transport primitive (R169, R172, R173), and the meanings
of the four frame rows. The primitive's answer is what `inp` presents (R160, R162, R163; entry 2). A frame has an effect
exactly when it is the frame due for the context that the turn names (R164; entry 8). -/

namespace Sys2Proof.Machine

/-- SPI_XFER: the full-duplex exchange of `tx`, with the answer the SPI master presents; a read keeps the third
received byte (R169). -/
def spiXferStep (tx : List Byte) (rw : RW) (c : Nat) (s : State) : State :=
  let s₁ := s.emit (.spi c tx [s.inp.rx0, s.inp.rx1, s.inp.rx2] s.inp.spiSt)
  match s.inp.spiSt with
  | .error => raiseFault s₁ c .spiXferError
  | .timeout => raiseFault s₁ c .spiXferTimeout
  | .ok =>
    s₁.modCtx c fun C =>
      { C with rdByte := if rw = .read then some s.inp.rx2 else C.rdByte, phase := .waitIdlePost }

/-- I2C_WRITE: the write of `bytes` to the slave address argument; a read goes on to its read phase (R172). -/
def i2cWriteStep (bytes : List Byte) (rw : RW) (c : Nat) (s : State) : State :=
  let s₁ := s.emit (.i2cW c (sla (s.par.handleCfg c).opcode) bytes s.inp.i2cTxSt)
  match s.inp.i2cTxSt with
  | .error => raiseFault s₁ c .i2cTxError
  | .timeout => raiseFault s₁ c .i2cTxTimeout
  | .ok => s₁.modCtx c fun C => { C with phase := if rw = .read then .i2cRead else .release }

/-- I2C_READ: the 1-byte read from the same slave address argument (R173). -/
def i2cReadStep (c : Nat) (s : State) : State :=
  let s₁ := s.emit (.i2cR c (sla (s.par.handleCfg c).opcode) s.inp.i2cRxByte s.inp.i2cRxSt)
  match s.inp.i2cRxSt with
  | .error => raiseFault s₁ c .i2cRxError
  | .timeout => raiseFault s₁ c .i2cRxTimeout
  | .ok => s₁.modCtx c fun C => { C with rdByte := some s.inp.i2cRxByte, phase := .release }

/-- A frame's transport step, taken when the frame is due for the context that the turn names. -/
def whenDue (i : Instr) (f : Nat → State → State) (s : State) : Host.Outcome State Fault Refusal :=
  onContext s fun c s => if dueFrame s c = some (encode i) then f c s else s

/-- SPI_WRITE_FRAME: `[ctrl, addr, data]` in one exchange (R142, R169). -/
def execSpiWriteFrame (effop : BitVec 2) (addr data : Byte) (s : State) : Host.Outcome State Fault Refusal :=
  whenDue (.spiWriteFrame effop addr data) (spiXferStep (Instr.spiWriteFrame effop addr data).bytes .write) s

/-- SPI_READ_FRAME: `[ctrl, addr, DUMMY_BYTE]` in one exchange, the response its third received byte (R144, R169). -/
def execSpiReadFrame (effop : BitVec 2) (addr : Byte) (s : State) : Host.Outcome State Fault Refusal :=
  whenDue (.spiReadFrame effop addr) (spiXferStep (Instr.spiReadFrame effop addr).bytes .read) s

/-- I2C_WRITE_FRAME: `[ctrl, addr, data]` in one write (R142, R172). -/
def execI2cWriteFrame (opcode : BitVec 3) (addr data : Byte) (s : State) : Host.Outcome State Fault Refusal :=
  whenDue (.i2cWriteFrame opcode addr data) (i2cWriteStep (Instr.i2cWriteFrame opcode addr data).bytes .write) s

/-- I2C_READ_FRAME: the header `[ctrl, addr]` in the write phase, then the 1-byte read in the read phase, one phase a
step (R105, R143, R172, R173; entry 8). -/
def execI2cReadFrame (opcode : BitVec 3) (addr : Byte) (s : State) : Host.Outcome State Fault Refusal :=
  whenDue (.i2cReadFrame opcode addr)
    (fun c s =>
      if (s.getCtx c).phase = .i2cRead then i2cReadStep c s
      else i2cWriteStep (Instr.i2cReadFrame opcode addr).bytes .read c s) s

end Sys2Proof.Machine
end

