-- ==== Sys2Proof/Machine/Dispatch.lean ====
section
/-! DEFINITION. exec: one arm for each row of the opcode table. -/

namespace Sys2Proof.Machine

def exec (i : Instr) (s : State) : Host.Outcome State Fault Refusal :=
  match i with
  | .init => Sys2Proof.Machine.execInit s
  | .read p r => Sys2Proof.Machine.execRead p r s
  | .write p r v => Sys2Proof.Machine.execWrite p r v s
  | .readPortA => Sys2Proof.Machine.execReadPortA s
  | .readPortB => Sys2Proof.Machine.execReadPortB s
  | .writePortA v => Sys2Proof.Machine.execWritePortA v s
  | .writePortB v => Sys2Proof.Machine.execWritePortB v s
  | .spiWriteFrame effop addr data => Sys2Proof.Machine.execSpiWriteFrame effop addr data s
  | .spiReadFrame effop addr => Sys2Proof.Machine.execSpiReadFrame effop addr s
  | .i2cWriteFrame opcode addr data => Sys2Proof.Machine.execI2cWriteFrame opcode addr data s
  | .i2cReadFrame opcode addr => Sys2Proof.Machine.execI2cReadFrame opcode addr s

end Sys2Proof.Machine
end

