-- ==== Sys2Proof/Machine/Flags.lean ====
section
/-! DEFINITION. The status flags and the host registers (R39 to R47): views computed from the state, and the host's
reads of them. -/

namespace Sys2Proof.Machine

/-- The phase codes (R34). -/
def Phase.code : Phase → BitVec 4
  | .idle => 0#4
  | .lockWait => 1#4
  | .csAssert => 2#4
  | .waitIdlePre => 3#4
  | .spiXfer => 4#4
  | .waitIdlePost => 5#4
  | .csDeassert => 6#4
  | .i2cWrite => 7#4
  | .i2cRead => 8#4
  | .release => 9#4

/-- The cause codes (R230). -/
def Cause.code : Cause → BitVec 4
  | .spiXferError => 1#4
  | .spiXferTimeout => 2#4
  | .i2cTxError => 3#4
  | .i2cTxTimeout => 4#4
  | .i2cRxError => 5#4
  | .i2cRxTimeout => 6#4
  | .modeUndefined => 7#4
  | .illegalCmd => 8#4

/-- The `escalate` output (R36, R233). -/
def State.escalate (s : State) : Bool := s.fault.isSome

/-- BUSY (R42, R47). -/
def Ctx.busy (C : Ctx) : Bool := C.phase != .idle

/-- RSP_DATA_VALID (R42, R47). -/
def Ctx.rspDataValid (C : Ctx) : Bool := C.rspData.isSome

/-- RSP_OK_VALID (R42, R47). -/
def Ctx.rspOkValid (C : Ctx) : Bool := C.rspOk.isSome

/-- The RSP_OK flag: 1 if the last INIT of the context succeeded (R42, R47). -/
def Ctx.rspOkFlag (C : Ctx) : Bool := C.rspOk == some true

/-- `CTX_STATUS[c]`: PHASE in bits 7:4, then RSP_OK, RSP_OK_VALID, RSP_DATA_VALID, BUSY (R42). -/
def State.ctxStatus (s : State) (c : Nat) : BitVec 8 :=
  let C := s.getCtx c
  C.phase.code ++ BitVec.ofBool C.rspOkFlag ++ BitVec.ofBool C.rspOkValid ++ BitVec.ofBool C.rspDataValid
    ++ BitVec.ofBool C.busy

/-- `FAULT_STATUS`: PHASE in bits 11:8, CAUSE in bits 4:1, VALID in bit 0, the rest reserved and 0 (R43). -/
def State.faultStatus (s : State) : BitVec 16 :=
  match s.fault with
  | none => 0x0000#16
  | some f => 0#4 ++ f.phase.code ++ 0#3 ++ f.cause.code ++ 1#1

/-- `FAULT_CTX` (R44; entry 18). -/
def State.faultCtx (s : State) : BitVec 8 :=
  match s.fault with
  | none => 0x00#8
  | some f => BitVec.ofNat 8 f.ctx

/-- `FAULT_DEV` (R45; entry 18). -/
def State.faultDev (s : State) : BitVec 8 :=
  match s.fault with
  | none => 0x00#8
  | some f => BitVec.ofNat 8 f.dev

/-- What a read of a host register returns, extended with zeros; none where it returns no value: `CMD` always (R39),
`RSP_DATA` and `RSP_OK` before their first value (R40, R41). -/
def State.readReg (s : State) (c : Nat) : HostReg → Option Word16
  | .cmd => none
  | .rspData => (s.getCtx c).rspData.map (·.setWidth 16)
  | .rspOk => (s.getCtx c).rspOk.map fun b => (BitVec.ofBool b).setWidth 16
  | .ctxStatus => some ((s.ctxStatus c).setWidth 16)
  | .faultStatus => some s.faultStatus
  | .faultCtx => some (s.faultCtx.setWidth 16)
  | .faultDev => some (s.faultDev.setWidth 16)

/-- The registers that exist once per context (R39 to R42, R244). -/
def perContext : HostReg → Bool
  | .cmd | .rspData | .rspOk | .ctxStatus => true
  | .faultStatus | .faultCtx | .faultDev => false

/-- The host reads a register. A read has no side effect on the block (R42; entry 15). -/
def hostRead (s : State) (r : HostReg) : Host.Outcome State Fault Refusal :=
  if perContext r then onContext s fun c s => { s with readData := s.readReg c r }
  else .next { s with readData := s.readReg 0 r }

/-- The host writes a read-only register: the write changes nothing (R42, R43, I21). -/
def hostWriteReadOnly (s : State) (r : HostReg) : Host.Outcome State Fault Refusal :=
  if perContext r then onContext s fun _ s => s else .next s

end Sys2Proof.Machine
end

