-- ==== Sys2Proof/Machine/Sequencer.lean ====
section
/-! DEFINITION. The phase steps that make no transport call (42_bus_sequencer.md section 2). In every step `c` is the
context, `g` its handle's configuration and `t` its current transaction (R164); a step that is not enabled changes
nothing (R180; entry 3). -/

namespace Sys2Proof.Machine

/-- LOCK_WAIT: acquire the lock when it is free (R166). -/
def stepLockWait (c : Nat) (s : State) : State :=
  if s.lock = none then
    ((s.setLock (some c)).emit (.lock c)).modCtx c fun C =>
      { C with phase := if (s.par.handleCfg c).mode = .spi then .csAssert else .i2cWrite }
  else s

/-- CS_ASSERT: assert the handle's line; a PULSE goes straight on to deassert it (R167). -/
def stepCsAssert (c : Nat) (s : State) : State :=
  match (s.getCtx c).cur with
  | none => s
  | some t =>
    let l := (s.par.handleCfg c).csLine
    ((s.setCs l true).emit (.cs c l true)).modCtx c fun C =>
      { C with phase := if t.kind = .pulse then .csDeassert else .waitIdlePre }

/-- WAIT_IDLE_PRE: hold while the SPI master is busy (R168). -/
def stepWaitIdlePre (c : Nat) (s : State) : State :=
  if s.spiBusy then s else s.modCtx c fun C => { C with phase := .spiXfer }

/-- WAIT_IDLE_POST: hold while the SPI master is busy (R170). -/
def stepWaitIdlePost (c : Nat) (s : State) : State :=
  if s.spiBusy then s else s.modCtx c fun C => { C with phase := .csDeassert }

/-- CS_DEASSERT: deassert the handle's line (R171). -/
def stepCsDeassert (c : Nat) (s : State) : State :=
  let l := (s.par.handleCfg c).csLine
  ((s.setCs l false).emit (.cs c l false)).modCtx c fun C => { C with phase := .release }

/-- INIT's success test: the byte read back equals port A's configuration value in all 8 bits (R174, R203). -/
def readBackMatches (g : HandleCfg) (C : Ctx) : Bool := C.rdByte == some g.portA.iocon

/-- The value of a READ's response (R38, R174). -/
def respByte : Option Byte → RespVal
  | none => .none
  | some b => .byte b

/-- The value of an INIT's response (R38, R174). -/
def respBool : Option Bool → RespVal
  | none => .none
  | some b => .bool b

/-- The command completes: the response register of its kind is written and the response emitted (R174). -/
def respond (c : Nat) (s : State) : State :=
  let C := s.getCtx c
  match C.cmd with
  | some .read =>
    (s.modCtx c fun C => { C with rspData := C.rdByte }).emit (.respond c .read (respByte C.rdByte))
  | some .write => s.emit (.respond c .write .none)
  | some .init =>
    (s.modCtx c fun C => { C with rspOk := C.initOk }).emit (.respond c .init (respBool C.initOk))
  | none => s

/-- RELEASE: release the lock, record INIT's test, then start the next transaction or complete the command (R174). -/
def stepRelease (c : Nat) (s : State) : State :=
  match (s.getCtx c).cur with
  | none => s
  | some t =>
    let s₁ := (s.setLock none).emit (.unlock c)
    let s₂ :=
      if t.check then s₁.modCtx c fun C => { C with initOk := some (readBackMatches (s.par.handleCfg c) C) } else s₁
    match (s.getCtx c).pending with
    | n :: rest => s₂.modCtx c fun C => { C with cur := some n, pending := rest, phase := .lockWait }
    | [] => (respond c s₂).modCtx c fun C => { C with cur := none, phase := .idle }

/-- The step of context c in a phase that makes no transport call. While a fault is recorded no step is enabled (R232).
An idle context has none (R180). The transport phases are those of the wire frames (entry 8). -/
def ctxStep (c : Nat) (s : State) : State :=
  if s.fault = none then
    match (s.getCtx c).phase with
    | .idle => s
    | .lockWait => stepLockWait c s
    | .csAssert => stepCsAssert c s
    | .waitIdlePre => stepWaitIdlePre c s
    | .spiXfer => s
    | .waitIdlePost => stepWaitIdlePost c s
    | .csDeassert => stepCsDeassert c s
    | .i2cWrite => s
    | .i2cRead => s
    | .release => stepRelease c s
  else s

end Sys2Proof.Machine
end

