-- ==== Sys2Proof/Machine/Fetch.lean ====
section
/-! DEFINITION. What a step runs: the code it fetches, the moves that run no instruction, and where a word of the opcode
table is placed so that the next step fetches it. -/

namespace Sys2Proof.Machine

/-- What the next step interprets: the word that the host writes to `CMD` (unless its earlier write is still held: the
host's call has not returned, R39; entry 5), the held word, or the frame due for the context that steps (R164). -/
def fetch (s : State) : Option Code :=
  match s.inp.turn with
  | .hostWrite .cmd => if (s.getCtx s.inp.sel).held = none then some (.word s.inp.word) else none
  | .cmdHeld => (s.getCtx s.inp.sel).held.map Code.word
  | .context => dueFrame s s.inp.sel
  | _ => none

/-- A code that decodes to no instruction: an illegal word takes the fault of R200; bytes that are no frame are never
due (R111; entry 17). -/
def runIllegal (code : Code) (s : State) : Host.Outcome State Fault Refusal :=
  match code with
  | .word w => hostIllegal w s
  | .spi _ => .refused .notAFrame
  | .i2c _ => .refused .notAFrame

/-- The move of a turn that fetches no code. -/
def otherMove (s : State) : Host.Outcome State Fault Refusal :=
  match s.inp.turn with
  | .hostWrite r => hostWriteReadOnly s r
  | .cmdHeld => .next s
  | .hostRead r => hostRead s r
  | .reset => .next (applyReset s)
  | .context => onContext s ctxStep
  | .spiMaster => .next { s with spiBusy := s.inp.busy }

/-- Running a fetched code. -/
def runCode (code : Code) (s : State) : Host.Outcome State Fault Refusal :=
  match decode code with
  | .instr i => exec i s
  | .illegal _ => runIllegal code s

/-- The move of the turn. -/
def takeTurn (s : State) : Host.Outcome State Fault Refusal :=
  match fetch s with
  | some code => runCode code s
  | none => otherMove s

/-- A stop is passed on; a next state is presented its next inputs. -/
def finishOutcome : Host.Outcome State Fault Refusal → Host.Outcome State Fault Refusal
  | .next s => .next (finish s)
  | .fault r => .fault r
  | .refused r => .refused r

/-- Brings context 0 to the transport phase `ph` of transaction `t` on a handle of mode `m` and opcode `o`, holding the
lock (R175) and, on SPI, with its line asserted (R177). -/
def placeTxn (m : Mode) (o : BitVec 3) (ph : Phase) (k : CmdKind) (t : Txn) (s : State) : State :=
  let h := s.par.handle 0
  let g := { s.par.handleCfg 0 with mode := m, opcode := o }
  { s with
    par   := { s.par with cfg := s.par.cfg.set h g }
    lock  := some 0
    cs    := if m = .spi then s.cs.set g.csLine true else s.cs
    ctx   := s.ctx.set 0 { s.getCtx 0 with phase := ph, cmd := some k, cur := some t, pending := [] }
    fault := none
    inp   := { s.inp with turn := .context, sel := 0 } }

/-- Places a word on the lines of `CMD[0]`, with no earlier write held (which would keep it from being fetched). -/
def placeWord (w : Word16) (s : State) : State :=
  { s.modCtx 0 (fun C => { C with held := none }) with
    inp := { s.inp with turn := .hostWrite .cmd, sel := 0, word := w } }

/-- Places an instruction where the next step fetches it: a host command on the lines of `CMD[0]`, a frame as the frame
due for context 0, at the address 0 and with the data 0 that the table's control byte leaves open (IODIR of port A in
either bank). Entry 14. -/
def placeInstr (i : Instr) (s : State) : State :=
  match i with
  | .spiWriteFrame e _ _ => placeTxn .spi (e.setWidth 3) .spiXfer .write (txnWrite .A .iodir 0x00#8) s
  | .spiReadFrame e _ => placeTxn .spi (e.setWidth 3) .spiXfer .read (txnRead .A .iodir) s
  | .i2cWriteFrame o _ _ => placeTxn .i2c o .i2cWrite .write (txnWrite .A .iodir 0x00#8) s
  | .i2cReadFrame o _ => placeTxn .i2c o .i2cWrite .read (txnRead .A .iodir) s
  | .init | .read _ _ | .write _ _ _ => placeWord i.word s
  | .readPortA | .readPortB | .writePortA _ | .writePortB _ => placeWord i.word s

/-- Places the bits of an opcode-table row. A 16-bit word that is no instruction is written to `CMD[0]` all the same. -/
def placeTableWord (s : State) (nbits w : Nat) : State :=
  if nbits = 16 then placeWord (BitVec.ofNat 16 w) s
  else
    match decodeTableWord nbits w with
    | some i => placeInstr i s
    | none => s

end Sys2Proof.Machine
end

