-- ==== Sys2Proof/Machine/Step.lean ====
section
/-! DEFINITION. The step of the machine (R11). -/

namespace Sys2Proof.Machine

/-- One step: the agent whose turn it is makes its move, and the outside world presents its next inputs. -/
def step (s : State) : Host.Outcome State Fault Refusal := finishOutcome (takeTurn s)

/-- The state with the bits of an opcode-table row placed where the next step fetches them (entry 14). -/
def State.withFetchWord (s : State) (nbits w : Nat) : State := placeTableWord s nbits w

end Sys2Proof.Machine
end

