-- ==== Sys2Proof/Machine/AsmGrammar.lean ====
section
/-! DEFINITION. The grammar of R108 as relations between text and what it stands for. The statement about the assembler is
made against them; the assembler reads none of them. -/

namespace Sys2Proof.Machine

/-- The characters that only separate tokens (entry 20). -/
def Blank (c : Char) : Prop := c = ' ' ∨ c = '\t'

/-- A character of a word: not a blank, not the comma, not the start of a comment. -/
def Plain (c : Char) : Prop := ¬ Blank c ∧ c ≠ ',' ∧ c ≠ ';'

/-- The text that ends a word: nothing, or a blank or a comma first. -/
def EndsWord : List Char → Prop
  | [] => True
  | c :: _ => Blank c ∨ c = ','

/-- `Lays ts text`: the text lays out the tokens `ts`, with blanks between them as it likes (entry 20). -/
inductive Lays : List (List Char) → List Char → Prop where
  | done : Lays [] []
  | blank {c ts text} : Blank c → Lays ts text → Lays ts (c :: text)
  | comma {ts text} : Lays ts text → Lays ([','] :: ts) (',' :: text)
  | word {w ts text} : w ≠ [] → (∀ c ∈ w, Plain c) → EndsWord text → Lays ts text → Lays (w :: ts) (w ++ text)

/-- `t` is the word `w` in letters of either case (R108). -/
def SpellsWord (t : List Char) (w : String) : Prop := t.map Char.toUpper = w.toList

/-- `t` is `n` in decimal digits (entry 20: zeros may stand first). -/
def SpellsDecimal (t : List Char) (n : Nat) : Prop :=
  t ≠ [] ∧ (∀ c ∈ t, c.isDigit = true) ∧ t.foldl (fun m c => 10 * m + (c.toNat - 48)) 0 = n

/-- `c` is the hexadecimal digit of value `a` (entry 20: in either case). -/
def SpellsHex (c : Char) (a : Nat) : Prop :=
  "0123456789abcdef".toList[a]? = some c ∨ "0123456789ABCDEF".toList[a]? = some c

/-- The register names of R22. -/
def regName : LReg → String
  | .iodir => "IODIR"
  | .ipol => "IPOL"
  | .gpinten => "GPINTEN"
  | .defval => "DEFVAL"
  | .intcon => "INTCON"
  | .iocon => "IOCON"
  | .gppu => "GPPU"
  | .intf => "INTF"
  | .intcap => "INTCAP"
  | .gpio => "GPIO"
  | .olat => "OLAT"

/-- `port` of R108. -/
def SpellsPort (t : List Char) (p : Port) : Prop :=
  match p with
  | .A => SpellsWord t "A"
  | .B => SpellsWord t "B"

/-- `reg` of R108: its name, or `#` and its index. -/
def SpellsReg (t : List Char) (r : LReg) : Prop :=
  SpellsWord t (regName r) ∨ ∃ d, t = '#' :: d ∧ SpellsDecimal d r.index.toNat

/-- `imm8` of R108: `0x` and two hexadecimal digits, or a decimal. -/
def SpellsImm (t : List Char) (v : Byte) : Prop :=
  (∃ h l a b, t = ['0', 'x', h, l] ∧ SpellsHex h a ∧ SpellsHex l b ∧ v.toNat = 16 * a + b) ∨
    SpellsDecimal t v.toNat

/-- `command` of R108, with the pseudo-instructions of R109: the tokens of a line that is the instruction. A frame has
no assembly. -/
def SpellsCommand (ts : List (List Char)) : Instr → Prop
  | .init => ∃ m, ts = [m] ∧ SpellsWord m "INIT"
  | .read p r => ∃ m a b, ts = [m, a, [','], b] ∧ SpellsWord m "READ" ∧ SpellsPort a p ∧ SpellsReg b r
  | .write p r v => ∃ m a b d, ts = [m, a, [','], b, [','], d] ∧ SpellsWord m "WRITE" ∧ SpellsPort a p ∧
      SpellsReg b r ∧ SpellsImm d v
  | .readPortA => ∃ m, ts = [m] ∧ SpellsWord m "READ_PORT_A"
  | .readPortB => ∃ m, ts = [m] ∧ SpellsWord m "READ_PORT_B"
  | .writePortA v => ∃ m d, ts = [m, d] ∧ SpellsWord m "WRITE_PORT_A" ∧ SpellsImm d v
  | .writePortB v => ∃ m d, ts = [m, d] ∧ SpellsWord m "WRITE_PORT_B" ∧ SpellsImm d v
  | .spiWriteFrame _ _ _ | .spiReadFrame _ _ | .i2cWriteFrame _ _ _ | .i2cReadFrame _ _ => False

/-- A line of the tokens `ts`: a text that lays them out, and a comment after it or none (R108). -/
def LineOf (ts : List (List Char)) (line : List Char) : Prop :=
  ∃ text, Lays ts text ∧ (line = text ∨ ∃ rest, line = text ++ ';' :: rest)

/-- A line that is the instruction. -/
def SpellsLine (line : List Char) (i : Instr) : Prop := ∃ ts, SpellsCommand ts i ∧ LineOf ts line

end Sys2Proof.Machine
end

