-- ==== Sys2Proof/Machine/Assembler.lean ====
section
/-! DEFINITION. The assembly syntax of host commands (R108, R109): one line of text to one command word. -/

namespace Sys2Proof.Machine

/-- What a line assembles to. -/
inductive Assembled where
  /-- A command. -/
  | instr (i : Instr)
  /-- A line of blanks or a comment only. -/
  | empty
  /-- A line the assembler refuses; it never truncates an operand (R108). -/
  | refused
deriving DecidableEq, Repr

/-- The value of a decimal digit. -/
def digit? (c : Char) : Option Nat :=
  if '0'.toNat ≤ c.toNat ∧ c.toNat ≤ '9'.toNat then some (c.toNat - '0'.toNat) else none

/-- The value of a hexadecimal digit, of either case (entry 20). -/
def hexDigit? (c : Char) : Option Nat :=
  if 'a'.toNat ≤ c.toNat ∧ c.toNat ≤ 'f'.toNat then some (c.toNat - 'a'.toNat + 10)
  else if 'A'.toNat ≤ c.toNat ∧ c.toNat ≤ 'F'.toNat then some (c.toNat - 'A'.toNat + 10)
  else digit? c

/-- The value of a row of decimal digits, after the value read so far. -/
def decimalFrom (n : Nat) : List Char → Option Nat
  | [] => some n
  | c :: cs => match digit? c with
    | some d => decimalFrom (10 * n + d) cs
    | none => none

/-- A decimal number of at least one digit. -/
def decimal? : List Char → Option Nat
  | [] => none
  | cs => decimalFrom 0 cs

/-- A letter in upper case; mnemonics and register names are case-insensitive (R108). -/
def upper (c : Char) : Char :=
  if 'a'.toNat ≤ c.toNat ∧ c.toNat ≤ 'z'.toNat then Char.ofNat (c.toNat - 32) else c

/-- A comment is `;` and any text to the end of the line (R108). -/
def dropComment : List Char → List Char
  | [] => []
  | c :: cs => if c = ';' then [] else c :: dropComment cs

/-- Adds a token unless it is empty. -/
def pushToken (token : List Char) (rest : List (List Char)) : List (List Char) :=
  match token with
  | [] => rest
  | _ => token :: rest

/-- The tokens of a line: blanks separate, a comma is a token of its own. The first argument is the token being read. -/
def tokens : List Char → List Char → List (List Char)
  | token, [] => pushToken token []
  | token, c :: cs =>
    if c = ' ' ∨ c = '\t' then pushToken token (tokens [] cs)
    else if c = ',' then pushToken token ([','] :: tokens [] cs)
    else tokens (token ++ [c]) cs

/-- `port ::= "A" | "B"` (R108). -/
def port? (t : List Char) : Option Port :=
  match t.map upper with
  | ['A'] => some .A
  | ['B'] => some .B
  | _ => none

/-- The register names of R22. -/
def regNames : List (List Char × LReg) :=
  [(['I', 'O', 'D', 'I', 'R'], .iodir), (['I', 'P', 'O', 'L'], .ipol), (['G', 'P', 'I', 'N', 'T', 'E', 'N'], .gpinten),
   (['D', 'E', 'F', 'V', 'A', 'L'], .defval), (['I', 'N', 'T', 'C', 'O', 'N'], .intcon),
   (['I', 'O', 'C', 'O', 'N'], .iocon), (['G', 'P', 'P', 'U'], .gppu), (['I', 'N', 'T', 'F'], .intf),
   (['I', 'N', 'T', 'C', 'A', 'P'], .intcap), (['G', 'P', 'I', 'O'], .gpio), (['O', 'L', 'A', 'T'], .olat)]

/-- `reg`: a name, or `#` and an index of 0 to 10; an index above 10 is refused (R108). -/
def reg? : List Char → Option LReg
  | '#' :: cs => match decimal? cs with
    | some n => if n ≤ 10 then LReg.ofIndex (BitVec.ofNat 4 n) else none
    | none => none
  | t => regNames.lookup (t.map upper)

/-- `imm8`: `0x` and two hexadecimal digits, or a decimal of 0 to 255; a larger one is refused (R108). -/
def imm8? : List Char → Option Byte
  | ['0', 'x', h, l] => match hexDigit? h, hexDigit? l with
    | some a, some b => some (BitVec.ofNat 8 (16 * a + b))
    | _, _ => none
  | t => match decimal? t with
    | some n => if n ≤ 255 then some (BitVec.ofNat 8 n) else none
    | none => none

/-- A mnemonic, compared without regard to case. -/
def isWord (t w : List Char) : Bool := t.map upper == w

/-- INIT. -/
def nameInit : List Char := ['I', 'N', 'I', 'T']
/-- READ. -/
def nameRead : List Char := ['R', 'E', 'A', 'D']
/-- WRITE. -/
def nameWrite : List Char := ['W', 'R', 'I', 'T', 'E']
/-- READ_PORT_A. -/
def nameReadPortA : List Char := nameRead ++ ['_', 'P', 'O', 'R', 'T', '_', 'A']
/-- READ_PORT_B. -/
def nameReadPortB : List Char := nameRead ++ ['_', 'P', 'O', 'R', 'T', '_', 'B']
/-- WRITE_PORT_A. -/
def nameWritePortA : List Char := nameWrite ++ ['_', 'P', 'O', 'R', 'T', '_', 'A']
/-- WRITE_PORT_B. -/
def nameWritePortB : List Char := nameWrite ++ ['_', 'P', 'O', 'R', 'T', '_', 'B']

/-- `command` (R108). -/
def command? : List (List Char) → Option Instr
  | [m] =>
    if isWord m nameInit then some .init
    else if isWord m nameReadPortA then some .readPortA
    else if isWord m nameReadPortB then some .readPortB
    else none
  | [m, v] =>
    if isWord m nameWritePortA then (imm8? v).map Instr.writePortA
    else if isWord m nameWritePortB then (imm8? v).map Instr.writePortB
    else none
  | [m, p, [','], r] =>
    if isWord m nameRead then
      match port? p, reg? r with
      | some p, some r => some (.read p r)
      | _, _ => none
    else none
  | [m, p, [','], r, [','], v] =>
    if isWord m nameWrite then
      match port? p, reg? r, imm8? v with
      | some p, some r, some v => some (.write p r v)
      | _, _, _ => none
    else none
  | _ => none

/-- A line of assembly (R108). -/
def assembleLine (line : List Char) : Assembled :=
  match tokens [] (dropComment line) with
  | [] => .empty
  | ts => match command? ts with
    | some i => .instr i
    | none => .refused

/-- The HOSTCMD16 word of a line that is a command (R97, R108). -/
def assemble (line : List Char) : Option Word16 :=
  match assembleLine line with
  | .instr i => some i.word
  | .empty => none
  | .refused => none

end Sys2Proof.Machine
end

