-- ==== Sys2Proof/Machine/Drive.lean ====
section
/-! DEFINITION. Running one context against chosen inputs: the schedules and answers that the laws of the sequencer
(R178, R211, R212) speak of are lists of inputs, in place of the free ones. -/

namespace Sys2Proof

/-- Every transport primitive that the inputs present answers OK. -/
abbrev Inputs.allOk (a : Inputs) : Prop := a.spiSt = .ok ∧ a.i2cTxSt = .ok ∧ a.i2cRxSt = .ok

namespace Machine

/-- The state with chosen inputs presented to its next step. -/
def State.present (s : State) (i : Inputs) : State := { s with inp := i }

/-- The inputs of a turn of context c, with the answers of `a`. -/
def contextTurn (c : Nat) (a : Inputs) : Inputs := { a with turn := .context, sel := c }

/-- The inputs of a host write of word w to `CMD[c]`. -/
def cmdTurn (c : Nat) (w : Word16) : Inputs := { turn := .hostWrite .cmd, sel := c, word := w }

/-- Steps of context c alone, one for each list entry, with the answers of that entry. -/
def runContext (c : Nat) : List Inputs → State → Host.Outcome State Fault Refusal
  | [], s => .next s
  | a :: as, s =>
    match step (s.present (contextTurn c a)) with
    | .next s' => runContext c as s'
    | .fault r => .fault r
    | .refused r => .refused r

/-- The number of context steps of one transaction, when nothing faults and nothing holds (R178). -/
def transactionSteps (m : Mode) (t : Txn) : Nat :=
  match m, t.kind, t.rw with
  | .spi, .reg, _ => 7
  | .spi, .pulse, _ => 4
  | _, _, .write => 3
  | _, _, .read => 4

end Machine

end Sys2Proof
end

