-- ==== Sys2Proof/Machine/Memory.lean ====
section
/-! DEFINITION. The register contents of a device of the loopback fixture (95_test_vectors.md section 2): `MemRead` and
`MemWrite` of R9. The block itself has no memory (R5, R62); nothing of State is a memory (entry 16). -/

namespace Sys2Proof.Machine

/-- Device contents: (address, byte) pairs, addresses strictly rising, no entry equal to what an unlisted address reads
as. -/
abbrev Memory := List Host.Cell

/-- What an unlisted address reads as: the fixture starts with every register 0x00 (95_test_vectors.md section 2). -/
def memDefault : Byte := 0x00#8

/-- `MemRead(a, 1)` (R9). -/
def memRead : Memory → Nat → Byte
  | [], _ => memDefault
  | (b, v) :: m, a => if a = b then v else memRead m a

/-- The list with address a holding v, or unlisted where v is what an unlisted address reads as. -/
def memPut (a : Nat) (v : Byte) (m : Memory) : Memory := if v = memDefault then m else (a, v) :: m

/-- `MemWrite(a, 1, v)` (R9). -/
def memWrite : Memory → Nat → Byte → Memory
  | [], a, v => memPut a v []
  | (b, w) :: m, a, v =>
    if a < b then memPut a v ((b, w) :: m)
    else if a = b then memPut a v m
    else (b, w) :: memWrite m a v

/-- The canonical form. -/
abbrev Memory.wf (m : Memory) : Prop :=
  m.Pairwise (fun x y => x.1 < y.1) ∧ ∀ x ∈ m, x.2 ≠ memDefault

end Sys2Proof.Machine
end

