-- ==== Sys2Proof/Machine/Loopback.lean ====
section
/-! DEFINITION. The loopback fixture LB (95_test_vectors.md section 2; R84, R213): one permitted environment, outside
the block. No step of the machine reads it (entry 16). -/

namespace Sys2Proof.Machine

/-- The devices of the fixture: for each handle its register contents and its I2C register pointer. -/
structure Devices where
  mem : List Memory
  ptr : List Byte
deriving DecidableEq, Repr

/-- The block with the fixture on its bus. -/
structure Bench where
  dev : Devices
  st  : State
deriving DecidableEq, Repr

/-- The contents of device d. -/
def Devices.getMem (x : Devices) (d : Nat) : Memory := x.mem.getD d []

/-- The register pointer of device d. -/
def Devices.getPtr (x : Devices) (d : Nat) : Byte := x.ptr.getD d 0x00#8

/-- The device that an SPI exchange goes to: that of an SPI handle whose chip-select line is asserted (the first, if
handles share the line; entry 23). -/
def spiDevice (s : State) : Option Nat := s.par.cfg.findIdx? fun g => g.mode == .spi && s.getCs g.csLine

/-- The device that an I2C call goes to: that of an I2C handle whose opcode equals the slave address argument (the
first, if handles share the opcode; entry 23). -/
def i2cDevice (s : State) (a : Byte) : Option Nat := s.par.cfg.findIdx? fun g => g.mode == .i2c && sla g.opcode == a

/-- The fixture's effect of the transport step that context c is about to take. -/
def devicesAfter (b : Bench) (c : Nat) : Devices :=
  let x := b.dev
  match dueFrame b.st c with
  | some (.spi [k, a, v]) =>
    match spiDevice b.st with
    | some d => if k.getLsbD 0 then x else { x with mem := x.mem.set d (memWrite (x.getMem d) a.toNat v) }
    | none => x
  | some (.i2c bytes) =>
    match i2cDevice b.st (sla (b.st.par.handleCfg c).opcode), (b.st.getCtx c).phase, bytes with
    | some d, .i2cWrite, [_, a, v] => { x with mem := x.mem.set d (memWrite (x.getMem d) a.toNat v) }
    | some d, .i2cWrite, [_, a] => { x with ptr := x.ptr.set d a }
    | _, _, _ => x
  | _ => x

/-- The answers the fixture presents to a step of context c: every status OK; an SPI read returns `[0, 0, L[a]]`, an
I2C read `L[ptr]`. -/
def loopbackTurn (b : Bench) (c : Nat) : Inputs :=
  let x := b.dev
  match dueFrame b.st c with
  | some (.spi [k, a, _]) =>
    match spiDevice b.st with
    | some d => contextTurn c { rx2 := if k.getLsbD 0 then memRead (x.getMem d) a.toNat else 0x00#8 }
    | none => contextTurn c {}
  | some (.i2c _) =>
    match i2cDevice b.st (sla (b.st.par.handleCfg c).opcode) with
    | some d => contextTurn c { i2cRxByte := memRead (x.getMem d) (x.getPtr d).toNat }
    | none => contextTurn c {}
  | _ => contextTurn c {}

/-- One step of context c on the fixture. -/
def benchContext (c : Nat) (b : Bench) : Bench :=
  match step (b.st.present (loopbackTurn b c)) with
  | .next s => { dev := devicesAfter b c, st := s }
  | .fault _ => b
  | .refused _ => b

/-- A host write of word w to `CMD[c]` on the fixture. -/
def benchCommand (c : Nat) (w : Word16) (b : Bench) : Bench :=
  match step (b.st.present (cmdTurn c w)) with
  | .next s => { b with st := s }
  | .fault _ => b
  | .refused _ => b

/-- n steps of context c on the fixture. -/
def benchRun (c : Nat) : Nat → Bench → Bench
  | 0, b => b
  | n + 1, b => benchRun c n (benchContext c b)

/-- A command of one transaction on the fixture: its word, then the steps of its transaction (R178). -/
def benchTransaction (c : Nat) (i : Instr) (t : Txn) (b : Bench) : Bench :=
  benchRun c (transactionSteps (b.st.par.handleCfg c).mode t) (benchCommand c i.word b)

end Sys2Proof.Machine
end

