-- ==== Sys2Proof/Safety.lean ====
section
/-! DEFINITION. What counts as a safe run: the invariant of the block (R174, R175, R177, R235), the runs that any
schedule and any answers of the outside world allow (R11), and the order of events on the trace (R68, R77, R176). -/

namespace Sys2Proof.Machine

/-- The phases in which a context holds the lock (R175). -/
def Phase.holdsLock : Phase → Bool
  | .idle | .lockWait => false
  | .csAssert | .waitIdlePre | .spiXfer | .waitIdlePost | .csDeassert | .i2cWrite | .i2cRead | .release => true

/-- The phases in which the lock holder's chip-select line is asserted (R177). -/
def Phase.assertsCs : Phase → Bool
  | .waitIdlePre | .spiXfer | .waitIdlePost | .csDeassert => true
  | .idle | .lockWait | .csAssert | .i2cWrite | .i2cRead | .release => false

/-- The phases of the SPI path (R34). -/
def Phase.onSpi : Phase → Bool
  | .csAssert | .waitIdlePre | .spiXfer | .waitIdlePost | .csDeassert => true
  | .idle | .lockWait | .i2cWrite | .i2cRead | .release => false

/-- The phases of the I2C path (R34). -/
def Phase.onI2c : Phase → Bool
  | .i2cWrite | .i2cRead => true
  | .idle | .lockWait | .csAssert | .waitIdlePre | .spiXfer | .waitIdlePost | .csDeassert | .release => false

/-- The phases that only a register transaction enters (R167, R172). -/
def Phase.regOnly : Phase → Bool
  | .waitIdlePre | .spiXfer | .waitIdlePost | .i2cWrite | .i2cRead => true
  | .idle | .lockWait | .csAssert | .csDeassert | .release => false

/-- The phases after the response byte of a read has arrived (R169, R173). -/
def Phase.afterRead : Phase → Bool
  | .waitIdlePost | .csDeassert | .release => true
  | .idle | .lockWait | .csAssert | .waitIdlePre | .spiXfer | .i2cWrite | .i2cRead => false

/-- The phase of the step that raises a cause (R230). -/
def Cause.raisedIn : Cause → Phase
  | .spiXferError | .spiXferTimeout => .spiXfer
  | .i2cTxError | .i2cTxTimeout => .i2cWrite
  | .i2cRxError | .i2cRxTimeout => .i2cRead
  | .modeUndefined | .illegalCmd => .idle

/-- The transactions a command still has before it are those of its expansion (R201, R202, R204, R205). -/
def CommandShape (g : HandleCfg) (C : Ctx) : Prop :=
  match C.cmd with
  | some .read => ∃ p r, C.cur = some (txnRead p r) ∧ C.pending = []
  | some .write => ∃ p r v, C.cur = some (txnWrite p r v) ∧ C.pending = []
  | some .init => ∃ t k, C.cur = some t ∧ t :: C.pending = (initSeq g).drop k
  | none => False

/-- What holds of one context whose handle is configured as g. -/
structure CtxInv (g : HandleCfg) (C : Ctx) : Prop where
  idle_empty   : C.phase = .idle → C.cur = none ∧ C.pending = []
  mode_known   : C.phase ≠ .idle → g.mode ≠ .undefined
  spi_phase    : C.phase.onSpi = true → g.mode = .spi
  i2c_phase    : C.phase.onI2c = true → g.mode = .i2c
  command      : C.phase ≠ .idle → CommandShape g C
  reg_phase    : C.phase.regOnly = true → ∀ t, C.cur = some t → t.kind = .reg
  read_phase   : C.phase = .i2cRead → ∀ t, C.cur = some t → t.rw = .read
  byte_there   : C.phase.afterRead = true → ∀ t, C.cur = some t → t.kind = .reg → t.rw = .read → C.rdByte ≠ none
  init_checked : C.phase ≠ .idle → C.cmd = some .init →
    (∀ t, C.cur = some t → ∀ u ∈ t :: C.pending, u.check = false) → C.initOk ≠ none

/-- The fault record is that of the context that stopped, frozen in the phase in which its cause is raised (R35, R230,
R235). -/
def FaultInv (s : State) : Prop :=
  ∀ f, s.fault = some f →
    f.ctx < s.par.nCtx ∧ f.dev = s.par.handle f.ctx ∧ f.phase = (s.getCtx f.ctx).phase ∧ f.phase = f.cause.raisedIn

/-- The invariant of the block. -/
structure Inv (s : State) : Prop where
  params    : s.par.WellFormed
  ctx_len   : s.ctx.length = s.par.nCtx
  cs_len    : s.cs.length = s.par.nCs
  lock_lt   : ∀ c, s.lock = some c → c < s.par.nCtx
  lock_iff  : ∀ c < s.par.nCtx, (s.lock = some c ↔ (s.getCtx c).phase.holdsLock = true)
  cs_iff    : ∀ l < s.par.nCs, (s.getCs l = true ↔
    ∃ c, s.lock = some c ∧ (s.par.handleCfg c).csLine = l ∧ (s.getCtx c).phase.assertsCs = true)
  ctx_inv   : ∀ c < s.par.nCtx, CtxInv (s.par.handleCfg c) (s.getCtx c)
  fault_inv : FaultInv s

/-- The turn names a context that exists. -/
abbrev State.turnLegal (s : State) : Prop := s.inp.sel < s.par.nCtx

/-- Context `s.inp.sel` takes its turn in phase ph, with no fault recorded (R164). -/
abbrev State.contextTurn (s : State) (ph : Phase) : Prop :=
  s.inp.turn = .context ∧ s.turnLegal ∧ s.fault = none ∧ (s.getCtx s.inp.sel).phase = ph

/-- The host writes word w to the `CMD` register of context `s.inp.sel`, no earlier write of it being held (R39). -/
abbrev State.cmdWriteTurn (s : State) (w : Word16) : Prop :=
  s.inp.turn = .hostWrite .cmd ∧ s.inp.word = w ∧ s.turnLegal ∧ (s.getCtx s.inp.sel).held = none

/-- ACCEPT is enabled for the context of the turn (R200). -/
abbrev State.readyToAccept (s : State) : Prop := (s.getCtx s.inp.sel).phase = .idle ∧ s.fault = none

/-- The states that some schedule and some answers of the outside world reach from reset, for some parameters (R11,
R79). -/
inductive Reachable (p : Params) : State → Prop where
  | reset (busy : Bool) : Reachable p (State.resetOf p busy)
  | step (s s' : State) (i : Inputs) : Reachable p s → step (s.present i) = .next s' → Reachable p s'

/-- The state after ACCEPT of a legal command: word w, kind k, transactions `seq` (R200). -/
def acceptedState (s : State) (w : Word16) (k : CmdKind) (seq : List Txn) : State :=
  let c := s.inp.sel
  { s with
    trace := s.trace ++ [.accept c w]
    ctx := s.ctx.set c
      { s.getCtx c with
        phase := .lockWait, cmd := some k, cur := seq.head?, pending := seq.tail, rdByte := none, initOk := none,
        held := none } }

/-- The state after a fault raised by the context of the turn, behind the events of the step (R231). -/
def faultedState (s : State) (events : List Event) (cause : Cause) : State :=
  let c := s.inp.sel
  { s with
    trace := s.trace ++ events ++ [.fault c cause]
    fault := some { cause := cause, ctx := c, dev := s.par.handle c, phase := (s.getCtx c).phase } }

/-- The context of a bus event (R68). -/
def Event.busContext : Event → Option Nat
  | .lock c | .cs c _ _ | .spi c _ _ _ | .i2cW c _ _ _ | .i2cR c _ _ _ | .unlock c => some c
  | .accept _ _ | .respond _ _ _ | .fault _ _ => none

/-- No bus event of another context falls between a context's `Lock` and its `Unlock` (R68). -/
def AtomicTrace (tr : List Event) : Prop :=
  ∀ before c mid after, tr = before ++ .lock c :: (mid ++ after) → .unlock c ∉ mid →
    ∀ e ∈ mid, ∀ d, e.busContext = some d → d = c

/-- Every exchange lies between an assertion of a line by its own context and the next deassertion of that line (R177):
between the last chip-select event before it and itself that context asserted the line. -/
def ExchangesFramed (tr : List Event) : Prop :=
  ∀ before c tx rx st after, tr = before ++ .spi c tx rx st :: after →
    ∃ l xs ys, before = xs ++ .cs c l true :: ys ∧ ∀ e ∈ ys, ∀ d m v, e ≠ .cs d m v

/-- A transport call that did not answer OK. -/
def Event.failed : Event → Bool
  | .spi _ _ _ st | .i2cW _ _ _ st | .i2cR _ _ _ st => st != .ok
  | .accept _ _ | .lock _ | .cs _ _ _ | .unlock _ | .respond _ _ _ | .fault _ _ => false

/-- A frame that the block may put on the wire for handle configuration g (R111). -/
def FrameLegal (g : HandleCfg) : Event → Prop
  | .spi _ tx _ _ => ∃ k a d, tx = [k, a, d] ∧ 0x40 ≤ k.toNat ∧ k.toNat ≤ 0x47 ∧ ∃ p r, a = resolve g.bank p r
  | .i2cW _ _ bytes _ => ∃ k a, 0x40 ≤ k.toNat ∧ k.toNat ≤ 0x4F ∧ (∃ p r, a = resolve g.bank p r) ∧
      ((∃ d, bytes = [k, a, d]) ∨ bytes = [k, a])
  | _ => True

/-- The context of an event. -/
def Event.context : Event → Nat
  | .accept c _ | .lock c | .cs c _ _ | .spi c _ _ _ | .i2cW c _ _ _ | .i2cR c _ _ _ | .unlock c | .respond c _ _
  | .fault c _ => c

/-- The register writes that a trace shows, in order: address and data of every 3-byte frame whose control byte is a
write's. -/
def registerWrites : List Event → List (Byte × Byte)
  | [] => []
  | .spi _ [k, a, d] _ _ :: tr => if k.getLsbD 0 then registerWrites tr else (a, d) :: registerWrites tr
  | .i2cW _ _ [_, a, d] _ :: tr => (a, d) :: registerWrites tr
  | _ :: tr => registerWrites tr

/-- The events of one transaction of context c without a fault, from its `Lock` to its `Unlock`; rx and b are the
answers of the masters (R178). -/
def transactionEvents (g : HandleCfg) (c : Nat) (t : Txn) (rx : List Byte) (b : Byte) : List Event :=
  let k := ctrl g.mode g.opcode t.rw
  let a := resolve g.bank t.port t.reg
  match g.mode, t.kind, t.rw with
  | .spi, .reg, .write =>
    [.lock c, .cs c g.csLine true, .spi c [k, a, t.data] rx .ok, .cs c g.csLine false, .unlock c]
  | .spi, .reg, .read =>
    [.lock c, .cs c g.csLine true, .spi c [k, a, 0x00#8] rx .ok, .cs c g.csLine false, .unlock c]
  | .spi, .pulse, _ => [.lock c, .cs c g.csLine true, .cs c g.csLine false, .unlock c]
  | _, _, .write => [.lock c, .i2cW c (sla g.opcode) [k, a, t.data] .ok, .unlock c]
  | _, _, .read => [.lock c, .i2cW c (sla g.opcode) [k, a] .ok, .i2cR c (sla g.opcode) b .ok, .unlock c]

/-- The register writes of one port's block, as addresses and data, in the order of R202. -/
def portWrites (g : HandleCfg) (p : Port) (pc : PortCfg) : List (Byte × Byte) :=
  [(resolve g.bank p .iodir, pc.iodir), (resolve g.bank p .ipol, pc.ipol), (resolve g.bank p .gpinten, pc.gpinten),
   (resolve g.bank p .defval, pc.defval), (resolve g.bank p .intcon, pc.intcon), (resolve g.bank p .gppu, pc.gppu),
   (resolve g.bank p .gpio, pc.gpio), (resolve g.bank p .olat, pc.olat)]

/-- The context steps of INIT on a bus that never holds and never faults: 19 transactions on SPI, 18 on I2C (R178,
R214). -/
def initSteps : Mode → Nat
  | .spi => 4 + 18 * 7
  | .i2c => 3 + 4 + 16 * 3
  | .undefined => 0

/-- The byte that INIT's read-back receives among the answers to its context steps: on SPI in the 15th step (4 of the
pulse, 7 of the write, then the fourth of the read), on I2C in the 6th (3 of the write, then the third of the read). -/
def initReadBack (m : Mode) (as : List Inputs) : Byte :=
  match m with
  | .spi => (as.getD 14 {}).rx2
  | .i2c => (as.getD 5 {}).i2cRxByte
  | .undefined => 0x00#8

/-- The byte that a READ command's own transaction receives among the answers to its context steps. -/
def readAnswer (m : Mode) (as : List Inputs) : Byte :=
  match m with
  | .spi => (as.getD 3 {}).rx2
  | .i2c => (as.getD 2 {}).i2cRxByte
  | .undefined => 0x00#8

end Sys2Proof.Machine
end

