-- ==== Sys2Proof/Certificates/Slice0/Obligations.lean ====
section
/-! DEFINITION. The statements about the model. -/

open Sys2Proof Sys2Proof.Machine

/-! ### Encoding -/

/-- Every well-formed instruction's encoding decodes to it; a pseudo-instruction's decodes to the command it expands to
(R97, R99, R102 to R105, R109). -/
def Obligations.DecodeOfEncode : Prop :=
  ∀ i : Instr, i.wellFormed = true → decode (encode i) = .instr i.core

/-- What decodes is well-formed, is a core instruction, and is encoded by exactly the code it came from: decoding drops
no bit and two codes never share an instruction (R97, R99). That a word never decodes to a port wrapper is the model's
reading of R109 and R112 (entry 7). That a frame with an address above 26, or a read with a dummy byte other than 0x00,
does not decode is its reading of R102 and R111 (entry 12). -/
def Obligations.EncodeOfDecode : Prop :=
  ∀ (code : Code) (i : Instr), decode code = .instr i → i.wellFormed = true ∧ i.core = i ∧ encode i = code

/-- R110: the five conditions under which a word is illegal; ACCEPT of such a word raises ILLEGAL_CMD whatever the mode
of the handle, and no bus event is emitted. -/
def Obligations.IllegalWordsFault : Prop :=
  (∀ w : Word16, (∃ e, decode (.word w) = .illegal e) ↔
    (w.extractLsb' 13 1 = 1#1 ∨ w.extractLsb' 14 2 = 0b11#2 ∨
     (w.extractLsb' 14 2 = 0b00#2 ∧ w.extractLsb' 0 13 ≠ 0#13) ∨
     (w.extractLsb' 14 2 = 0b01#2 ∧ (10 < (w.extractLsb' 8 4).toNat ∨ w.extractLsb' 0 8 ≠ 0#8)) ∨
     (w.extractLsb' 14 2 = 0b10#2 ∧ 10 < (w.extractLsb' 8 4).toNat))) ∧
  (∀ (s : State) (w : Word16), s.cmdWriteTurn w → s.readyToAccept → (∃ e, decode (.word w) = .illegal e) →
    step s = .next (finish (faultedState s [.accept s.inp.sel w] .illegalCmd)))

/-- The words of the commands (R97, R109). -/
def Obligations.CommandWords : Prop :=
  encode .init = .word 0x0000#16 ∧
  (∀ p r, encode (.read p r) =
    .word (0x4000#16 ||| (p.bit.setWidth 16 <<< 12) ||| (r.index.setWidth 16 <<< 8))) ∧
  (∀ p r v, encode (.write p r v) =
    .word (0x8000#16 ||| (p.bit.setWidth 16 <<< 12) ||| (r.index.setWidth 16 <<< 8) ||| v.setWidth 16)) ∧
  encode .readPortA = .word 0x4900#16 ∧ encode .readPortB = .word 0x5900#16 ∧
  (∀ v, encode (.writePortA v) = .word (0x8900#16 ||| v.setWidth 16)) ∧
  (∀ v, encode (.writePortB v) = .word (0x9900#16 ||| v.setWidth 16))

/-- Codes written out from the encodings of R91, R99 and R102 to R105. -/
def Obligations.SampleCodesDecode : Prop :=
  decode (.word 0b0000000000000000#16) = .instr .init ∧
  decode (.word 0b0101100100000000#16) = .instr (.read .B .gpio) ∧
  decode (.word 0b1001100110100101#16) = .instr (.write .B .gpio 0xA5#8) ∧
  decode (.spi [0b01000010#8, 0x13#8, 0xA5#8]) = .instr (.spiWriteFrame 0b01#2 0x13#8 0xA5#8) ∧
  decode (.spi [0b01000011#8, 0x13#8, 0x00#8]) = .instr (.spiReadFrame 0b01#2 0x13#8) ∧
  decode (.i2c [0b01001000#8, 0x1A#8, 0x80#8]) = .instr (.i2cWriteFrame 0b100#3 0x1A#8 0x80#8) ∧
  decode (.i2c [0b01001101#8, 0x19#8]) = .instr (.i2cReadFrame 0b110#3 0x19#8)

/-- R108 and R109: a line assembles to an instruction exactly when the grammar spells it so (mnemonics and register names
in either case, `#index`, hexadecimal and decimal immediates, a comment), to the one legal word of that instruction; any
other line that is not empty is refused, among them an index above 10 and an immediate above 255, which are not
truncated. The lexical detail (blanks, leading zeros, hexadecimal digits of either case, empty lines) is entry 20. -/
def Obligations.AssemblerIsFaithful : Prop :=
  (∀ line i, assembleLine line = .instr i ↔ SpellsLine line i) ∧
  (∀ line, assembleLine line = .empty ↔ LineOf [] line) ∧
  (∀ line, (∀ i, ¬ SpellsLine line i) → ¬ LineOf [] line → assembleLine line = .refused) ∧
  (∀ line i, assembleLine line = .instr i →
    assemble line = some i.word ∧ decode (.word i.word) = .instr i.core) ∧
  (∀ cs n, SpellsDecimal cs n → 10 < n → reg? ('#' :: cs) = none) ∧
  (∀ cs n, SpellsDecimal cs n → 255 < n → imm8? cs = none)

/-! ### Address resolver and frame builder -/

/-- The Bank0 formula R121 and the Bank1 formula R122, as sums and as disjunctions of bits. -/
def Obligations.ResolveFormulas : Prop :=
  (∀ p r, (resolve .bank0 p r).toNat = ((r.index.toNat <<< 1) ||| (if p = .B then 1 else 0)) ∧
    (resolve .bank0 p r).toNat = (r.index.toNat <<< 1) + (if p = .B then 1 else 0)) ∧
  resolve .bank0 .A .iocon = 0x0A#8 ∧
  (∀ p r, (resolve .bank1 p r).toNat = r.index.toNat + (if p = .B then 0x10 else 0) ∧
    (resolve .bank1 p r).toNat = (r.index.toNat ||| (if p = .B then 0x10 else 0))) ∧
  resolve .bank1 .B .iodir = 0x10#8

/-- The parity law R124, the offset law R125 and the range law R126. -/
def Obligations.ResolveLaws : Prop :=
  (∀ p r, (resolve .bank0 p r).getLsbD 0 = decide (p = .B)) ∧
  (∀ r, (resolve .bank1 .B r).toNat = (resolve .bank1 .A r).toNat + 16) ∧
  (∀ p r, (resolve .bank0 p r).toNat ≤ 21) ∧
  (∀ r, (resolve .bank1 .A r).toNat ≤ 10) ∧
  (∀ r, 16 ≤ (resolve .bank1 .B r).toNat ∧ (resolve .bank1 .B r).toNat ≤ 26) ∧
  (∀ b p q r t, resolve b p r = resolve b q t → p = q ∧ r = t)

/-- The opcode law R145. -/
def Obligations.OpcodeLaw : Prop :=
  ∀ (o : BitVec 3) (rw : RW),
    (ctrl .spi o rw).extractLsb' 1 3 = (o &&& 0b011#3) ∧ sla o = o.setWidth 8 ∧
    (ctrl .i2c o rw).extractLsb' 1 3 = o

/-- The table of control bytes of R148, row by row: opcode, SPI write and read, I2C write and read, SLA. -/
def Obligations.ControlByteTable : Prop :=
  (List.range 8).map (fun n =>
    let o := BitVec.ofNat 3 n
    [ctrl .spi o .write, ctrl .spi o .read, ctrl .i2c o .write, ctrl .i2c o .read, sla o]) =
  [[0x40#8, 0x41#8, 0x40#8, 0x41#8, 0x00#8], [0x42#8, 0x43#8, 0x42#8, 0x43#8, 0x01#8],
   [0x44#8, 0x45#8, 0x44#8, 0x45#8, 0x02#8], [0x46#8, 0x47#8, 0x46#8, 0x47#8, 0x03#8],
   [0x40#8, 0x41#8, 0x48#8, 0x49#8, 0x04#8], [0x42#8, 0x43#8, 0x4A#8, 0x4B#8, 0x05#8],
   [0x44#8, 0x45#8, 0x4C#8, 0x4D#8, 0x06#8], [0x46#8, 0x47#8, 0x4E#8, 0x4F#8, 0x07#8]]

/-- R142, R143 and R144: the write form, the read form, and the SPI padding of a read with the dummy byte 0x00. -/
def Obligations.FrameForms : Prop :=
  (∀ m o a d, buildFrame m o a .write d = [ctrl m o .write, a, d]) ∧
  (∀ m o a d, buildFrame m o a .read d = [ctrl m o .read, a]) ∧
  (∀ frame, spiTx frame .write = frame) ∧
  (∀ frame, spiTx frame .read = frame ++ [0x00#8]) ∧
  (∀ m o a rw d, (spiTx (buildFrame m o a rw d) rw).length = 3) ∧
  buildFrame .spi 0b101#3 0x13#8 .write 0xA5#8 = [0x42#8, 0x13#8, 0xA5#8] ∧
  buildFrame .i2c 0b110#3 0x05#8 .read 0x00#8 = [0x4D#8, 0x05#8] ∧
  spiTx [0x43#8, 0x13#8] .read = [0x43#8, 0x13#8, 0x00#8]

/-- R111 in every state that any schedule reaches: no frame on the trace has a control byte, an address or a length that
the handle of its context may not send. -/
def Obligations.OnlyLegalFramesAreSent : Prop :=
  ∀ (p : Params) (s : State), p.WellFormed → Reachable p s →
    ∀ e ∈ s.trace, FrameLegal (p.handleCfg e.context) e

/-- The frame that is due is the encoding of a well-formed frame instruction, so the decoder reads that instruction. -/
def Obligations.DueFrameDecodes : Prop :=
  ∀ (s : State) (c : Nat) (code : Code), Inv s → c < s.par.nCtx → dueFrame s c = some code →
    ∃ i, i.wellFormed = true ∧ encode i = code ∧ decode code = .instr i

/-! ### The step -/

/-- A step whose fetched code decodes to a well-formed instruction is exec of it; a next state is then given the next
inputs and the count of steps advances, nothing else. The inputs and the count are the model's own fields (entry 2), and
that the named context is brought below N_CTX is its choice (entry 4). No arm of exec refuses, so the last clause has no
case. -/
def Obligations.StepRunsDecodedInstruction : Prop :=
  ∀ (s : State) (code : Code) (i : Instr), fetch s = some code → decode code = .instr i → i.wellFormed = true →
    (∀ t, exec i s = .next t →
      step s = .next { t with inp := legalInputs t.par (Config.inputs t.tick), tick := t.tick + 1 }) ∧
    (∀ r, exec i s = .fault r → step s = .fault r) ∧
    (∀ r, exec i s = .refused r → step s = .refused r)

/-- What a turn fetches: the word on the lines of `CMD`, the held word, the frame due for the stepping context; nothing on
any other turn and in any other phase. That a held word is offered again at a turn of its own is the model's choice (entry 24), and that the host
writes no second word while one is held its reading (entry 5). -/
def Obligations.FetchOfATurn : Prop :=
  (∀ (s : State) (w : Word16), s.cmdWriteTurn w → fetch s = some (.word w)) ∧
  (∀ (s : State) (w : Word16), s.inp.turn = .cmdHeld → (s.getCtx s.inp.sel).held = some w →
    fetch s = some (.word w)) ∧
  (∀ (s : State) (t : Txn), s.contextTurn .spiXfer → (s.getCtx s.inp.sel).cur = some t →
    fetch s = some (.spi (spiTx (txnFrame (s.par.handleCfg s.inp.sel) t) t.rw))) ∧
  (∀ (s : State) (t : Txn), s.contextTurn .i2cWrite → (s.getCtx s.inp.sel).cur = some t →
    fetch s = some (.i2c (txnFrame (s.par.handleCfg s.inp.sel) t))) ∧
  (∀ (s : State) (t : Txn), s.contextTurn .i2cRead → (s.getCtx s.inp.sel).cur = some t → t.rw = .read →
    fetch s = some (.i2c (txnFrame (s.par.handleCfg s.inp.sel) t))) ∧
  (∀ s : State, s.inp.turn = .hostWrite .cmd → (s.getCtx s.inp.sel).held ≠ none → fetch s = none) ∧
  (∀ s : State, s.inp.turn = .cmdHeld → (s.getCtx s.inp.sel).held = none → fetch s = none) ∧
  (∀ s : State, s.inp.turn = .context → (s.getCtx s.inp.sel).phase ≠ .spiXfer ∧
    (s.getCtx s.inp.sel).phase ≠ .i2cWrite ∧ (s.getCtx s.inp.sel).phase ≠ .i2cRead → fetch s = none) ∧
  (∀ s : State, s.inp.turn = .context → s.fault ≠ none ∨ (s.getCtx s.inp.sel).cur = none → fetch s = none) ∧
  (∀ s : State, s.inp.turn ≠ .hostWrite .cmd → s.inp.turn ≠ .cmdHeld → s.inp.turn ≠ .context → fetch s = none)

/-! ### Commands -/

/-- ACCEPT of any word, by a host write or by the interface's retry of a held one: its effect where it is enabled (R200),
and where it is not the write held and nothing else changed (R39). That a held word is accepted at a turn of its own is the
model's choice (entry 24); that one word is held and none written while it is, its reading (entry 5). -/
def Obligations.AcceptOfAWord : Prop :=
  ∀ (s : State) (w : Word16), s.turnLegal →
    (s.cmdWriteTurn w ∨ (s.inp.turn = .cmdHeld ∧ (s.getCtx s.inp.sel).held = some w)) →
    let c := s.inp.sel
    let g := s.par.handleCfg c
    let taken := { s with ctx := s.ctx.set c { s.getCtx c with held := none } }
    (s.readyToAccept →
      (∀ e, decode (.word w) = .illegal e →
        step s = .next (finish (faultedState taken [.accept c w] .illegalCmd))) ∧
      (∀ i, decode (.word w) = .instr i → g.mode = .undefined →
        step s = .next (finish (faultedState taken [.accept c w] .modeUndefined))) ∧
      (g.mode ≠ .undefined →
        (decode (.word w) = .instr .init → step s = .next (finish (acceptedState s w .init (initSeq g)))) ∧
        (∀ p r, decode (.word w) = .instr (.read p r) →
          step s = .next (finish (acceptedState s w .read [txnRead p r]))) ∧
        (∀ p r v, decode (.word w) = .instr (.write p r v) →
          step s = .next (finish (acceptedState s w .write [txnWrite p r v]))))) ∧
    (¬ s.readyToAccept →
      step s = .next (finish { s with ctx := s.ctx.set c { s.getCtx c with held := some w } }))

/-- INIT is accepted by an idle context with no fault and a handle with a transport (R200, R201). -/
def Obligations.InitIsAccepted : Prop :=
  ∀ s : State, s.turnLegal → s.readyToAccept → (s.par.handleCfg s.inp.sel).mode ≠ .undefined →
    exec .init s = .next (acceptedState s 0x0000#16 .init (initSeq (s.par.handleCfg s.inp.sel)))

/-- READ of every port and register is accepted (R200, R204). -/
def Obligations.ReadIsAccepted : Prop :=
  ∀ (p : Port) (r : LReg) (s : State), s.turnLegal → s.readyToAccept →
    (s.par.handleCfg s.inp.sel).mode ≠ .undefined →
    exec (.read p r) s = .next (acceptedState s (Instr.read p r).word .read [txnRead p r])

/-- WRITE of every port, register and value is accepted, the read-only registers among them (R200, R205, R271). -/
def Obligations.WriteIsAccepted : Prop :=
  ∀ (p : Port) (r : LReg) (v : Byte) (s : State), s.turnLegal → s.readyToAccept →
    (s.par.handleCfg s.inp.sel).mode ≠ .undefined →
    exec (.write p r v) s = .next (acceptedState s (Instr.write p r v).word .write [txnWrite p r v])

/-- The four port wrappers are accepted with the words and transactions of READ and WRITE of GPIO. -/
def Obligations.PortWrappersAreAccepted : Prop :=
  ∀ (v : Byte) (s : State), s.turnLegal → s.readyToAccept → (s.par.handleCfg s.inp.sel).mode ≠ .undefined →
    exec .readPortA s = .next (acceptedState s 0x4900#16 .read [txnRead .A .gpio]) ∧
    exec .readPortB s = .next (acceptedState s 0x5900#16 .read [txnRead .B .gpio]) ∧
    exec (.writePortA v) s =
      .next (acceptedState s (0x8900#16 ||| v.setWidth 16) .write [txnWrite .A .gpio v]) ∧
    exec (.writePortB v) s =
      .next (acceptedState s (0x9900#16 ||| v.setWidth 16) .write [txnWrite .B .gpio v])

/-- R206 to R209: each port wrapper is exactly READ or WRITE of GPIO, in every state. -/
def Obligations.PortWrappersAreReadAndWriteOfGpio : Prop :=
  ∀ (v : Byte) (s : State),
    exec .readPortA s = exec (.read .A .gpio) s ∧ exec .readPortB s = exec (.read .B .gpio) s ∧
    exec (.writePortA v) s = exec (.write .A .gpio v) s ∧ exec (.writePortB v) s = exec (.write .B .gpio v) s ∧
    Instr.readPortA.word = 0x4900#16 ∧ Instr.readPortB.word = 0x5900#16 ∧
    (Instr.writePortA v).word = (0x8900#16 ||| v.setWidth 16) ∧
    (Instr.writePortB v).word = (0x9900#16 ||| v.setWidth 16) ∧
    resolve .bank1 .A .gpio = 0x09#8 ∧ resolve .bank0 .B .gpio = 0x13#8 ∧ resolve .bank1 .B .gpio = 0x19#8 ∧
    resolve .bank0 .A .gpio = 0x12#8

/-- A command to a handle of mode UNDEFINED is a fault at ACCEPT, before any bus event (R200, R230). -/
def Obligations.UndefinedModeFaults : Prop :=
  ∀ (s : State) (i : Instr) (w : Word16), encode i = .word w → s.turnLegal → s.readyToAccept →
    (s.par.handleCfg s.inp.sel).mode = .undefined →
    exec i s = .next (faultedState
      { s with ctx := s.ctx.set s.inp.sel { s.getCtx s.inp.sel with held := none } }
      [.accept s.inp.sel w] .modeUndefined)

/-- A command written while its context is busy or a fault is recorded is held by the interface, and nothing else
changes (R39). The interface holds no other word: a host write meanwhile is no move of the host (entry 5). -/
def Obligations.BusyContextHoldsTheWrite : Prop :=
  ∀ (s : State) (i : Instr) (w : Word16), encode i = .word w → s.turnLegal → ¬ s.readyToAccept →
    (s.getCtx s.inp.sel).held = none ∨ (s.getCtx s.inp.sel).held = some w →
    exec i s = .next { s with ctx := s.ctx.set s.inp.sel { s.getCtx s.inp.sel with held := some w } }

/-- A held write is neither lost nor queued twice: only its own acceptance or reset takes it from the interface, and a
host write to the same `CMD` meanwhile changes nothing at all. The model's reading of the second write is entry 5, of reset
entry 6; that the held word is accepted at a turn of its own is its choice (entry 24). -/
def Obligations.HeldWriteIsKept : Prop :=
  ∀ (s : State) (c : Nat) (w : Word16), Inv s → c < s.par.nCtx → (s.getCtx c).held = some w →
    (s.inp.turn = .hostWrite .cmd → s.inp.sel = c → step s = .next (finish s)) ∧
    (∀ s', step s = .next s' →
      (s'.getCtx c).held = some w ∨
      (s.inp.turn = .reset ∧ (s'.getCtx c).held = none) ∨
      (s.inp.turn = .cmdHeld ∧ s.inp.sel = c ∧ s.readyToAccept ∧ (s'.getCtx c).held = none ∧
        ∃ es, s'.trace = s.trace ++ .accept c w :: es))

/-- INITSEQ: the pulse on SPI only, port A's configuration write and its read-back, eight register writes for each port in
ascending index, never port B's configuration register nor a read-only register; 19 or 18 transactions (R202, R214). -/
def Obligations.InitSequence : Prop :=
  ∀ g : HandleCfg,
    let seq := initSeq { g with mode := .i2c }
    (g.mode = .spi → initSeq g = txnPulse :: seq) ∧ (g.mode ≠ .spi → initSeq g = seq) ∧ seq.length = 18 ∧
    txnPulse.kind = .pulse ∧ txnPulse.check = false ∧
    seq.take 2 =
      [{ kind := .reg, rw := .write, port := .A, reg := .iocon, data := g.portA.iocon, check := false },
       { kind := .reg, rw := .read, port := .A, reg := .iocon, data := 0x00#8, check := true }] ∧
    (seq.drop 2).map (fun t => (resolve g.bank t.port t.reg, t.data)) =
      portWrites g .A g.portA ++ portWrites g .B g.portB ∧
    (∀ t ∈ seq.drop 2, t.kind = .reg ∧ t.rw = .write ∧ t.check = false ∧
      t.reg ≠ .intf ∧ t.reg ≠ .intcap ∧ t.reg ≠ .iocon)

/-! ### The wire frames -/

/-- SPI_WRITE_FRAME is exchanged when it is due and the SPI master answers OK (R142, R169). -/
def Obligations.SpiWriteFrameIsSent : Prop :=
  ∀ (s : State) (t : Txn) (e : BitVec 2),
    let c := s.inp.sel
    let g := s.par.handleCfg c
    s.turnLegal → s.fault = none → (s.getCtx c).phase = .spiXfer → (s.getCtx c).cur = some t → t.rw = .write →
    g.mode = .spi → e = g.opcode.setWidth 2 → s.inp.spiSt = .ok →
    exec (.spiWriteFrame e (resolve g.bank t.port t.reg) t.data) s =
      .next { s with
        trace := s.trace ++ [.spi c [ctrl .spi g.opcode .write, resolve g.bank t.port t.reg, t.data]
          [s.inp.rx0, s.inp.rx1, s.inp.rx2] .ok]
        ctx := s.ctx.set c { s.getCtx c with phase := .waitIdlePost } }

/-- SPI_READ_FRAME is exchanged with the dummy byte 0x00, and the third received byte is kept (R144, R169). -/
def Obligations.SpiReadFrameIsSent : Prop :=
  ∀ (s : State) (t : Txn) (e : BitVec 2),
    let c := s.inp.sel
    let g := s.par.handleCfg c
    s.turnLegal → s.fault = none → (s.getCtx c).phase = .spiXfer → (s.getCtx c).cur = some t → t.rw = .read →
    g.mode = .spi → e = g.opcode.setWidth 2 → s.inp.spiSt = .ok →
    exec (.spiReadFrame e (resolve g.bank t.port t.reg)) s =
      .next { s with
        trace := s.trace ++ [.spi c [ctrl .spi g.opcode .read, resolve g.bank t.port t.reg, 0x00#8]
          [s.inp.rx0, s.inp.rx1, s.inp.rx2] .ok]
        ctx := s.ctx.set c { s.getCtx c with phase := .waitIdlePost, rdByte := some s.inp.rx2 } }

/-- I2C_WRITE_FRAME is sent to the slave address argument in one write, and the transaction goes on to its release
(R142, R172). -/
def Obligations.I2cWriteFrameIsSent : Prop :=
  ∀ (s : State) (t : Txn),
    let c := s.inp.sel
    let g := s.par.handleCfg c
    s.turnLegal → s.fault = none → (s.getCtx c).phase = .i2cWrite → (s.getCtx c).cur = some t → t.rw = .write →
    g.mode = .i2c → s.inp.i2cTxSt = .ok →
    exec (.i2cWriteFrame g.opcode (resolve g.bank t.port t.reg) t.data) s =
      .next { s with
        trace := s.trace ++ [.i2cW c (g.opcode.setWidth 8)
          [ctrl .i2c g.opcode .write, resolve g.bank t.port t.reg, t.data] .ok]
        ctx := s.ctx.set c { s.getCtx c with phase := .release } }

/-- I2C_READ_FRAME: its header is sent in the write phase, and its byte is read in the read phase from the same slave
address argument (R143, R172, R173). -/
def Obligations.I2cReadFrameIsSent : Prop :=
  ∀ (s : State) (t : Txn),
    let c := s.inp.sel
    let g := s.par.handleCfg c
    s.turnLegal → s.fault = none → (s.getCtx c).cur = some t → t.rw = .read → g.mode = .i2c →
    ((s.getCtx c).phase = .i2cWrite → s.inp.i2cTxSt = .ok →
      exec (.i2cReadFrame g.opcode (resolve g.bank t.port t.reg)) s =
        .next { s with
          trace := s.trace ++ [.i2cW c (g.opcode.setWidth 8)
            [ctrl .i2c g.opcode .read, resolve g.bank t.port t.reg] .ok]
          ctx := s.ctx.set c { s.getCtx c with phase := .i2cRead } }) ∧
    ((s.getCtx c).phase = .i2cRead → s.inp.i2cRxSt = .ok →
      exec (.i2cReadFrame g.opcode (resolve g.bank t.port t.reg)) s =
        .next { s with
          trace := s.trace ++ [.i2cR c (g.opcode.setWidth 8) s.inp.i2cRxByte .ok]
          ctx := s.ctx.set c { s.getCtx c with phase := .release, rdByte := some s.inp.i2cRxByte } })

/-- A frame that is not due for the context of the turn has no effect (R164; entry 8). -/
def Obligations.FrameNotDueHasNoEffect : Prop :=
  ∀ (s : State) (i : Instr), (∀ w, encode i ≠ .word w) → s.turnLegal → dueFrame s s.inp.sel ≠ some (encode i) →
    exec i s = .next s

/-- R231, for the six transport causes: the event of the failed call stands, the fault record keeps cause, context,
handle and phase, and nothing else changes: the lock, the chip-selects, the phase and the read byte stay (R235). -/
def Obligations.TransportFaultIsTaken : Prop :=
  ∀ (s : State) (t : Txn),
    let c := s.inp.sel
    let g := s.par.handleCfg c
    s.inp.turn = .context → s.turnLegal → s.fault = none → (s.getCtx c).cur = some t →
    ((s.getCtx c).phase = .spiXfer → g.mode = .spi →
      (s.inp.spiSt = .error → step s = .next (finish (faultedState s
        [.spi c (spiTx (txnFrame g t) t.rw) [s.inp.rx0, s.inp.rx1, s.inp.rx2] .error] .spiXferError))) ∧
      (s.inp.spiSt = .timeout → step s = .next (finish (faultedState s
        [.spi c (spiTx (txnFrame g t) t.rw) [s.inp.rx0, s.inp.rx1, s.inp.rx2] .timeout] .spiXferTimeout)))) ∧
    ((s.getCtx c).phase = .i2cWrite → g.mode = .i2c →
      (s.inp.i2cTxSt = .error → step s = .next (finish (faultedState s
        [.i2cW c (sla g.opcode) (txnFrame g t) .error] .i2cTxError))) ∧
      (s.inp.i2cTxSt = .timeout → step s = .next (finish (faultedState s
        [.i2cW c (sla g.opcode) (txnFrame g t) .timeout] .i2cTxTimeout)))) ∧
    ((s.getCtx c).phase = .i2cRead → g.mode = .i2c → t.rw = .read →
      (s.inp.i2cRxSt = .error → step s = .next (finish (faultedState s
        [.i2cR c (sla g.opcode) s.inp.i2cRxByte .error] .i2cRxError))) ∧
      (s.inp.i2cRxSt = .timeout → step s = .next (finish (faultedState s
        [.i2cR c (sla g.opcode) s.inp.i2cRxByte .timeout] .i2cRxTimeout))))

/-! ### The sequencer -/

/-- Any context in LOCK_WAIT takes the lock when it is free (R166). While it is held the context has no step; that its turn
then changes nothing is the model's reading (entry 3). -/
def Obligations.LockWaitStep : Prop :=
  ∀ s : State, s.contextTurn .lockWait →
    let c := s.inp.sel
    (s.lock = none →
      step s = .next (finish { s with
        lock := some c
        trace := s.trace ++ [.lock c]
        ctx := s.ctx.set c { s.getCtx c with
          phase := if (s.par.handleCfg c).mode = .spi then .csAssert else .i2cWrite } })) ∧
    (s.lock ≠ none → step s = .next (finish s))

/-- R167: the handle's line is asserted; a PULSE goes straight to CS_DEASSERT. -/
def Obligations.CsAssertStep : Prop :=
  ∀ (s : State) (t : Txn), s.contextTurn .csAssert → (s.getCtx s.inp.sel).cur = some t →
    let c := s.inp.sel
    let l := (s.par.handleCfg c).csLine
    step s = .next (finish { s with
      cs := s.cs.set l true
      trace := s.trace ++ [.cs c l true]
      ctx := s.ctx.set c { s.getCtx c with
        phase := if t.kind = .pulse then .csDeassert else .waitIdlePre } })

/-- The two idle waits go on when `spiBusy` is false (R168, R170). While it is true the context has no step, for ever if need
be, and no fault is raised; that its turn then changes nothing is the model's reading (entry 3). -/
def Obligations.WaitIdleSteps : Prop :=
  ∀ (s : State) (ph next : Phase),
    ((ph = .waitIdlePre ∧ next = .spiXfer) ∨ (ph = .waitIdlePost ∧ next = .csDeassert)) → s.contextTurn ph →
    let c := s.inp.sel
    (s.spiBusy = false →
      step s = .next (finish { s with ctx := s.ctx.set c { s.getCtx c with phase := next } })) ∧
    (s.spiBusy = true → step s = .next (finish s))

/-- R171: the handle's line is deasserted, after an exchange and after a pulse. -/
def Obligations.CsDeassertStep : Prop :=
  ∀ s : State, s.contextTurn .csDeassert →
    let c := s.inp.sel
    let l := (s.par.handleCfg c).csLine
    step s = .next (finish { s with
      cs := s.cs.set l false
      trace := s.trace ++ [.cs c l false]
      ctx := s.ctx.set c { s.getCtx c with phase := .release } })

/-- R174: the lock is released, INIT's test is recorded, and the next transaction starts or the command completes; a
READ then has its byte and an INIT its test result, in every state of the invariant. -/
def Obligations.ReleaseStep : Prop :=
  ∀ (s : State) (t : Txn), s.ctx.length = s.par.nCtx → s.contextTurn .release →
    (s.getCtx s.inp.sel).cur = some t →
    let c := s.inp.sel
    let C := s.getCtx c
    let ok := if t.check = true then some (C.rdByte == some (s.par.handleCfg c).portA.iocon) else C.initOk
    (∀ n rest, C.pending = n :: rest →
      step s = .next (finish { s with
        lock := none
        trace := s.trace ++ [.unlock c]
        ctx := s.ctx.set c { C with initOk := ok, cur := some n, pending := rest, phase := .lockWait } })) ∧
    (C.pending = [] → C.cmd = some .read →
      step s = .next (finish { s with
        lock := none
        trace := s.trace ++ [.unlock c, .respond c .read (respByte C.rdByte)]
        ctx := s.ctx.set c { C with initOk := ok, rspData := C.rdByte, cur := none, phase := .idle } })) ∧
    (C.pending = [] → C.cmd = some .write →
      step s = .next (finish { s with
        lock := none
        trace := s.trace ++ [.unlock c, .respond c .write .none]
        ctx := s.ctx.set c { C with initOk := ok, cur := none, phase := .idle } })) ∧
    (C.pending = [] → C.cmd = some .init →
      step s = .next (finish { s with
        lock := none
        trace := s.trace ++ [.unlock c, .respond c .init (respBool ok)]
        ctx := s.ctx.set c { C with initOk := ok, rspOk := ok, cur := none, phase := .idle } })) ∧
    (Inv s → C.pending = [] → (C.cmd = some .read → C.rdByte ≠ none) ∧ (C.cmd = some .init → ok ≠ none))

/-- An idle context has no step of its own; the turn changes nothing (R180; entry 3). -/
def Obligations.IdleContextHasNoStep : Prop :=
  ∀ s : State, s.inp.turn = .context → s.turnLegal → (s.getCtx s.inp.sel).phase = .idle →
    step s = .next (finish s)

/-- A turn of one context leaves every other context as it was (R244). -/
def Obligations.OtherContextsUntouched : Prop :=
  ∀ (s s' : State) (d : Nat), s.inp.turn ≠ .reset → step s = .next s' → d ≠ s.inp.sel →
    s'.getCtx d = s.getCtx d

/-- R181: the SPI master sets `spiBusy` to any value at any step; that is all its move does, and no other move does
it. -/
def Obligations.SpiMasterTurn : Prop :=
  (∀ s : State, s.inp.turn = .spiMaster → step s = .next (finish { s with spiBusy := s.inp.busy })) ∧
  (∀ s s' : State, s.inp.turn ≠ .spiMaster → step s = .next s' → s'.spiBusy = s.spiBusy)

/-! ### Host registers -/

/-- R42: the fields of CTX_STATUS with the phase codes of R34, its reset value, and that a write changes nothing. -/
def Obligations.CtxStatusFields : Prop :=
  (∀ (s : State) (c : Nat),
    ((s.ctxStatus c).getLsbD 0 = true ↔ (s.getCtx c).phase ≠ .idle) ∧
    ((s.ctxStatus c).getLsbD 1 = true ↔ (s.getCtx c).rspData ≠ none) ∧
    ((s.ctxStatus c).getLsbD 2 = true ↔ (s.getCtx c).rspOk ≠ none) ∧
    ((s.ctxStatus c).getLsbD 3 = true ↔ (s.getCtx c).rspOk = some true) ∧
    (s.ctxStatus c).extractLsb' 4 4 = (s.getCtx c).phase.code) ∧
  [Phase.idle, .lockWait, .csAssert, .waitIdlePre, .spiXfer, .waitIdlePost, .csDeassert, .i2cWrite, .i2cRead,
    .release].map Phase.code = [0#4, 1#4, 2#4, 3#4, 4#4, 5#4, 6#4, 7#4, 8#4, 9#4] ∧
  (∀ p busy c, (State.resetOf p busy).ctxStatus c = 0x00#8) ∧
  (∀ s : State, s.turnLegal → s.inp.turn = .hostWrite .ctxStatus → step s = .next (finish s))

/-- R43: the fields of FAULT_STATUS with the cause codes of R230 and the phase codes of R34, its reset value, that a write
changes nothing, and that only reset clears it. -/
def Obligations.FaultStatusFields : Prop :=
  (∀ (s : State),
    ((s.faultStatus).getLsbD 0 = true ↔ s.fault ≠ none) ∧
    (s.fault = none → s.faultStatus = 0x0000#16) ∧
    (∀ f, s.fault = some f → (s.faultStatus).extractLsb' 1 4 = f.cause.code ∧
      (s.faultStatus).extractLsb' 8 4 = f.phase.code) ∧
    (s.faultStatus).extractLsb' 5 3 = 0#3 ∧ (s.faultStatus).extractLsb' 12 4 = 0#4) ∧
  [Cause.spiXferError, .spiXferTimeout, .i2cTxError, .i2cTxTimeout, .i2cRxError, .i2cRxTimeout, .modeUndefined,
    .illegalCmd].map Cause.code = [1#4, 2#4, 3#4, 4#4, 5#4, 6#4, 7#4, 8#4] ∧
  [Phase.idle, .lockWait, .csAssert, .waitIdlePre, .spiXfer, .waitIdlePost, .csDeassert, .i2cWrite, .i2cRead,
    .release].map Phase.code = [0#4, 1#4, 2#4, 3#4, 4#4, 5#4, 6#4, 7#4, 8#4, 9#4] ∧
  (∀ p busy, (State.resetOf p busy).faultStatus = 0x0000#16) ∧
  (∀ s : State, s.inp.turn = .hostWrite .faultStatus → step s = .next (finish s)) ∧
  (∀ s s' : State, s.fault ≠ none → s.inp.turn ≠ .reset → step s = .next s' → s'.faultStatus = s.faultStatus)

/-- R44 and R45, within their requirement of at most 256 contexts and handles; R36; and that a host write to either register
changes nothing (treatment I21; entry 11). -/
def Obligations.FaultCtxAndDevAndEscalate : Prop :=
  (∀ p busy, (State.resetOf p busy).faultCtx = 0x00#8 ∧ (State.resetOf p busy).faultDev = 0x00#8 ∧
    (State.resetOf p busy).escalate = false) ∧
  (∀ s : State, s.fault = none → s.faultCtx = 0x00#8 ∧ s.faultDev = 0x00#8) ∧
  (∀ (s : State) (f : FaultRec), Inv s → s.fault = some f →
    (s.par.nCtx ≤ 256 → s.faultCtx.toNat = f.ctx) ∧ (s.par.nDev ≤ 256 → s.faultDev.toNat = f.dev)) ∧
  (∀ s : State, s.escalate = true ↔ s.fault ≠ none) ∧
  (∀ s : State, s.inp.turn = .hostWrite .faultCtx ∨ s.inp.turn = .hostWrite .faultDev → step s = .next (finish s))

/-- A host read returns the register and changes nothing in the block; `CMD`, and a response register before its first
value, return no value (R39, R40, R41; entry 15). -/
def Obligations.HostReads : Prop :=
  (∀ (s : State) (r : HostReg), s.turnLegal → s.inp.turn = .hostRead r →
    step s = .next (finish { s with readData := s.readReg s.inp.sel r })) ∧
  (∀ (s : State) (c : Nat),
    s.readReg c .cmd = none ∧
    s.readReg c .rspData = (s.getCtx c).rspData.map (fun b => b.setWidth 16) ∧
    s.readReg c .rspOk = (s.getCtx c).rspOk.map (fun b => if b then 1#16 else 0#16) ∧
    s.readReg c .ctxStatus = some ((s.ctxStatus c).setWidth 16) ∧
    s.readReg c .faultStatus = some s.faultStatus ∧
    s.readReg c .faultCtx = some (s.faultCtx.setWidth 16) ∧
    s.readReg c .faultDev = some (s.faultDev.setWidth 16))

/-- The response registers are written only when a command of their kind completes: RSP_DATA in the RELEASE of a READ,
RSP_OK in the RELEASE of an INIT; their valid flags stay set until reset (R40, R41, R47). A host write to either changes
nothing (treatment I21; entry 11). -/
def Obligations.ResponseRegistersChangeOnlyAtCompletion : Prop :=
  (∀ (s s' : State) (c : Nat), s.inp.turn ≠ .reset → step s = .next s' →
    ((s'.getCtx c).rspData ≠ (s.getCtx c).rspData →
      (s.getCtx c).phase = .release ∧ (s.getCtx c).cmd = some .read ∧ (s'.getCtx c).phase = .idle ∧
        (s'.getCtx c).rspData = (s.getCtx c).rdByte) ∧
    ((s'.getCtx c).rspOk ≠ (s.getCtx c).rspOk →
      (s.getCtx c).phase = .release ∧ (s.getCtx c).cmd = some .init ∧ (s'.getCtx c).phase = .idle ∧
        (s'.getCtx c).rspOk = (s'.getCtx c).initOk) ∧
    (Inv s → (s.getCtx c).rspData ≠ none → (s'.getCtx c).rspData ≠ none) ∧
    (Inv s → (s.getCtx c).rspOk ≠ none → (s'.getCtx c).rspOk ≠ none)) ∧
  (∀ s : State, s.turnLegal → s.inp.turn = .hostWrite .rspData ∨ s.inp.turn = .hostWrite .rspOk →
    step s = .next (finish s))

/-! ### Faults and reset -/

/-- While a fault is recorded nothing of the block moves but by reset: lock, chip-selects, fault record, trace and every
context stay, but for a `CMD` write that the interface holds; only the SPI master moves `spiBusy` (R232, R234, R235). -/
def Obligations.FaultHaltsTheBlock : Prop :=
  ∀ s s' : State, s.fault ≠ none → s.inp.turn ≠ .reset → step s = .next s' →
    s'.fault = s.fault ∧ s'.lock = s.lock ∧ s'.cs = s.cs ∧ s'.trace = s.trace ∧ s'.par = s.par ∧
    (s'.spiBusy ≠ s.spiBusy → s.inp.turn = .spiMaster) ∧
    (∀ c, { s'.getCtx c with held := (s.getCtx c).held } = s.getCtx c) ∧
    (∀ c, (s'.getCtx c).held = (s.getCtx c).held ∨ s.inp.turn = .hostWrite .cmd)

/-- R260: reset is a host step at any time, also during a transaction and while a fault is recorded; it sets every piece
of block state to its reset value and leaves the parameters and the external input. -/
def Obligations.ResetStep : Prop :=
  ∀ s : State, s.inp.turn = .reset → ∃ s', step s = .next s' ∧
    s'.lock = none ∧ s'.cs = List.replicate s.par.nCs false ∧ s'.ctx.length = s.par.nCtx ∧
    (∀ c, (s'.getCtx c).phase = .idle ∧ (s'.getCtx c).cmd = none ∧ (s'.getCtx c).cur = none ∧
      (s'.getCtx c).pending = [] ∧ (s'.getCtx c).rdByte = none ∧ (s'.getCtx c).initOk = none ∧
      (s'.getCtx c).rspData = none ∧ (s'.getCtx c).rspOk = none) ∧
    s'.fault = none ∧ s'.escalate = false ∧ s'.trace = [] ∧ s'.par = s.par ∧ s'.spiBusy = s.spiBusy

/-- Only a step that raises a fault sets the record, and only reset clears it (R35, R234). -/
def Obligations.FaultIsSetOnceAndClearedByReset : Prop :=
  ∀ s s' : State, step s = .next s' → s'.fault ≠ s.fault →
    (s.inp.turn = .reset ∧ s'.fault = none) ∨
    (s.fault = none ∧ ∃ k, s'.fault = some
        { cause := k, ctx := s.inp.sel, dev := s.par.handle s.inp.sel, phase := (s.getCtx s.inp.sel).phase } ∧
      ∃ es, s'.trace = s.trace ++ es ++ [.fault s.inp.sel k])

/-! ### Invariants and laws -/

/-- The block right after reset satisfies the invariant, for all parameters that R6, R27 and R29 admit. -/
def Obligations.InvariantAtReset : Prop :=
  ∀ (p : Params) (busy : Bool), p.WellFormed → Inv (State.resetOf p busy)

/-- Every step keeps the invariant of the block: the parameters, the lock and the phases (R175), the chip-selects
(R177), the shape of every command (R174), the fault record (R235). -/
def Obligations.InvariantKept : Prop :=
  ∀ s s' : State, Inv s → step s = .next s' → Inv s'

/-- From a state of the invariant whose turn names a context that exists, the machine never stops, and the next turn
again names one: no instruction, word or register access ends a run. That the next turn names a context that exists is the
model's choice (entry 4), and so is that a read which returns no value does not stop it (entry 15). -/
def Obligations.MachineNeverStops : Prop :=
  ∀ s : State, Inv s → s.turnLegal → ∃ s', step s = .next s' ∧ s'.turnLegal

/-- R28: no step writes the configuration. -/
def Obligations.ConfigurationIsConstant : Prop :=
  ∀ s s' : State, step s = .next s' → s'.par = s.par

/-- R175 in every state that any schedule reaches: the lock is held by s exactly in the eight phases, so at most one
context is in any of them, and only steps in those phases emit `Cs`, `Spi`, `I2cW` and `I2cR` events. -/
def Obligations.MutualExclusion : Prop :=
  ∀ (p : Params) (s : State), p.WellFormed → Reachable p s →
    (∀ c < p.nCtx, (s.lock = some c ↔
      (s.getCtx c).phase = .csAssert ∨ (s.getCtx c).phase = .waitIdlePre ∨ (s.getCtx c).phase = .spiXfer ∨
      (s.getCtx c).phase = .waitIdlePost ∨ (s.getCtx c).phase = .csDeassert ∨ (s.getCtx c).phase = .i2cWrite ∨
      (s.getCtx c).phase = .i2cRead ∨ (s.getCtx c).phase = .release)) ∧
    (∀ c < p.nCtx, ∀ d < p.nCtx, (s.getCtx c).phase.holdsLock = true → (s.getCtx d).phase.holdsLock = true → c = d) ∧
    (∀ (i : Inputs) (s' : State), step (s.present i) = .next s' →
      ∀ e ∈ s'.trace.drop s.trace.length,
        (∃ c l v, e = .cs c l v) ∨ (∃ c tx rx st, e = .spi c tx rx st) ∨ (∃ c a bs st, e = .i2cW c a bs st) ∨
          (∃ c a b st, e = .i2cR c a b st) →
        (s.getCtx e.context).phase.holdsLock = true)

/-- R177 in every state that any schedule reaches: a line is asserted exactly while the lock holder is in the four
phases and the line is its handle's, so at most one line is asserted; every exchange lies between an assertion and the
next deassertion of its own context's line; after a fault the lines are frozen. -/
def Obligations.ChipSelectFraming : Prop :=
  ∀ (p : Params) (s : State), p.WellFormed → Reachable p s →
    (∀ l < p.nCs, (s.getCs l = true ↔ ∃ c, s.lock = some c ∧ (p.handleCfg c).csLine = l ∧
      ((s.getCtx c).phase = .waitIdlePre ∨ (s.getCtx c).phase = .spiXfer ∨ (s.getCtx c).phase = .waitIdlePost ∨
       (s.getCtx c).phase = .csDeassert))) ∧
    (∀ l < p.nCs, ∀ m < p.nCs, s.getCs l = true → s.getCs m = true → l = m) ∧
    ExchangesFramed s.trace ∧
    (∀ (i : Inputs) (s' : State), s.fault ≠ none → i.turn ≠ .reset → step (s.present i) = .next s' → s'.cs = s.cs)

/-- R68 in every state that any schedule reaches: between a context's `Lock` and its `Unlock` the trace holds no bus
event of another context. -/
def Obligations.TransactionsAreAtomic : Prop :=
  ∀ (p : Params) (s : State), p.WellFormed → Reachable p s → AtomicTrace s.trace

/-- No retry (R176, R232): in every state that any schedule reaches, a transport call that did not answer OK is followed
on the trace by its `Fault` event and by nothing else, and a `Fault` event is the last. -/
def Obligations.NoRetry : Prop :=
  ∀ (p : Params) (s : State), p.WellFormed → Reachable p s →
    (∀ before e after, s.trace = before ++ e :: after → e.failed = true →
      ∃ k, after = [.fault e.context k] ∧ s.fault ≠ none) ∧
    (∀ before c k after, s.trace = before ++ .fault c k :: after → after = [])

/-- R178: the events of one transaction run alone, with every answer OK and the SPI master idle, and its number of
context steps. The command's last transaction is followed by `Respond` in the same step. -/
def Obligations.TransactionTrace : Prop :=
  ∀ (s : State) (c : Nat) (t : Txn) (as : List Inputs), Inv s → c < s.par.nCtx → s.fault = none → s.lock = none →
    s.spiBusy = false → (s.getCtx c).phase = .lockWait → (s.getCtx c).cur = some t →
    as.length = transactionSteps (s.par.handleCfg c).mode t → (∀ a ∈ as, a.allOk) →
    ∃ s' rx b rs, runContext c as s = .next s' ∧
      s'.trace = s.trace ++ transactionEvents (s.par.handleCfg c) c t rx b ++ rs ∧
      s'.lock = none ∧ s'.fault = none ∧
      ((s.getCtx c).pending ≠ [] → rs = [] ∧ (s'.getCtx c).phase = .lockWait ∧
        (s'.getCtx c).cur = (s.getCtx c).pending.head? ∧ (s'.getCtx c).pending = (s.getCtx c).pending.tail) ∧
      ((s.getCtx c).pending = [] → (s'.getCtx c).phase = .idle ∧
        ∃ k v, (s.getCtx c).cmd = some k ∧ rs = [.respond c k v])

/-- READ and WRITE run to completion alone: a READ's response is the byte of its own transaction (R78, R204), a WRITE's
response has no value and no response register changes (R205). -/
def Obligations.ReadAndWriteComplete : Prop :=
  ∀ (s : State) (c : Nat) (as : List Inputs) (p : Port) (r : LReg) (v : Byte),
    let m := (s.par.handleCfg c).mode
    Inv s → c < s.par.nCtx → s.fault = none → s.lock = none → s.spiBusy = false → (s.getCtx c).phase = .idle →
    (s.getCtx c).held = none → m ≠ .undefined → (∀ a ∈ as, a.allOk) →
    (as.length = transactionSteps m (txnRead p r) →
      ∃ s₁ s', step (s.present (cmdTurn c (Instr.read p r).word)) = .next s₁ ∧ runContext c as s₁ = .next s' ∧
        (s'.getCtx c).phase = .idle ∧ (s'.getCtx c).rspData = some (readAnswer m as) ∧
        (s'.getCtx c).rspOk = (s.getCtx c).rspOk ∧ s'.lock = none ∧ s'.fault = none ∧
        s'.trace.getLast? = some (.respond c .read (.byte (readAnswer m as)))) ∧
    (as.length = transactionSteps m (txnWrite p r v) →
      ∃ s₁ s', step (s.present (cmdTurn c (Instr.write p r v).word)) = .next s₁ ∧ runContext c as s₁ = .next s' ∧
        (s'.getCtx c).phase = .idle ∧ (s'.getCtx c).rspData = (s.getCtx c).rspData ∧
        (s'.getCtx c).rspOk = (s.getCtx c).rspOk ∧ s'.lock = none ∧ s'.fault = none ∧
        s'.trace.getLast? = some (.respond c .write .none))

/-- INIT run alone with every answer OK and the SPI master idle: it completes; the writes on the bus are port A's
configuration and the sixteen port registers in order, whatever the read-back returned (R212); RSP_OK is 1 exactly when
the read-back byte equals port A's configuration value, whatever else was received (R211). -/
def Obligations.InitRuns : Prop :=
  ∀ (s : State) (c : Nat) (as : List Inputs),
    let g := s.par.handleCfg c
    Inv s → c < s.par.nCtx → s.fault = none → s.lock = none → s.spiBusy = false → (s.getCtx c).phase = .idle →
    (s.getCtx c).held = none → g.mode ≠ .undefined → as.length = initSteps g.mode → (∀ a ∈ as, a.allOk) →
    ∃ s₁ s' es, step (s.present (cmdTurn c 0x0000#16)) = .next s₁ ∧ runContext c as s₁ = .next s' ∧
      s'.trace = s.trace ++ es ∧
      registerWrites es =
        (resolve g.bank .A .iocon, g.portA.iocon) :: (portWrites g .A g.portA ++ portWrites g .B g.portB) ∧
      (s'.getCtx c).phase = .idle ∧ s'.fault = none ∧ s'.lock = none ∧
      (s'.getCtx c).rspOk = some (initReadBack g.mode as == g.portA.iocon) ∧
      (s'.getCtx c).rspData = (s.getCtx c).rspData ∧
      s'.trace.getLast? = some (.respond c .init (.bool (initReadBack g.mode as == g.portA.iocon)))

/-- The round-trip law R213 for one context alone on the loopback fixture: WRITE p, r, v, then READ p, r, leaves
RSP_DATA = v, under either bank, on either bus, for every register. Where several handles share a line or an opcode, which
I24 leaves open, the device is the fixture's choice (entry 23). -/
def Obligations.LoopbackRoundTrip : Prop :=
  ∀ (b : Bench) (c : Nat) (p : Port) (r : LReg) (v : Byte),
    Inv b.st → b.dev.mem.length = b.st.par.nDev → b.dev.ptr.length = b.st.par.nDev →
    (∀ m ∈ b.dev.mem, m.wf) →
    c < b.st.par.nCtx → b.st.fault = none → b.st.lock = none → b.st.spiBusy = false →
    (b.st.getCtx c).phase = .idle → (b.st.getCtx c).held = none → (b.st.par.handleCfg c).mode ≠ .undefined →
    let b' := benchTransaction c (.read p r) (txnRead p r)
      (benchTransaction c (.write p r v) (txnWrite p r v) b)
    (b'.st.getCtx c).rspData = some v ∧ b'.st.fault = none ∧ (b'.st.getCtx c).phase = .idle

/-- What one step does to the fixture's devices: a due write frame stores its byte at its address in the one device it
goes to, and every other device stays as it was; a step changes no byte of any device but so. A read's header sets the
register pointer of its device, and nothing else sets one (R84, R213). Where several handles share a line or an opcode,
which I24 leaves open, the device is the fixture's choice (entry 23). -/
def Obligations.LoopbackStoresOnlyWhatIsWritten : Prop :=
  ∀ (b : Bench) (c : Nat), Inv b.st → c < b.st.par.nCtx → (∀ m ∈ b.dev.mem, m.wf) →
    b.dev.mem.length = b.st.par.nDev → b.dev.ptr.length = b.st.par.nDev →
    (∀ d a, memRead ((devicesAfter b c).getMem d) a ≠ memRead (b.dev.getMem d) a →
      ∃ k x v, (dueFrame b.st c = some (.spi [k, x, v]) ∨ dueFrame b.st c = some (.i2c [k, x, v])) ∧
        k.getLsbD 0 = false ∧ x.toNat = a ∧ memRead ((devicesAfter b c).getMem d) a = v) ∧
    (∀ k x v d, k.getLsbD 0 = false →
      (dueFrame b.st c = some (.spi [k, x, v]) ∧ spiDevice b.st = some d) ∨
      (dueFrame b.st c = some (.i2c [k, x, v]) ∧
        i2cDevice b.st (sla (b.st.par.handleCfg c).opcode) = some d) →
      memRead ((devicesAfter b c).getMem d) x.toNat = v ∧
      (∀ e, e ≠ d → (devicesAfter b c).getMem e = b.dev.getMem e) ∧ (devicesAfter b c).ptr = b.dev.ptr) ∧
    (∀ k x d, (b.st.getCtx c).phase = .i2cWrite → dueFrame b.st c = some (.i2c [k, x]) →
      i2cDevice b.st (sla (b.st.par.handleCfg c).opcode) = some d →
      (devicesAfter b c).getPtr d = x ∧ (∀ e, e ≠ d → (devicesAfter b c).getPtr e = b.dev.getPtr e) ∧
      (devicesAfter b c).mem = b.dev.mem) ∧
    ((devicesAfter b c).ptr ≠ b.dev.ptr → (b.st.getCtx c).phase = .i2cWrite ∧
      ∃ k x, dueFrame b.st c = some (.i2c [k, x])) ∧
    ((b.st.getCtx c).phase = .spiXfer → b.st.fault = none → ∃ d, spiDevice b.st = some d) ∧
    ((b.st.getCtx c).phase = .i2cWrite →
      ∃ d, i2cDevice b.st (sla (b.st.par.handleCfg c).opcode) = some d)
end

