-- ==== Sys2Proof/Laws/Assembler.lean ====
section
/-! SUPPORT. For each function of the assembler, once, the part of the grammar that it reads. -/

namespace Sys2Proof.Machine

/-- The assembler's upper case is the library's. -/
theorem upper_eq_toUpper (c : Char) : upper c = c.toUpper := by
  unfold upper Char.toUpper
  by_cases h : 'a'.toNat ≤ c.toNat ∧ c.toNat ≤ 'z'.toNat
  · have h' : 'a'.val ≤ c.val ∧ c.val ≤ 'z'.val := h
    rw [if_pos h, dif_pos h']
    have h1 : 97 ≤ c.toNat := h.1
    have h2 : c.toNat ≤ 122 := h.2
    obtain ⟨n, hn⟩ : ∃ n, c.toNat = n := ⟨_, rfl⟩
    have hc : c = Char.ofNat n := by rw [← hn]; exact (Char.ofNat_toNat c).symm
    rw [hn] at h1 h2
    subst hc
    interval_cases n <;> rfl
  · have h' : ¬ ('a'.val ≤ c.val ∧ c.val ≤ 'z'.val) := h
    rw [if_neg h, dif_neg h']

/-- A mnemonic, in letters of either case. -/
theorem isWord_iff (t : List Char) (w : String) : isWord t w.toList = true ↔ SpellsWord t w := by
  have h : t.map upper = t.map Char.toUpper := List.map_congr_left fun c _ => upper_eq_toUpper c
  simp [isWord, SpellsWord, h]

/-- A decimal digit. -/
theorem digit?_eq_some_iff (c : Char) (d : Nat) : digit? c = some d ↔ c.isDigit = true ∧ d = c.toNat - 48 := by
  have hd : c.isDigit = true ↔ 48 ≤ c.toNat ∧ c.toNat ≤ 57 := by
    simp only [Char.isDigit, Bool.and_eq_true, decide_eq_true_eq]
    exact Iff.rfl
  rw [hd]
  unfold digit?
  show (if 48 ≤ c.toNat ∧ c.toNat ≤ 57 then some (c.toNat - 48) else none) = some d ↔ _
  by_cases h : 48 ≤ c.toNat ∧ c.toNat ≤ 57
  · rw [if_pos h, Option.some.injEq]
    exact ⟨fun e => ⟨h, e.symm⟩, fun e => e.2.symm⟩
  · rw [if_neg h]
    exact ⟨(nomatch ·), fun e => absurd e.1 h⟩

/-- A row of decimal digits after the value n. -/
theorem decimalFrom_eq_some_iff (n m : Nat) (cs : List Char) :
    decimalFrom n cs = some m ↔
      (∀ c ∈ cs, c.isDigit = true) ∧ cs.foldl (fun m c => 10 * m + (c.toNat - 48)) n = m := by
  induction cs generalizing n with
  | nil => simp [decimalFrom]
  | cons c cs ih =>
    cases h : digit? c with
    | none =>
      have hc : c.isDigit ≠ true := fun hc => by
        have := (digit?_eq_some_iff c _).2 ⟨hc, rfl⟩
        simp [h] at this
      simp [decimalFrom, h, hc]
    | some d =>
      obtain ⟨hc, rfl⟩ := (digit?_eq_some_iff c d).1 h
      simp [decimalFrom, h, hc, ih]

/-- A decimal number. -/
theorem decimal?_eq_some_iff (t : List Char) (n : Nat) : decimal? t = some n ↔ SpellsDecimal t n := by
  cases t with
  | nil => simp [decimal?, SpellsDecimal]
  | cons c cs =>
    rw [decimal?, decimalFrom_eq_some_iff]
    · simp [SpellsDecimal]
    · simp

/-- The value of a hexadecimal digit is below 16. -/
theorem SpellsHex.lt {c : Char} {a : Nat} (h : SpellsHex c a) : a < 16 := by
  rcases h with h | h <;> exact (List.getElem?_eq_some_iff.1 h).1

/-- A hexadecimal digit. -/
theorem hexDigit?_eq_some_iff (c : Char) (a : Nat) : hexDigit? c = some a ↔ SpellsHex c a := by
  constructor
  · intro h
    obtain ⟨n, hn⟩ : ∃ n, c.toNat = n := ⟨_, rfl⟩
    have hc : c = Char.ofNat n := by rw [← hn]; exact (Char.ofNat_toNat c).symm
    have hr : (48 ≤ n ∧ n ≤ 57) ∨ (65 ≤ n ∧ n ≤ 70) ∨ (97 ≤ n ∧ n ≤ 102) := by
      rw [← hn]
      by_contra hno
      have h1 : ¬ (97 ≤ c.toNat ∧ c.toNat ≤ 102) := by tauto
      have h2 : ¬ (65 ≤ c.toNat ∧ c.toNat ≤ 70) := by tauto
      have h3 : ¬ (48 ≤ c.toNat ∧ c.toNat ≤ 57) := by tauto
      have hnone : hexDigit? c = none := (if_neg h1).trans ((if_neg h2).trans (if_neg h3))
      rw [hnone] at h
      cases h
    have e : a = (hexDigit? c).getD 0 := by rw [h]; rfl
    subst hc e
    rcases hr with hr | hr | hr <;> obtain ⟨hl, hu⟩ := hr <;> interval_cases n <;>
      first | exact .inl rfl | exact .inr rfl
  · intro h
    have ha := h.lt
    rcases h with h | h <;> interval_cases a <;> obtain rfl := Option.some.inj h <;> rfl

/-- An immediate. -/
theorem imm8?_eq_some_iff (t : List Char) (v : Byte) : imm8? t = some v ↔ SpellsImm t v := by
  unfold imm8?
  split
  · next h l =>
    have hx : ¬ SpellsDecimal ['0', 'x', h, l] v.toNat := fun hd => by
      have := hd.2.1 'x' (by simp)
      revert this; decide
    simp only [SpellsImm, hx, or_false]
    constructor
    · split
      · next a b ha hb =>
        intro hv
        rw [Option.some.injEq] at hv
        have ha := (hexDigit?_eq_some_iff _ _).1 ha
        have hb := (hexDigit?_eq_some_iff _ _).1 hb
        have := ha.lt
        have := hb.lt
        exact ⟨h, l, a, b, rfl, ha, hb, by rw [← hv, BitVec.toNat_ofNat]; omega⟩
      · simp
    · rintro ⟨h', l', a, b, ht, ha, hb, hv⟩
      simp only [List.cons.injEq, and_true, true_and] at ht
      obtain ⟨rfl, rfl⟩ := ht
      rw [(hexDigit?_eq_some_iff _ _).2 ha, (hexDigit?_eq_some_iff _ _).2 hb]
      exact congrArg some (by rw [← hv]; simp)
  · next hne =>
    have hx : ¬ ∃ h l a b, t = ['0', 'x', h, l] ∧ SpellsHex h a ∧ SpellsHex l b ∧ v.toNat = 16 * a + b := by
      rintro ⟨h, l, a, b, ht, -⟩
      exact hne h l ht
    simp only [SpellsImm, hx, false_or, ← decimal?_eq_some_iff]
    cases decimal? t with
    | none => simp
    | some n =>
      dsimp only
      split
      · next hn =>
        simp only [Option.some.injEq]
        constructor
        · rintro rfl; simp; omega
        · rintro rfl; simp
      · next hn =>
        simp only [reduceCtorEq, false_iff, Option.some.injEq]
        have := v.isLt
        omega

/-- A port. -/
theorem port?_eq_some_iff (t : List Char) (p : Port) : port? t = some p ↔ SpellsPort t p := by
  have h : t.map upper = t.map Char.toUpper := List.map_congr_left fun c _ => upper_eq_toUpper c
  unfold port?
  rw [h]
  cases p <;> simp only [SpellsPort, SpellsWord] <;> clear h <;> generalize t.map Char.toUpper = u
  · show _ ↔ u = ['A']
    split <;> simp_all
  · show _ ↔ u = ['B']
    split <;> simp_all

/-- The assembler's table of register names is the grammar's. -/
theorem regNames_lookup (u : List Char) (r : LReg) : regNames.lookup u = some r ↔ u = (regName r).toList := by
  constructor
  · intro h
    have key : ∀ x ∈ regNames, (regName x.2).toList = x.1 := by decide
    obtain ⟨l, r', hl, hm⟩ := List.lookup_eq_some_iff.1 h
    have := key (u, r) (by rw [hl]; simp)
    exact this.symm
  · rintro rfl
    cases r <;> rfl

/-- A register. -/
theorem reg?_eq_some_iff (t : List Char) (r : LReg) : reg? t = some r ↔ SpellsReg t r := by
  have hidx : ∀ n ≤ 10, (LReg.ofIndex (BitVec.ofNat 4 n) = some r ↔ r.index.toNat = n) := by
    intro n hn
    interval_cases n <;> cases r <;> decide
  have hmax : r.index.toNat ≤ 10 := by cases r <;> decide
  have hhash : ∀ d, ¬ SpellsWord ('#' :: d) (regName r) := by
    intro d h
    have hh : some '#' = (regName r).toList.head? := congrArg List.head? h
    clear h
    revert hh
    cases r <;> decide
  unfold reg?
  split
  · next cs =>
    have hs : SpellsReg ('#' :: cs) r ↔ decimal? cs = some r.index.toNat := by
      rw [decimal?_eq_some_iff]
      simp only [SpellsReg, hhash, false_or, List.cons.injEq, true_and, exists_eq_left']
    rw [hs]
    cases decimal? cs with
    | none => simp
    | some n =>
      dsimp only
      split
      · next hn => rw [hidx n hn, Option.some.injEq, eq_comm]
      · next hn => simp only [reduceCtorEq, false_iff, Option.some.injEq]; omega
  · next hne =>
    have h : t.map upper = t.map Char.toUpper := List.map_congr_left fun c _ => upper_eq_toUpper c
    rw [regNames_lookup, h]
    constructor
    · exact .inl
    · rintro (hw | ⟨d, hd, -⟩)
      · exact hw
      · exact absurd hd (hne d)

/-- A command, token by token. -/
theorem command?_eq_some_iff (ts : List (List Char)) (i : Instr) : command? ts = some i ↔ SpellsCommand ts i := by
  have e1 := fun m => isWord_iff m "INIT"
  have e2 := fun m => isWord_iff m "READ"
  have e3 := fun m => isWord_iff m "WRITE"
  have e4 := fun m => isWord_iff m "READ_PORT_A"
  have e5 := fun m => isWord_iff m "READ_PORT_B"
  have e6 := fun m => isWord_iff m "WRITE_PORT_A"
  have e7 := fun m => isWord_iff m "WRITE_PORT_B"
  have d : ∀ {m a b}, SpellsWord m a → SpellsWord m b → a = b := fun h1 h2 => by
    unfold SpellsWord at *; rw [h1] at h2; exact String.toList_inj.1 h2
  constructor
  · intro h
    unfold command? at h
    split at h
    · next m =>
      split at h
      · next hh => cases h; exact ⟨m, rfl, (e1 m).1 hh⟩
      split at h
      · next hh => cases h; exact ⟨m, rfl, (e4 m).1 hh⟩
      split at h
      · next hh => cases h; exact ⟨m, rfl, (e5 m).1 hh⟩
      cases h
    · next m v =>
      split at h
      · next hh =>
        cases hv : imm8? v with
        | none => simp [hv] at h
        | some x =>
          simp only [hv, Option.map_some, Option.some.injEq] at h
          cases h
          exact ⟨m, v, rfl, (e6 m).1 hh, (imm8?_eq_some_iff _ _).1 hv⟩
      split at h
      · next hh =>
        cases hv : imm8? v with
        | none => simp [hv] at h
        | some x =>
          simp only [hv, Option.map_some, Option.some.injEq] at h
          cases h
          exact ⟨m, v, rfl, (e7 m).1 hh, (imm8?_eq_some_iff _ _).1 hv⟩
      cases h
    · next m p r =>
      split at h
      · next hh =>
        split at h
        · next hp hr =>
          cases h
          exact ⟨m, p, r, rfl, (e2 m).1 hh, (port?_eq_some_iff _ _).1 hp, (reg?_eq_some_iff _ _).1 hr⟩
        · cases h
      · cases h
    · next m p r v =>
      split at h
      · next hh =>
        split at h
        · next hp hr hv =>
          cases h
          exact ⟨m, p, r, v, rfl, (e3 m).1 hh, (port?_eq_some_iff _ _).1 hp, (reg?_eq_some_iff _ _).1 hr,
            (imm8?_eq_some_iff _ _).1 hv⟩
        · cases h
      · cases h
    · cases h
  · intro h
    cases i with
    | init => obtain ⟨m, rfl, hm⟩ := h; exact if_pos ((e1 m).2 hm)
    | readPortA =>
      obtain ⟨m, rfl, hm⟩ := h
      have n1 : ¬ isWord m nameInit = true := fun h => absurd (d hm ((e1 m).1 h)) (by decide)
      exact (if_neg n1).trans (if_pos ((e4 m).2 hm))
    | readPortB =>
      obtain ⟨m, rfl, hm⟩ := h
      have n1 : ¬ isWord m nameInit = true := fun h => absurd (d hm ((e1 m).1 h)) (by decide)
      have n2 : ¬ isWord m nameReadPortA = true := fun h => absurd (d hm ((e4 m).1 h)) (by decide)
      exact (if_neg n1).trans ((if_neg n2).trans (if_pos ((e5 m).2 hm)))
    | writePortA v =>
      obtain ⟨m, t, rfl, hm, hv⟩ := h
      refine (if_pos ((e6 m).2 hm)).trans ?_
      rw [(imm8?_eq_some_iff _ _).2 hv]
      rfl
    | writePortB v =>
      obtain ⟨m, t, rfl, hm, hv⟩ := h
      have n1 : ¬ isWord m nameWritePortA = true := fun h => absurd (d hm ((e6 m).1 h)) (by decide)
      refine (if_neg n1).trans ((if_pos ((e7 m).2 hm)).trans ?_)
      rw [(imm8?_eq_some_iff _ _).2 hv]
      rfl
    | read p r =>
      obtain ⟨m, a, b, rfl, hm, hp, hr⟩ := h
      refine (if_pos ((e2 m).2 hm)).trans ?_
      rw [(port?_eq_some_iff _ _).2 hp, (reg?_eq_some_iff _ _).2 hr]
    | write p r v =>
      obtain ⟨m, a, b, t, rfl, hm, hp, hr, hv⟩ := h
      refine (if_pos ((e3 m).2 hm)).trans ?_
      rw [(port?_eq_some_iff _ _).2 hp, (reg?_eq_some_iff _ _).2 hr, (imm8?_eq_some_iff _ _).2 hv]
    | _ => exact h.elim

/-! Tokens. -/

theorem pushToken_nil (rest : List (List Char)) : pushToken [] rest = rest := rfl

theorem pushToken_cons {w : List Char} (h : w ≠ []) (rest : List (List Char)) : pushToken w rest = w :: rest := by
  cases w with
  | nil => exact absurd rfl h
  | cons c cs => rfl

/-- The tokens of a text without a comment, after the word being read, lay out that word and the text. -/
theorem lays_tokens (text acc : List Char) (ht : ';' ∉ text) (ha : ∀ c ∈ acc, Plain c) :
    Lays (tokens acc text) (acc ++ text) := by
  have push : ∀ {rest ts} {acc : List Char}, (∀ c ∈ acc, Plain c) → EndsWord rest → Lays ts rest →
      Lays (pushToken acc ts) (acc ++ rest) := by
    intro rest ts acc ha he hl
    by_cases h : acc = []
    · subst h; exact hl
    · rw [pushToken_cons h]; exact .word h ha he hl
  induction text generalizing acc with
  | nil => exact push ha trivial .done
  | cons c cs ih =>
    have hcs : ';' ∉ cs := fun h => ht (by simp [h])
    have hc : c ≠ ';' := fun h => ht (by simp [h])
    unfold tokens
    split
    · next hb => exact push ha (.inl hb) (.blank hb (ih [] hcs (by simp)))
    · next hb =>
      split
      · next hk => subst hk; exact push ha (.inr rfl) (.comma (ih [] hcs (by simp)))
      · next hk =>
        have := ih (acc ++ [c]) hcs fun d hd => by
          rcases List.mem_append.1 hd with h | h
          · exact ha d h
          · rw [List.mem_singleton.1 h]; exact ⟨hb, hk, hc⟩
        simpa using this

/-- A word being read takes in the plain characters that follow it. -/
theorem tokens_append (acc w text : List Char) (h : ∀ c ∈ w, Plain c) : tokens acc (w ++ text) = tokens (acc ++ w) text := by
  induction w generalizing acc with
  | nil => simp
  | cons c w ih =>
    obtain ⟨hb, hk, -⟩ := h c (by simp)
    have hb : ¬ (c = ' ' ∨ c = '\t') := hb
    rw [List.cons_append, tokens, if_neg hb, if_neg hk, ih _ fun d hd => h d (by simp [hd])]
    simp

/-- A text lays out no other tokens than those the assembler reads from it. -/
theorem Lays.tokens_eq {ts : List (List Char)} {text : List Char} (h : Lays ts text) : tokens [] text = ts := by
  induction h with
  | done => rfl
  | @blank c ts text hb _ ih =>
    have hb : c = ' ' ∨ c = '\t' := hb
    rw [tokens, if_pos hb, ih]
    rfl
  | comma _ ih =>
    rw [tokens, if_neg (by decide), if_pos rfl, ih]
    rfl
  | @word w ts text hw hp he _ ih =>
    rw [tokens_append [] w text hp, List.nil_append]
    cases text with
    | nil => rw [← ih]; exact pushToken_cons hw []
    | cons c cs =>
      rcases he with he | rfl
      · have he : c = ' ' ∨ c = '\t' := he
        rw [← ih]
        simp only [tokens, if_pos he, pushToken_nil]
        exact pushToken_cons hw _
      · rw [← ih]
        simp only [tokens, if_neg (show ¬ (',' = ' ' ∨ ',' = '\t') by decide), if_true, pushToken_nil]
        exact pushToken_cons hw _

/-- A laid-out text starts no comment. -/
theorem Lays.no_comment {ts : List (List Char)} {text : List Char} (h : Lays ts text) : ';' ∉ text := by
  induction h with
  | done => simp
  | blank hb _ ih =>
    rcases hb with rfl | rfl <;> simpa using ih
  | comma _ ih => simpa using ih
  | word _ hp _ _ ih =>
    rw [List.mem_append]
    rintro (h | h)
    · exact (hp _ h).2.2 rfl
    · exact ih h

/-- What precedes the comment of a line. -/
theorem dropComment_spec (line : List Char) :
    ';' ∉ dropComment line ∧ (line = dropComment line ∨ ∃ rest, line = dropComment line ++ ';' :: rest) := by
  induction line with
  | nil => exact ⟨by simp [dropComment], .inl rfl⟩
  | cons c cs ih =>
    unfold dropComment
    split
    · next h => subst h; exact ⟨by simp, .inr ⟨cs, rfl⟩⟩
    · next h =>
      refine ⟨by simp [Ne.symm h, ih.1], ?_⟩
      rcases ih.2 with e | ⟨rest, e⟩
      · exact .inl (by rw [← e])
      · exact .inr ⟨rest, by rw [List.cons_append, ← e]⟩

/-- A text without a comment is kept. -/
theorem dropComment_of_no_comment (text rest : List Char) (h : ';' ∉ text) :
    dropComment text = text ∧ dropComment (text ++ ';' :: rest) = text := by
  induction text with
  | nil => simp [dropComment]
  | cons c cs ih =>
    have hc : c ≠ ';' := fun e => h (by simp [e])
    have := ih fun e => h (by simp [e])
    simp [dropComment, hc, this]

end Sys2Proof.Machine
end

