-- ==== Sys2Proof/Laws/Memory.lean ====
section
/-! SUPPORT. The laws of the fixture's memory: read after write, and that a write keeps the canonical form. -/

namespace Sys2Proof.Machine

/-- An address below every listed one reads as the default. -/
theorem memRead_eq_default_of_lt {m : Memory} {a : Nat} (h : ∀ x ∈ m, a < x.1) : memRead m a = memDefault := by
  induction m with
  | nil => rfl
  | cons x m ih =>
    obtain ⟨b, w⟩ := x
    have hb : a < b := h (b, w) (by simp)
    rw [memRead, if_neg (by omega)]
    exact ih fun y hy => h y (by simp [hy])

/-- What a write put at the front of a list of greater addresses reads as. -/
theorem memRead_memPut_same {m : Memory} {a : Nat} (v : Byte) (h : ∀ x ∈ m, a < x.1) :
    memRead (memPut a v m) a = v := by
  unfold memPut
  split
  · next hv => rw [hv]; exact memRead_eq_default_of_lt h
  · simp [memRead]

theorem memRead_memPut_ne {m : Memory} {a a' : Nat} (v : Byte) (h : a' ≠ a) :
    memRead (memPut a v m) a' = memRead m a' := by
  unfold memPut
  split
  · rfl
  · simp [memRead, h]

/-- In a canonical list the addresses after the first are greater. -/
theorem Memory.wf_cons {b : Nat} {w : Byte} {m : Memory} (h : Memory.wf ((b, w) :: m)) :
    (∀ x ∈ m, b < x.1) ∧ w ≠ memDefault ∧ Memory.wf m := by
  obtain ⟨hp, hd⟩ := h
  rw [List.pairwise_cons] at hp
  exact ⟨hp.1, hd (b, w) (by simp), hp.2, fun x hx => hd x (by simp [hx])⟩

/-- Reading the address written gives the byte written. -/
theorem memRead_memWrite_same {m : Memory} (hm : m.wf) (a : Nat) (v : Byte) : memRead (memWrite m a v) a = v := by
  induction m with
  | nil => exact memRead_memPut_same v (by simp)
  | cons x m ih =>
    obtain ⟨b, w⟩ := x
    obtain ⟨hlt, -, hwf⟩ := Memory.wf_cons hm
    unfold memWrite
    split
    · next hab => exact memRead_memPut_same v (by rintro ⟨y, z⟩ (_ | ⟨_, hy⟩); exacts [hab, hab.trans (hlt _ hy)])
    · split
      · next hab => subst hab; exact memRead_memPut_same v hlt
      · next hab => rw [memRead, if_neg hab]; exact ih hwf

/-- A write leaves every other address alone. -/
theorem memRead_memWrite_ne (m : Memory) {a a' : Nat} (v : Byte) (h : a' ≠ a) :
    memRead (memWrite m a v) a' = memRead m a' := by
  induction m with
  | nil => exact memRead_memPut_ne v h
  | cons x m ih =>
    obtain ⟨b, w⟩ := x
    unfold memWrite
    split
    · exact memRead_memPut_ne v h
    · split
      · next hab => subst hab; rw [memRead_memPut_ne v h, memRead, if_neg h]
      · simp only [memRead, ih]

/-- Putting a byte in front of greater addresses keeps the canonical form. -/
theorem memPut_wf {m : Memory} {a : Nat} (v : Byte) (hm : m.wf) (h : ∀ x ∈ m, a < x.1) : (memPut a v m).wf := by
  unfold memPut
  split
  · exact hm
  · next hv =>
    refine ⟨List.pairwise_cons.2 ⟨h, hm.1⟩, ?_⟩
    rintro x (_ | ⟨_, hx⟩)
    exacts [hv, hm.2 x hx]

theorem memPut_mem {m : Memory} {a : Nat} {v : Byte} {x : Host.Cell} (h : x ∈ memPut a v m) : x ∈ m ∨ x.1 = a := by
  unfold memPut at h
  split at h
  · exact .inl h
  · rcases List.mem_cons.1 h with rfl | h
    exacts [.inr rfl, .inl h]

/-- A written address is the only one that a write can add. -/
theorem memWrite_mem {m : Memory} {a : Nat} {v : Byte} {x : Host.Cell} (h : x ∈ memWrite m a v) : x ∈ m ∨ x.1 = a := by
  induction m with
  | nil => exact memPut_mem h
  | cons y m ih =>
    obtain ⟨b, w⟩ := y
    unfold memWrite at h
    split at h
    · exact memPut_mem h
    · split at h
      · exact (memPut_mem h).imp_left (List.mem_cons_of_mem _)
      · rcases List.mem_cons.1 h with rfl | h
        · exact .inl (by simp)
        · exact (ih h).imp_left (List.mem_cons_of_mem _)

/-- A write keeps the canonical form. -/
theorem memWrite_wf {m : Memory} (hm : m.wf) (a : Nat) (v : Byte) : (memWrite m a v).wf := by
  induction m with
  | nil => exact memPut_wf v hm (by simp)
  | cons x m ih =>
    obtain ⟨b, w⟩ := x
    obtain ⟨hlt, hw, hwf⟩ := Memory.wf_cons hm
    unfold memWrite
    split
    · next hab => exact memPut_wf v hm (by rintro ⟨y, z⟩ (_ | ⟨_, hy⟩); exacts [hab, hab.trans (hlt _ hy)])
    · split
      · next hab => subst hab; exact memPut_wf v hwf hlt
      · next hnl hab =>
        have hi := ih hwf
        refine ⟨List.pairwise_cons.2 ⟨fun x hx => ?_, hi.1⟩, ?_⟩
        · rcases memWrite_mem hx with h | h
          · exact hlt x h
          · show b < x.1
            omega
        · rintro x (_ | ⟨_, hx⟩)
          exacts [hw, hi.2 x hx]

end Sys2Proof.Machine
end

