-- ==== Sys2Proof/Laws/State.lean ====
section
/-! SUPPORT. The small lemmas of the state's updates: one for each field and update, true by rfl. -/

namespace Sys2Proof.Machine

@[simp] theorem State.emit_par (s : State) (e : Event) : (s.emit e).par = s.par := rfl
@[simp] theorem State.emit_lock (s : State) (e : Event) : (s.emit e).lock = s.lock := rfl
@[simp] theorem State.emit_cs (s : State) (e : Event) : (s.emit e).cs = s.cs := rfl
@[simp] theorem State.emit_ctx (s : State) (e : Event) : (s.emit e).ctx = s.ctx := rfl
@[simp] theorem State.emit_fault (s : State) (e : Event) : (s.emit e).fault = s.fault := rfl
@[simp] theorem State.emit_spiBusy (s : State) (e : Event) : (s.emit e).spiBusy = s.spiBusy := rfl
@[simp] theorem State.emit_trace (s : State) (e : Event) : (s.emit e).trace = s.trace ++ [e] := rfl
@[simp] theorem State.emit_inp (s : State) (e : Event) : (s.emit e).inp = s.inp := rfl
@[simp] theorem State.emit_tick (s : State) (e : Event) : (s.emit e).tick = s.tick := rfl
@[simp] theorem State.emit_readData (s : State) (e : Event) : (s.emit e).readData = s.readData := rfl

@[simp] theorem State.setLock_par (s : State) (o : Option Nat) : (s.setLock o).par = s.par := rfl
@[simp] theorem State.setLock_lock (s : State) (o : Option Nat) : (s.setLock o).lock = o := rfl
@[simp] theorem State.setLock_cs (s : State) (o : Option Nat) : (s.setLock o).cs = s.cs := rfl
@[simp] theorem State.setLock_ctx (s : State) (o : Option Nat) : (s.setLock o).ctx = s.ctx := rfl
@[simp] theorem State.setLock_fault (s : State) (o : Option Nat) : (s.setLock o).fault = s.fault := rfl
@[simp] theorem State.setLock_spiBusy (s : State) (o : Option Nat) : (s.setLock o).spiBusy = s.spiBusy := rfl
@[simp] theorem State.setLock_trace (s : State) (o : Option Nat) : (s.setLock o).trace = s.trace := rfl
@[simp] theorem State.setLock_inp (s : State) (o : Option Nat) : (s.setLock o).inp = s.inp := rfl
@[simp] theorem State.setLock_tick (s : State) (o : Option Nat) : (s.setLock o).tick = s.tick := rfl
@[simp] theorem State.setLock_readData (s : State) (o : Option Nat) : (s.setLock o).readData = s.readData := rfl

@[simp] theorem State.setCs_par (s : State) (l : Nat) (v : Bool) : (s.setCs l v).par = s.par := rfl
@[simp] theorem State.setCs_lock (s : State) (l : Nat) (v : Bool) : (s.setCs l v).lock = s.lock := rfl
@[simp] theorem State.setCs_cs (s : State) (l : Nat) (v : Bool) : (s.setCs l v).cs = s.cs.set l v := rfl
@[simp] theorem State.setCs_ctx (s : State) (l : Nat) (v : Bool) : (s.setCs l v).ctx = s.ctx := rfl
@[simp] theorem State.setCs_fault (s : State) (l : Nat) (v : Bool) : (s.setCs l v).fault = s.fault := rfl
@[simp] theorem State.setCs_spiBusy (s : State) (l : Nat) (v : Bool) : (s.setCs l v).spiBusy = s.spiBusy := rfl
@[simp] theorem State.setCs_trace (s : State) (l : Nat) (v : Bool) : (s.setCs l v).trace = s.trace := rfl
@[simp] theorem State.setCs_inp (s : State) (l : Nat) (v : Bool) : (s.setCs l v).inp = s.inp := rfl
@[simp] theorem State.setCs_tick (s : State) (l : Nat) (v : Bool) : (s.setCs l v).tick = s.tick := rfl
@[simp] theorem State.setCs_readData (s : State) (l : Nat) (v : Bool) : (s.setCs l v).readData = s.readData := rfl

@[simp] theorem State.modCtx_par (s : State) (c : Nat) (f : Ctx → Ctx) : (s.modCtx c f).par = s.par := rfl
@[simp] theorem State.modCtx_lock (s : State) (c : Nat) (f : Ctx → Ctx) : (s.modCtx c f).lock = s.lock := rfl
@[simp] theorem State.modCtx_cs (s : State) (c : Nat) (f : Ctx → Ctx) : (s.modCtx c f).cs = s.cs := rfl
@[simp] theorem State.modCtx_ctx (s : State) (c : Nat) (f : Ctx → Ctx) : (s.modCtx c f).ctx = s.ctx.set c (f (s.getCtx c)) := rfl
@[simp] theorem State.modCtx_fault (s : State) (c : Nat) (f : Ctx → Ctx) : (s.modCtx c f).fault = s.fault := rfl
@[simp] theorem State.modCtx_spiBusy (s : State) (c : Nat) (f : Ctx → Ctx) : (s.modCtx c f).spiBusy = s.spiBusy := rfl
@[simp] theorem State.modCtx_trace (s : State) (c : Nat) (f : Ctx → Ctx) : (s.modCtx c f).trace = s.trace := rfl
@[simp] theorem State.modCtx_inp (s : State) (c : Nat) (f : Ctx → Ctx) : (s.modCtx c f).inp = s.inp := rfl
@[simp] theorem State.modCtx_tick (s : State) (c : Nat) (f : Ctx → Ctx) : (s.modCtx c f).tick = s.tick := rfl
@[simp] theorem State.modCtx_readData (s : State) (c : Nat) (f : Ctx → Ctx) : (s.modCtx c f).readData = s.readData := rfl

@[simp] theorem State.present_par (s : State) (i : Inputs) : (s.present i).par = s.par := rfl
@[simp] theorem State.present_lock (s : State) (i : Inputs) : (s.present i).lock = s.lock := rfl
@[simp] theorem State.present_cs (s : State) (i : Inputs) : (s.present i).cs = s.cs := rfl
@[simp] theorem State.present_ctx (s : State) (i : Inputs) : (s.present i).ctx = s.ctx := rfl
@[simp] theorem State.present_fault (s : State) (i : Inputs) : (s.present i).fault = s.fault := rfl
@[simp] theorem State.present_spiBusy (s : State) (i : Inputs) : (s.present i).spiBusy = s.spiBusy := rfl
@[simp] theorem State.present_trace (s : State) (i : Inputs) : (s.present i).trace = s.trace := rfl
@[simp] theorem State.present_inp (s : State) (i : Inputs) : (s.present i).inp = i := rfl
@[simp] theorem State.present_tick (s : State) (i : Inputs) : (s.present i).tick = s.tick := rfl
@[simp] theorem State.present_readData (s : State) (i : Inputs) : (s.present i).readData = s.readData := rfl

@[simp] theorem raiseFault_par (s : State) (c : Nat) (k : Cause) : (raiseFault s c k).par = s.par := rfl
@[simp] theorem raiseFault_lock (s : State) (c : Nat) (k : Cause) : (raiseFault s c k).lock = s.lock := rfl
@[simp] theorem raiseFault_cs (s : State) (c : Nat) (k : Cause) : (raiseFault s c k).cs = s.cs := rfl
@[simp] theorem raiseFault_ctx (s : State) (c : Nat) (k : Cause) : (raiseFault s c k).ctx = s.ctx := rfl
@[simp] theorem raiseFault_fault (s : State) (c : Nat) (k : Cause) : (raiseFault s c k).fault =
    some { cause := k, ctx := c, dev := s.par.handle c, phase := (s.getCtx c).phase } := rfl
@[simp] theorem raiseFault_spiBusy (s : State) (c : Nat) (k : Cause) : (raiseFault s c k).spiBusy = s.spiBusy := rfl
@[simp] theorem raiseFault_trace (s : State) (c : Nat) (k : Cause) : (raiseFault s c k).trace = s.trace ++ [.fault c k] := rfl
@[simp] theorem raiseFault_inp (s : State) (c : Nat) (k : Cause) : (raiseFault s c k).inp = s.inp := rfl
@[simp] theorem raiseFault_tick (s : State) (c : Nat) (k : Cause) : (raiseFault s c k).tick = s.tick := rfl
@[simp] theorem raiseFault_readData (s : State) (c : Nat) (k : Cause) : (raiseFault s c k).readData = s.readData := rfl

@[simp] theorem finish_par (s : State) : (finish s).par = s.par := rfl
@[simp] theorem finish_lock (s : State) : (finish s).lock = s.lock := rfl
@[simp] theorem finish_cs (s : State) : (finish s).cs = s.cs := rfl
@[simp] theorem finish_ctx (s : State) : (finish s).ctx = s.ctx := rfl
@[simp] theorem finish_fault (s : State) : (finish s).fault = s.fault := rfl
@[simp] theorem finish_spiBusy (s : State) : (finish s).spiBusy = s.spiBusy := rfl
@[simp] theorem finish_trace (s : State) : (finish s).trace = s.trace := rfl
@[simp] theorem finish_inp (s : State) : (finish s).inp = legalInputs s.par (Config.inputs s.tick) := rfl
@[simp] theorem finish_tick (s : State) : (finish s).tick = s.tick + 1 := rfl
@[simp] theorem finish_readData (s : State) : (finish s).readData = s.readData := rfl

@[simp] theorem applyReset_par (s : State) : (applyReset s).par = s.par := rfl
@[simp] theorem applyReset_lock (s : State) : (applyReset s).lock = none := rfl
@[simp] theorem applyReset_cs (s : State) : (applyReset s).cs = List.replicate s.par.nCs false := rfl
@[simp] theorem applyReset_ctx (s : State) : (applyReset s).ctx = List.replicate s.par.ctxHandle.length Ctx.reset := rfl
@[simp] theorem applyReset_fault (s : State) : (applyReset s).fault = none := rfl
@[simp] theorem applyReset_spiBusy (s : State) : (applyReset s).spiBusy = s.spiBusy := rfl
@[simp] theorem applyReset_trace (s : State) : (applyReset s).trace = [] := rfl
@[simp] theorem applyReset_inp (s : State) : (applyReset s).inp = s.inp := rfl
@[simp] theorem applyReset_tick (s : State) : (applyReset s).tick = s.tick := rfl
@[simp] theorem applyReset_readData (s : State) : (applyReset s).readData = s.readData := rfl

/-! Reading a context or a line through an update that does not touch it. -/

@[simp] theorem State.emit_getCtx (s : State) (e : Event) (c : Nat) : (s.emit e).getCtx c = s.getCtx c := rfl
@[simp] theorem State.setLock_getCtx (s : State) (o : Option Nat) (c : Nat) : (s.setLock o).getCtx c = s.getCtx c := rfl
@[simp] theorem State.setCs_getCtx (s : State) (l : Nat) (v : Bool) (c : Nat) : (s.setCs l v).getCtx c = s.getCtx c :=
  rfl
@[simp] theorem State.present_getCtx (s : State) (i : Inputs) (c : Nat) : (s.present i).getCtx c = s.getCtx c := rfl
@[simp] theorem raiseFault_getCtx (s : State) (d : Nat) (k : Cause) (c : Nat) :
    (raiseFault s d k).getCtx c = s.getCtx c := rfl
@[simp] theorem finish_getCtx (s : State) (c : Nat) : (finish s).getCtx c = s.getCtx c := rfl

@[simp] theorem State.emit_getCs (s : State) (e : Event) (l : Nat) : (s.emit e).getCs l = s.getCs l := rfl
@[simp] theorem State.setLock_getCs (s : State) (o : Option Nat) (l : Nat) : (s.setLock o).getCs l = s.getCs l := rfl
@[simp] theorem State.modCtx_getCs (s : State) (c : Nat) (f : Ctx → Ctx) (l : Nat) :
    (s.modCtx c f).getCs l = s.getCs l := rfl
@[simp] theorem State.present_getCs (s : State) (i : Inputs) (l : Nat) : (s.present i).getCs l = s.getCs l := rfl
@[simp] theorem raiseFault_getCs (s : State) (d : Nat) (k : Cause) (l : Nat) : (raiseFault s d k).getCs l = s.getCs l :=
  rfl
@[simp] theorem finish_getCs (s : State) (l : Nat) : (finish s).getCs l = s.getCs l := rfl

/-- An update of a context is read back, if the context exists. -/
theorem State.modCtx_getCtx_same (s : State) (c : Nat) (f : Ctx → Ctx) (h : c < s.ctx.length) :
    (s.modCtx c f).getCtx c = f (s.getCtx c) := by
  simp [State.getCtx, h]

/-- An update of a context leaves every other context alone. -/
@[simp] theorem State.modCtx_getCtx_ne (s : State) {c d : Nat} (f : Ctx → Ctx) (h : d ≠ c) :
    (s.modCtx c f).getCtx d = s.getCtx d := by
  simp [State.getCtx, Ne.symm h]

/-- An update of a line is read back, if the line exists. -/
theorem State.setCs_getCs_same (s : State) (l : Nat) (v : Bool) (h : l < s.cs.length) : (s.setCs l v).getCs l = v := by
  simp [State.getCs, h]

/-- An update of a line leaves every other line alone. -/
@[simp] theorem State.setCs_getCs_ne (s : State) {l m : Nat} (v : Bool) (h : m ≠ l) :
    (s.setCs l v).getCs m = s.getCs m := by
  simp [State.getCs, Ne.symm h]

end Sys2Proof.Machine
end

