-- ==== Sys2Proof/Laws/Ops.lean ====
section
/-! SUPPORT. For each shared operation, once, everything it can do. -/

namespace Sys2Proof.Machine

/-! Stops and next states. -/

/-- An operation on the context of the turn answers a next state exactly when that context exists. -/
theorem onContext_eq_next_iff {s t : State} {f : Nat → State → State} :
    onContext s f = .next t ↔ s.inp.sel < s.par.nCtx ∧ t = f s.inp.sel s := by
  unfold onContext
  split <;> simp_all [eq_comm]

theorem onContext_of_lt {s : State} {f : Nat → State → State} (h : s.inp.sel < s.par.nCtx) :
    onContext s f = .next (f s.inp.sel s) := if_pos h

/-- A step answers a next state exactly when its move does; it then presents the next inputs. -/
theorem step_eq_next_iff {s t : State} : step s = .next t ↔ ∃ u, takeTurn s = .next u ∧ t = finish u := by
  unfold step finishOutcome
  cases takeTurn s <;> simp [eq_comm]

/-- The move of a turn: the decoded instruction, an illegal word, or a move that fetches nothing. -/
theorem takeTurn_cases (s : State) :
    (∃ code i, fetch s = some code ∧ decode code = .instr i ∧ takeTurn s = exec i s) ∨
    (∃ code e, fetch s = some code ∧ decode code = .illegal e ∧ takeTurn s = runIllegal code s) ∨
    (fetch s = none ∧ takeTurn s = otherMove s) := by
  unfold takeTurn runCode
  cases hf : fetch s with
  | none => exact .inr (.inr ⟨rfl, rfl⟩)
  | some code =>
    cases hd : decode code with
    | instr i => exact .inl ⟨code, i, rfl, hd, by simp [hd]⟩
    | illegal e => exact .inr (.inl ⟨code, e, rfl, hd, by simp [hd]⟩)

/-! Contexts. -/

/-- Two updates of one context are one. -/
@[simp] theorem State.modCtx_modCtx (s : State) (c : Nat) (f g : Ctx → Ctx) :
    (s.modCtx c f).modCtx c g = s.modCtx c fun C => g (f C) := by
  by_cases h : c < s.ctx.length
  · simp [State.modCtx, State.getCtx, h]
  · have hset : ∀ C : Ctx, s.ctx.set c C = s.ctx := fun C => List.set_eq_of_length_le (by omega)
    simp [State.modCtx, hset]

/-- A field that an update of a context keeps is kept, whether or not the context exists. -/
theorem State.modCtx_getCtx_field {α : Type} (s : State) (c d : Nat) (f : Ctx → Ctx) (q : Ctx → α)
    (h : ∀ C, q (f C) = q C) : q ((s.modCtx c f).getCtx d) = q (s.getCtx d) := by
  by_cases hd : d = c
  · subst hd
    by_cases hl : d < s.ctx.length
    · rw [State.modCtx_getCtx_same s d f hl, h]
    · simp [State.getCtx, State.modCtx, hl]
  · rw [State.modCtx_getCtx_ne s f hd]

@[simp] theorem takeWord_getCtx_phase (s : State) (c d : Nat) (w : Word16) :
    ((takeWord s c w).getCtx d).phase = (s.getCtx d).phase :=
  State.modCtx_getCtx_field (s.emit (.accept c w)) c d _ Ctx.phase fun _ => rfl

/-! Accepting a command (R200). -/

/-- ACCEPT of a legal command whose handle has a transport. -/
theorem acceptCommand_of_known {s : State} {c : Nat} (w : Word16) (k : CmdKind) (e : HandleCfg → List Txn)
    (h : (s.par.handleCfg c).mode ≠ .undefined) :
    acceptCommand w k e c s =
      { s with
        trace := s.trace ++ [.accept c w]
        ctx := s.ctx.set c
          { s.getCtx c with
            phase := .lockWait, cmd := some k, cur := (e (s.par.handleCfg c)).head?
            pending := (e (s.par.handleCfg c)).tail, rdByte := none, initOk := none, held := none } } := by
  simp only [acceptCommand, if_neg h, takeWord, State.modCtx_modCtx]
  rfl

/-- ACCEPT of a legal command whose handle is of mode UNDEFINED. -/
theorem acceptCommand_of_undefined {s : State} {c : Nat} (w : Word16) (k : CmdKind) (e : HandleCfg → List Txn)
    (h : (s.par.handleCfg c).mode = .undefined) :
    acceptCommand w k e c s =
      { s with
        trace := s.trace ++ [.accept c w] ++ [.fault c .modeUndefined]
        ctx := s.ctx.set c { s.getCtx c with held := none }
        fault := some { cause := .modeUndefined, ctx := c, dev := s.par.handle c, phase := (s.getCtx c).phase } } := by
  simp only [acceptCommand, if_pos h, raiseFault, takeWord_getCtx_phase]
  rfl

/-- ACCEPT of an illegal word. -/
theorem acceptIllegal_eq (s : State) (c : Nat) (w : Word16) :
    acceptIllegal w c s =
      { s with
        trace := s.trace ++ [.accept c w] ++ [.fault c .illegalCmd]
        ctx := s.ctx.set c { s.getCtx c with held := none }
        fault := some { cause := .illegalCmd, ctx := c, dev := s.par.handle c, phase := (s.getCtx c).phase } } := by
  simp only [acceptIllegal, raiseFault, takeWord_getCtx_phase]
  rfl

theorem acceptEnabled_iff {s : State} {c : Nat} :
    acceptEnabled s c = true ↔ (s.getCtx c).phase = .idle ∧ s.fault = none := by
  simp [acceptEnabled]

/-- A write to `CMD` is accepted or held. -/
theorem writeCmd_cases (w : Word16) (a : Nat → State → State) (c : Nat) (s : State) :
    ((s.getCtx c).phase = .idle ∧ s.fault = none ∧ writeCmd w a c s = a c s) ∨
    (¬((s.getCtx c).phase = .idle ∧ s.fault = none) ∧
      writeCmd w a c s = s.modCtx c fun C => { C with held := some w }) := by
  unfold writeCmd
  split
  · next h => exact .inl ⟨(acceptEnabled_iff.1 h).1, (acceptEnabled_iff.1 h).2, rfl⟩
  · next h => exact .inr ⟨fun hn => h (acceptEnabled_iff.2 hn), rfl⟩

/-! The transport steps (R169, R172, R173). -/

/-- An exchange that answers OK advances; any other answer is a fault. -/
theorem spiXferStep_cases (tx : List Byte) (rw : RW) (c : Nat) (s : State) :
    (s.inp.spiSt = .ok ∧ spiXferStep tx rw c s =
      (s.emit (.spi c tx [s.inp.rx0, s.inp.rx1, s.inp.rx2] .ok)).modCtx c fun C =>
        { C with rdByte := if rw = .read then some s.inp.rx2 else C.rdByte, phase := .waitIdlePost }) ∨
    (∃ k, s.inp.spiSt ≠ .ok ∧ (k = .spiXferError ∨ k = .spiXferTimeout) ∧ spiXferStep tx rw c s =
      raiseFault (s.emit (.spi c tx [s.inp.rx0, s.inp.rx1, s.inp.rx2] s.inp.spiSt)) c k) := by
  unfold spiXferStep
  cases h : s.inp.spiSt
  · exact .inl ⟨rfl, rfl⟩
  · exact .inr ⟨.spiXferError, by simp, .inl rfl, rfl⟩
  · exact .inr ⟨.spiXferTimeout, by simp, .inr rfl, rfl⟩

/-- An I2C write that answers OK advances; any other answer is a fault. -/
theorem i2cWriteStep_cases (bytes : List Byte) (rw : RW) (c : Nat) (s : State) :
    (s.inp.i2cTxSt = .ok ∧ i2cWriteStep bytes rw c s =
      (s.emit (.i2cW c (sla (s.par.handleCfg c).opcode) bytes .ok)).modCtx c fun C =>
        { C with phase := if rw = .read then .i2cRead else .release }) ∨
    (∃ k, s.inp.i2cTxSt ≠ .ok ∧ (k = .i2cTxError ∨ k = .i2cTxTimeout) ∧ i2cWriteStep bytes rw c s =
      raiseFault (s.emit (.i2cW c (sla (s.par.handleCfg c).opcode) bytes s.inp.i2cTxSt)) c k) := by
  unfold i2cWriteStep
  cases h : s.inp.i2cTxSt
  · exact .inl ⟨rfl, rfl⟩
  · exact .inr ⟨.i2cTxError, by simp, .inl rfl, rfl⟩
  · exact .inr ⟨.i2cTxTimeout, by simp, .inr rfl, rfl⟩

/-- An I2C read that answers OK advances; any other answer is a fault. -/
theorem i2cReadStep_cases (c : Nat) (s : State) :
    (s.inp.i2cRxSt = .ok ∧ i2cReadStep c s =
      (s.emit (.i2cR c (sla (s.par.handleCfg c).opcode) s.inp.i2cRxByte .ok)).modCtx c fun C =>
        { C with rdByte := some s.inp.i2cRxByte, phase := .release }) ∨
    (∃ k, s.inp.i2cRxSt ≠ .ok ∧ (k = .i2cRxError ∨ k = .i2cRxTimeout) ∧ i2cReadStep c s =
      raiseFault (s.emit (.i2cR c (sla (s.par.handleCfg c).opcode) s.inp.i2cRxByte s.inp.i2cRxSt)) c k) := by
  unfold i2cReadStep
  cases h : s.inp.i2cRxSt
  · exact .inl ⟨rfl, rfl⟩
  · exact .inr ⟨.i2cRxError, by simp, .inl rfl, rfl⟩
  · exact .inr ⟨.i2cRxTimeout, by simp, .inr rfl, rfl⟩

/-- A frame acts when it is due; otherwise nothing happens. -/
theorem whenDue_eq_next_iff {i : Instr} {f : Nat → State → State} {s t : State} :
    whenDue i f s = .next t ↔ s.inp.sel < s.par.nCtx ∧
      ((dueFrame s s.inp.sel = some (encode i) ∧ t = f s.inp.sel s) ∨
       (dueFrame s s.inp.sel ≠ some (encode i) ∧ t = s)) := by
  rw [whenDue, onContext_eq_next_iff]
  split <;> simp_all

/-! The frame that is due (R164, R165). -/

/-- A frame is due only with no fault recorded, in a transport phase, for the current transaction. -/
theorem dueFrame_cases {s : State} {c : Nat} {code : Code} (h : dueFrame s c = some code) :
    s.fault = none ∧ ∃ t, (s.getCtx c).cur = some t ∧
      (((s.getCtx c).phase = .spiXfer ∧ code = .spi (spiTx (txnFrame (s.par.handleCfg c) t) t.rw)) ∨
       ((s.getCtx c).phase = .i2cWrite ∧ code = .i2c (txnFrame (s.par.handleCfg c) t)) ∨
       ((s.getCtx c).phase = .i2cRead ∧ code = .i2c (buildFrame (s.par.handleCfg c).mode (s.par.handleCfg c).opcode
          (txnAddr (s.par.handleCfg c) t) .read t.data))) := by
  simp only [dueFrame] at h
  split at h
  · next hf =>
    refine ⟨hf, ?_⟩
    split at h
    · next t hp hc => exact ⟨t, hc, .inl ⟨hp, by simpa using h.symm⟩⟩
    · next t hp hc => exact ⟨t, hc, .inr (.inl ⟨hp, by simpa using h.symm⟩)⟩
    · next t hp hc => exact ⟨t, hc, .inr (.inr ⟨hp, by simpa using h.symm⟩)⟩
    · exact absurd h (by simp)
  · exact absurd h (by simp)

/-! The sequencer (R166 to R174). -/

/-- What a context's step in a phase without a transport call can do. -/
theorem ctxStep_cases (c : Nat) (s : State) :
    ctxStep c s = s ∨ s.fault = none ∧
      (((s.getCtx c).phase = .lockWait ∧ s.lock = none ∧ ctxStep c s =
          ((s.setLock (some c)).emit (.lock c)).modCtx c fun C =>
            { C with phase := if (s.par.handleCfg c).mode = .spi then .csAssert else .i2cWrite }) ∨
       (∃ t, (s.getCtx c).phase = .csAssert ∧ (s.getCtx c).cur = some t ∧ ctxStep c s =
          ((s.setCs (s.par.handleCfg c).csLine true).emit (.cs c (s.par.handleCfg c).csLine true)).modCtx c fun C =>
            { C with phase := if t.kind = .pulse then .csDeassert else .waitIdlePre }) ∨
       ((s.getCtx c).phase = .waitIdlePre ∧ s.spiBusy = false ∧
          ctxStep c s = s.modCtx c fun C => { C with phase := .spiXfer }) ∨
       ((s.getCtx c).phase = .waitIdlePost ∧ s.spiBusy = false ∧
          ctxStep c s = s.modCtx c fun C => { C with phase := .csDeassert }) ∨
       ((s.getCtx c).phase = .csDeassert ∧ ctxStep c s =
          ((s.setCs (s.par.handleCfg c).csLine false).emit (.cs c (s.par.handleCfg c).csLine false)).modCtx c fun C =>
            { C with phase := .release }) ∨
       ((s.getCtx c).phase = .release ∧ ctxStep c s = stepRelease c s)) := by
  unfold ctxStep
  split
  · next hf =>
    cases hp : (s.getCtx c).phase
    · exact .inl rfl
    · by_cases hl : s.lock = none
      · exact .inr ⟨hf, .inl ⟨rfl, hl, by simp [stepLockWait, hl]⟩⟩
      · exact .inl (by simp [stepLockWait, hl])
    · cases ht : (s.getCtx c).cur with
      | none => exact .inl (by simp [stepCsAssert, ht])
      | some t => exact .inr ⟨hf, .inr (.inl ⟨t, rfl, rfl, by simp [stepCsAssert, ht]⟩)⟩
    · cases hb : s.spiBusy
      · exact .inr ⟨hf, .inr (.inr (.inl ⟨rfl, rfl, by simp [stepWaitIdlePre, hb]⟩))⟩
      · exact .inl (by simp [stepWaitIdlePre, hb])
    · exact .inl rfl
    · cases hb : s.spiBusy
      · exact .inr ⟨hf, .inr (.inr (.inr (.inl ⟨rfl, rfl, by simp [stepWaitIdlePost, hb]⟩)))⟩
      · exact .inl (by simp [stepWaitIdlePost, hb])
    · exact .inr ⟨hf, .inr (.inr (.inr (.inr (.inl ⟨rfl, rfl⟩))))⟩
    · exact .inl rfl
    · exact .inl rfl
    · exact .inr ⟨hf, .inr (.inr (.inr (.inr (.inr ⟨rfl, rfl⟩))))⟩
  · exact .inl rfl

/-- RELEASE with more transactions to come. -/
theorem stepRelease_of_pending {c : Nat} {s : State} {t n : Txn} {rest : List Txn} (ht : (s.getCtx c).cur = some t)
    (hp : (s.getCtx c).pending = n :: rest) :
    stepRelease c s =
      ((s.setLock none).emit (.unlock c)).modCtx c fun C =>
        { C with
          initOk := if t.check then some (readBackMatches (s.par.handleCfg c) C) else C.initOk
          cur := some n, pending := rest, phase := .lockWait } := by
  by_cases h : t.check = true
  · simp [stepRelease, ht, hp, h]
  · simp [stepRelease, ht, hp, h]

/-- The event that completes a command of the context C (R174). -/
def respondEvents (c : Nat) (C : Ctx) : List Event :=
  match C.cmd with
  | some .read => [.respond c .read (respByte C.rdByte)]
  | some .write => [.respond c .write .none]
  | some .init => [.respond c .init (respBool C.initOk)]
  | none => []

/-- The response registers that completing a command writes (R174). -/
def respondCtx (C : Ctx) : Ctx :=
  match C.cmd with
  | some .read => { C with rspData := C.rdByte }
  | some .write => C
  | some .init => { C with rspOk := C.initOk }
  | none => C

/-- Writing back what a context holds changes nothing. -/
theorem State.modCtx_self (s : State) (c : Nat) : (s.modCtx c fun C => C) = s := by
  by_cases h : c < s.ctx.length
  · simp [State.modCtx, State.getCtx, h]
  · simp [State.modCtx, List.set_eq_of_length_le (show s.ctx.length ≤ c by omega)]

/-- A context update is decided by what the context holds. -/
theorem State.modCtx_congr (s : State) (c : Nat) {f g : Ctx → Ctx} (h : f (s.getCtx c) = g (s.getCtx c)) :
    s.modCtx c f = s.modCtx c g := by
  simp [State.modCtx, h]

/-- Completing a command writes its response register and emits its response. -/
theorem respond_eq (c : Nat) (s : State) :
    respond c s =
      { s with
        ctx := s.ctx.set c (respondCtx (s.getCtx c))
        trace := s.trace ++ respondEvents c (s.getCtx c) } := by
  have self : s.ctx.set c (s.getCtx c) = s.ctx := congrArg State.ctx (State.modCtx_self s c)
  cases hk : (s.getCtx c).cmd with
  | none => simp [respond, respondCtx, respondEvents, hk, self]
  | some k =>
    cases k <;> simp [respond, respondCtx, respondEvents, hk, self, State.emit, State.modCtx]

/-- The context at the release of its transaction t, INIT's test recorded (R174). -/
def checkedCtx (g : HandleCfg) (t : Txn) (C : Ctx) : Ctx :=
  { C with initOk := if t.check then some (readBackMatches g C) else C.initOk }

/-- RELEASE of a command's last transaction. -/
theorem stepRelease_of_last {c : Nat} {s : State} {t : Txn} (hc : c < s.ctx.length) (ht : (s.getCtx c).cur = some t)
    (hp : (s.getCtx c).pending = []) :
    stepRelease c s =
      { s with
        lock := none
        trace := s.trace ++ [.unlock c] ++ respondEvents c (checkedCtx (s.par.handleCfg c) t (s.getCtx c))
        ctx := s.ctx.set c
          { respondCtx (checkedCtx (s.par.handleCfg c) t (s.getCtx c)) with cur := none, phase := .idle } } := by
  have key : stepRelease c s =
      (respond c (((s.setLock none).emit (.unlock c)).modCtx c (checkedCtx (s.par.handleCfg c) t))).modCtx c
        fun C => { C with cur := none, phase := .idle } := by
    by_cases h : t.check = true
    · simp only [stepRelease, ht, hp, h, if_true]
      rw [State.modCtx_congr _ c (f := checkedCtx (s.par.handleCfg c) t) (g := fun C =>
        { C with initOk := some (readBackMatches (s.par.handleCfg c) C) }) (by simp [checkedCtx, h])]
    · simp only [stepRelease, ht, hp, h]
      rw [State.modCtx_congr _ c (f := checkedCtx (s.par.handleCfg c) t) (g := fun C => C)
        (by simp [checkedCtx, h]), State.modCtx_self]
      simp
  rw [key, respond_eq, State.modCtx_getCtx_same _ _ _ (by simpa using hc)]
  simp [State.modCtx, State.getCtx, hc]

end Sys2Proof.Machine
end

