-- ==== Sys2Proof/Laws/PerInstr.lean ====
section
/-! SUPPORT. A law of every instruction, one lemma a constructor: its encoding lies in its row of the opcode table. -/

namespace Sys2Proof

namespace Laws

/-- The bits that the opcode table matches on: a host command word, or a frame's control byte (R112). -/
def matchedBits : Code → Word16
  | .word w => w
  | .spi [] | .i2c [] => 0#16
  | .spi (c :: _) | .i2c (c :: _) => c.setWidth 16

/-- The mask and the match of an instruction's row in the opcode table. -/
def tableRow : Instr → Word16 × Word16
  | .init => (0xFFFF#16, 0x0000#16)
  | .read _ _ => (0xE0FF#16, 0x4000#16)
  | .write _ _ _ => (0xE000#16, 0x8000#16)
  | .readPortA => (0xFFFF#16, 0x4900#16)
  | .readPortB => (0xFFFF#16, 0x5900#16)
  | .writePortA _ => (0xFF00#16, 0x8900#16)
  | .writePortB _ => (0xFF00#16, 0x9900#16)
  | .spiWriteFrame _ _ _ => (0xF9#16, 0x40#16)
  | .spiReadFrame _ _ => (0xF9#16, 0x41#16)
  | .i2cWriteFrame _ _ _ => (0xF1#16, 0x40#16)
  | .i2cReadFrame _ _ => (0xF1#16, 0x41#16)

/-- The encoding of the instruction carries its row's match under its row's mask. -/
def TableRow.Statement (i : Instr) : Prop :=
  matchedBits (encode i) &&& (tableRow i).1 = (tableRow i).2

theorem TableRow.init : TableRow.Statement .init := rfl

theorem TableRow.read (p : Port) (r : LReg) : TableRow.Statement (.read p r) := by
  cases p <;> cases r <;> rfl

theorem TableRow.write (p : Port) (r : LReg) (v : Byte) : TableRow.Statement (.write p r v) := by
  simp only [TableRow.Statement, tableRow, encode, matchedBits, hostWord]
  generalize p.bit = b
  generalize r.index = x
  refine BitVec.eq_of_getLsbD_eq fun i hi => ?_
  simp only [BitVec.getLsbD_and, BitVec.getLsbD_append]
  interval_cases i <;> simp

theorem TableRow.readPortA : TableRow.Statement .readPortA := rfl

theorem TableRow.readPortB : TableRow.Statement .readPortB := rfl

theorem TableRow.writePortA (v : Byte) : TableRow.Statement (.writePortA v) := by
  simp only [TableRow.Statement, tableRow, encode, matchedBits]
  ext i hi
  interval_cases i <;> simp

theorem TableRow.writePortB (v : Byte) : TableRow.Statement (.writePortB v) := by
  simp only [TableRow.Statement, tableRow, encode, matchedBits]
  ext i hi
  interval_cases i <;> simp

theorem TableRow.spiWriteFrame (e : BitVec 2) (a d : Byte) : TableRow.Statement (.spiWriteFrame e a d) := by
  show (spiControl e 0#1).setWidth 16 &&& 0xF9#16 = 0x40#16
  revert e; decide

theorem TableRow.spiReadFrame (e : BitVec 2) (a : Byte) : TableRow.Statement (.spiReadFrame e a) := by
  show (spiControl e 1#1).setWidth 16 &&& 0xF9#16 = 0x41#16
  revert e; decide

theorem TableRow.i2cWriteFrame (o : BitVec 3) (a d : Byte) : TableRow.Statement (.i2cWriteFrame o a d) := by
  show (i2cControl o 0#1).setWidth 16 &&& 0xF1#16 = 0x40#16
  revert o; decide

theorem TableRow.i2cReadFrame (o : BitVec 3) (a : Byte) : TableRow.Statement (.i2cReadFrame o a) := by
  show (i2cControl o 1#1).setWidth 16 &&& 0xF1#16 = 0x41#16
  revert o; decide

end Laws

end Sys2Proof
end

