-- ==== Sys2Proof/Tests/Slice0.lean ====
section
/-! SUPPORT. The model's own tests: vectors of 95_test_vectors.md and words written out from the encodings, and a witness
for every statement that has hypotheses. Expected values are the spec's or worked by hand from its rules. -/

namespace Sys2Proof.Tests

open Sys2Proof.Machine

/-! ### Helpers -/

/-- A handle without port values. -/
def handle (m : Mode) (o : BitVec 3) (b : Bank) (l : Nat) : HandleCfg :=
  { mode := m, opcode := o, bank := b, portA := { iocon := 0x80#8 }, portB := {}, csLine := l }

/-- A context in phase ph of a command of kind k at transaction t. -/
def ctxAt (ph : Phase) (k : CmdKind) (t : Txn) (pending : List Txn := []) (rd : Option Byte := none)
    (ok : Option Bool := none) : Ctx :=
  { phase := ph, cmd := some k, cur := some t, pending := pending, rdByte := rd, initOk := ok }

/-- A block of two contexts and two lines: context 0 is C on handle g, context 1 is idle. The lock and the lines are as
R175 and R177 say. -/
def block (g : HandleCfg) (C : Ctx) (i : Inputs := {}) (f : Option FaultRec := none) : State :=
  { par := { ctxHandle := [0, 1], cfg := [g, Config.handleP2], nCs := 2 }
    lock := if C.phase.holdsLock then some 0 else none
    cs := [C.phase.assertsCs && g.csLine == 0, C.phase.assertsCs && g.csLine == 1]
    ctx := [C, {}]
    fault := f
    spiBusy := false
    trace := []
    inp := i
    tick := 0
    readData := none }

/-- A field of the next state, if the step answers one. -/
def after {α : Type} (s : State) (f : State → α) : Option α :=
  match step s with
  | .next t => some (f t)
  | .fault _ => none
  | .refused _ => none

/-- The handle of P1 and an I2C handle. -/
def gSpi : HandleCfg := handle .spi 0b101#3 .bank0 0
def gI2c : HandleCfg := handle .i2c 0b110#3 .bank1 1

/-- A write of word w to `CMD[0]`. -/
def cmd (w : Word16) : Inputs := cmdTurn 0 w

/-- An idle context with a held word. -/
def heldCtx (w : Word16) : Ctx := { held := some w }

/-! ### WellFormed (R111) -/

theorem test_wellFormed_refuses_spi_write_address_27 :
    (Instr.spiWriteFrame 0#2 27#8 0#8).wellFormed = false := by decide
theorem test_wellFormed_refuses_spi_read_address_27 : (Instr.spiReadFrame 0#2 27#8).wellFormed = false := by decide
theorem test_wellFormed_refuses_i2c_write_address_27 :
    (Instr.i2cWriteFrame 0#3 27#8 0#8).wellFormed = false := by decide
theorem test_wellFormed_refuses_i2c_read_address_255 : (Instr.i2cReadFrame 0#3 255#8).wellFormed = false := by decide
theorem test_wellFormed_admits_address_26 : (Instr.i2cReadFrame 7#3 26#8).wellFormed = true := by decide
theorem test_params_refuse_no_context : ¬ (Params.mk [] [gSpi] 1).WellFormed := by decide
theorem test_params_refuse_no_line : ¬ (Params.mk [0] [gSpi] 0).WellFormed := by decide
theorem test_params_refuse_absent_handle : ¬ (Params.mk [1] [gSpi] 1).WellFormed := by decide
theorem test_params_refuse_absent_line : ¬ (Params.mk [0] [gI2c] 1).WellFormed := by decide
theorem test_params_of_reset : Config.params.WellFormed := by decide

/-! ### Decode: words written out from R91, R99, R102 to R105 (OP, RSVD, PORT, REG, DATA) -/

theorem test_decode_init : decode (.word 0b00_0_0_0000_00000000#16) = .instr .init := by decide
theorem test_decode_read : decode (.word 0b01_0_0_1010_00000000#16) = .instr (.read .A .olat) := by decide
theorem test_decode_write :
    decode (.word 0b10_0_1_1010_11111111#16) = .instr (.write .B .olat 0xFF#8) := by decide
theorem test_decode_readPortA : decode (.word 0b01_0_0_1001_00000000#16) = .instr Instr.readPortA.core := by decide
theorem test_decode_readPortB : decode (.word 0b01_0_1_1001_00000000#16) = .instr Instr.readPortB.core := by decide
theorem test_decode_writePortA :
    decode (.word 0b10_0_0_1001_00111100#16) = .instr (Instr.writePortA 0x3C#8).core := by decide
theorem test_decode_writePortB :
    decode (.word 0b10_0_1_1001_10100101#16) = .instr (Instr.writePortB 0xA5#8).core := by decide
theorem test_decode_spiWriteFrame :
    decode (.spi [0b01000_11_0#8, 0x00#8, 0x00#8]) = .instr (.spiWriteFrame 3#2 0x00#8 0x00#8) := by decide
theorem test_decode_spiReadFrame :
    decode (.spi [0b01000_11_1#8, 0x09#8, 0x00#8]) = .instr (.spiReadFrame 3#2 0x09#8) := by decide
theorem test_decode_i2cWriteFrame :
    decode (.i2c [0b0100_100_0#8, 0x1A#8, 0x80#8]) = .instr (.i2cWriteFrame 4#3 0x1A#8 0x80#8) := by decide
theorem test_decode_i2cReadFrame :
    decode (.i2c [0b0100_110_1#8, 0x19#8]) = .instr (.i2cReadFrame 6#3 0x19#8) := by decide

/-- V-DEC, the illegal words. -/
theorem test_vdec_illegal :
    ([0x0001, 0x0100, 0x1000, 0x2000, 0x6900, 0xC000, 0xFFFF, 0x4B00, 0x4F00, 0x4001, 0x49FF, 0x8B00, 0x8F12, 0xA000,
      0xBFFF].map fun n => (decode (.word (BitVec.ofNat 16 n))).toOption) = List.replicate 15 none := by decide

/-- V-DEC, the legal words. -/
theorem test_vdec_legal :
    ([0x0000, 0x4000, 0x4900, 0x5900, 0x4A00, 0x5500, 0x8000, 0x8500, 0x8AFF, 0x99A5, 0x9A00, 0x9700, 0x9800].map
      fun n => (decode (.word (BitVec.ofNat 16 n))).toOption) =
    [some .init, some (.read .A .iodir), some (.read .A .gpio), some (.read .B .gpio), some (.read .A .olat),
     some (.read .B .iocon), some (.write .A .iodir 0#8), some (.write .A .iocon 0#8), some (.write .A .olat 0xFF#8),
     some (.write .B .gpio 0xA5#8), some (.write .B .olat 0#8), some (.write .B .intf 0#8),
     some (.write .B .intcap 0#8)] := by decide

/-- Frames that are none: bit 3 set on SPI, an address beyond the map, a dummy byte that is not 0, a wrong length. -/
theorem test_decode_refuses_frames :
    ([Code.spi [0x48#8, 0x00#8, 0x00#8], .spi [0x40#8, 0x1B#8, 0x00#8], .spi [0x41#8, 0x00#8, 0x01#8], .spi [0x41#8, 0#8],
      .i2c [0x50#8, 0x00#8, 0x00#8], .i2c [0x41#8, 0x00#8, 0x00#8], .i2c [0x40#8, 0x00#8], .i2c [0x41#8, 0x1B#8],
      .i2c []].map decode) =
    [.illegal .controlByte, .illegal .addressByte, .illegal .dummyByte, .illegal .frameLength, .illegal .controlByte,
     .illegal .controlByte, .illegal .controlByte, .illegal .addressByte, .illegal .frameLength] := by decide

/-- The table's words, as the host numbers them. -/
theorem test_decodeTableWord :
    decodeTableWord 16 0x99A5 = some (.write .B .gpio 0xA5#8) ∧ decodeTableWord 16 0x2000 = none ∧
    decodeTableWord 8 0x42 = some (.spiWriteFrame 1#2 0#8 0#8) ∧ decodeTableWord 8 0x43 = some (.spiReadFrame 1#2 0#8) ∧
    decodeTableWord 8 0x4C = some (.i2cWriteFrame 6#3 0#8 0#8) ∧ decodeTableWord 8 0x4D = some (.i2cReadFrame 6#3 0#8) ∧
    decodeTableWord 8 0x50 = none := by decide

/-- The assembler vectors (95_test_vectors.md 3.3). -/
theorem test_assembler :
    assemble "INIT".toList = some 0x0000#16 ∧ assemble "read b, gpio".toList = some 0x5900#16 ∧
    assemble "READ A, #10".toList = some 0x4A00#16 ∧ assemble "WRITE B, OLAT, 255".toList = some 0x9AFF#16 ∧
    assemble "WRITE_PORT_A 0x3C ; a comment".toList = some 0x893C#16 ∧
    assembleLine "READ A, #11".toList = .refused ∧ assembleLine "WRITE A, GPIO, 256".toList = .refused ∧
    assembleLine "  ; nothing".toList = .empty := by decide

/-! ### Address resolver and frame builder -/

/-- V-RES, all 44 inputs, register by register: Bank0 A, Bank0 B, Bank1 A, Bank1 B. -/
theorem test_vres :
    ([LReg.iodir, .ipol, .gpinten, .defval, .intcon, .iocon, .gppu, .intf, .intcap, .gpio, .olat].map fun r =>
      [resolve .bank0 .A r, resolve .bank0 .B r, resolve .bank1 .A r, resolve .bank1 .B r]) =
    [[0x00, 0x01, 0x00, 0x10], [0x02, 0x03, 0x01, 0x11], [0x04, 0x05, 0x02, 0x12], [0x06, 0x07, 0x03, 0x13],
     [0x08, 0x09, 0x04, 0x14], [0x0A, 0x0B, 0x05, 0x15], [0x0C, 0x0D, 0x06, 0x16], [0x0E, 0x0F, 0x07, 0x17],
     [0x10, 0x11, 0x08, 0x18], [0x12, 0x13, 0x09, 0x19], [0x14, 0x15, 0x0A, 0x1A]] := by decide

/-- V-FRM FR1 to FR11. -/
theorem test_vfrm_control :
    effop .spi 4#3 = 0#3 ∧ effop .spi 7#3 = 3#3 ∧ effop .i2c 7#3 = 7#3 ∧ effop .spi 5#3 = 1#3 ∧
    ctrl .spi 5#3 .read = 0x43#8 ∧ ctrl .i2c 5#3 .write = 0x4A#8 ∧ ctrl .i2c 5#3 .read = 0x4B#8 ∧
    ctrl .spi 0#3 .write = 0x40#8 ∧ ctrl .i2c 7#3 .read = 0x4F#8 ∧ ctrl .spi 1#3 .write = 0x42#8 ∧
    ctrl .spi 5#3 .write = 0x42#8 ∧ sla 0#3 = 0x00#8 ∧ sla 6#3 = 0x06#8 ∧ sla 7#3 = 0x07#8 := by decide

/-- V-FRM FR12 to FR18. -/
theorem test_vfrm_frames :
    buildFrame .spi 5#3 0x13#8 .write 0xA5#8 = [0x42#8, 0x13#8, 0xA5#8] ∧
    buildFrame .spi 5#3 0x13#8 .read 0xA5#8 = [0x43#8, 0x13#8] ∧
    spiTx [0x43#8, 0x13#8] .read = [0x43#8, 0x13#8, 0x00#8] ∧
    spiTx [0x42#8, 0x13#8, 0xA5#8] .write = [0x42#8, 0x13#8, 0xA5#8] ∧
    buildFrame .i2c 6#3 0x19#8 .read 0#8 = [0x4D#8, 0x19#8] ∧
    buildFrame .i2c 4#3 0x1A#8 .write 0x80#8 = [0x48#8, 0x1A#8, 0x80#8] ∧
    buildFrame .spi 3#3 0x00#8 .write 0x00#8 = [0x46#8, 0x00#8, 0x00#8] := by decide

/-! ### One step of the sequencer (V-SEQ) -/

theorem test_S1 :
    after (block (handle .spi 0#3 .bank0 0) (ctxAt .lockWait .read (txnRead .A .gpio)))
      (fun t => (t.lock, (t.getCtx 0).phase, t.trace)) = some (some 0, .csAssert, [.lock 0]) := by decide
theorem test_S2 :
    after { block gSpi (ctxAt .lockWait .read (txnRead .A .gpio)) with lock := some 1 }
      (fun t => (t.lock, (t.getCtx 0).phase, t.trace)) = some (some 1, .lockWait, []) := by decide
theorem test_S3 :
    after (block gI2c (ctxAt .lockWait .read (txnRead .A .gpio)))
      (fun t => (t.lock, (t.getCtx 0).phase, t.trace)) = some (some 0, .i2cWrite, [.lock 0]) := by decide
theorem test_S4 :
    after (block (handle .spi 0#3 .bank0 1) (ctxAt .csAssert .read (txnRead .A .gpio)))
      (fun t => (t.cs, (t.getCtx 0).phase, t.trace)) = some ([false, true], .waitIdlePre, [.cs 0 1 true]) := by decide
theorem test_S5 :
    after (block gSpi (ctxAt .csAssert .init txnPulse)) (fun t => (t.cs, (t.getCtx 0).phase, t.trace)) =
      some ([true, false], .csDeassert, [.cs 0 0 true]) := by decide
theorem test_S6_S7 :
    let s := block gSpi (ctxAt .waitIdlePre .read (txnRead .A .gpio))
    after { s with spiBusy := true } (fun t => (t.getCtx 0).phase) = some .waitIdlePre ∧
    after s (fun t => (t.getCtx 0).phase) = some .spiXfer := by decide
theorem test_S8 :
    after (block (handle .spi 7#3 .bank1 0) (ctxAt .spiXfer .read (txnRead .A .gpio))
        { rx0 := 0x11#8, rx1 := 0x22#8, rx2 := 0x5A#8 })
      (fun t => ((t.getCtx 0).rdByte, (t.getCtx 0).phase, t.trace)) =
    some (some 0x5A#8, .waitIdlePost, [.spi 0 [0x47#8, 0x09#8, 0x00#8] [0x11#8, 0x22#8, 0x5A#8] .ok]) := by decide
theorem test_S9 :
    after (block (handle .spi 0#3 .bank0 0) (ctxAt .spiXfer .write (txnWrite .B .ipol 0xFF#8)) { rx2 := 9#8 })
      (fun t => ((t.getCtx 0).rdByte, (t.getCtx 0).phase, t.trace)) =
    some (none, .waitIdlePost, [.spi 0 [0x40#8, 0x03#8, 0xFF#8] [0#8, 0#8, 9#8] .ok]) := by decide
theorem test_S10 :
    let s := block (handle .spi 0#3 .bank0 0) (ctxAt .spiXfer .write (txnWrite .B .ipol 0xFF#8)) { spiSt := .error }
    after s (fun t => (t.faultStatus, t.ctxStatus 0, t.cs, t.lock)) = some (0x0403#16, 0x41#8, [true, false], some 0) ∧
    after s (fun t => t.trace) =
      some [.spi 0 [0x40#8, 0x03#8, 0xFF#8] [0#8, 0#8, 0#8] .error, .fault 0 .spiXferError] := by decide
theorem test_S11_S12 :
    after (block gSpi (ctxAt .waitIdlePost .write (txnWrite .B .ipol 0xFF#8))) (fun t => (t.getCtx 0).phase) =
      some .csDeassert ∧
    after (block (handle .spi 0#3 .bank0 1) (ctxAt .csDeassert .write (txnWrite .B .ipol 0xFF#8)))
      (fun t => (t.cs, (t.getCtx 0).phase, t.trace)) = some ([false, false], .release, [.cs 0 1 false]) := by decide
theorem test_S13 :
    after (block (handle .i2c 7#3 .bank0 0) (ctxAt .i2cWrite .read (txnRead .B .intcap)))
      (fun t => ((t.getCtx 0).phase, t.trace)) = some (.i2cRead, [.i2cW 0 0x07#8 [0x4F#8, 0x11#8] .ok]) := by decide
theorem test_S14 :
    after (block (handle .i2c 4#3 .bank1 0) (ctxAt .i2cWrite .write (txnWrite .B .olat 0x80#8)))
      (fun t => ((t.getCtx 0).phase, t.trace)) =
    some (.release, [.i2cW 0 0x04#8 [0x48#8, 0x1A#8, 0x80#8] .ok]) := by decide
theorem test_S15 :
    after (block (handle .i2c 4#3 .bank1 0) (ctxAt .i2cWrite .write (txnWrite .B .olat 0x80#8)) { i2cTxSt := .timeout })
      (fun t => (t.faultStatus, t.ctxStatus 0, t.cs, t.lock)) =
    some (0x0709#16, 0x71#8, [false, false], some 0) := by decide
theorem test_S16 :
    after (block (handle .i2c 7#3 .bank0 0) (ctxAt .i2cRead .read (txnRead .B .intcap)) { i2cRxByte := 0x3C#8 })
      (fun t => ((t.getCtx 0).rdByte, (t.getCtx 0).phase, t.trace)) =
    some (some 0x3C#8, .release, [.i2cR 0 0x07#8 0x3C#8 .ok]) := by decide
theorem test_S17 :
    after (block gI2c (ctxAt .release .init (txnWrite .A .iodir 0#8) [txnWrite .A .ipol 1#8, txnWrite .A .gpinten 2#8]))
      (fun t => (t.lock, (t.getCtx 0).cur, (t.getCtx 0).pending, (t.getCtx 0).phase, t.trace)) =
    some (none, some (txnWrite .A .ipol 1#8), [txnWrite .A .gpinten 2#8], .lockWait, [.unlock 0]) := by decide
theorem test_S18_S19 :
    after (block gI2c (ctxAt .release .init txnCheck [txnWrite .A .iodir 0#8] (some 0x80#8)))
      (fun t => ((t.getCtx 0).initOk, (t.getCtx 0).phase)) = some (some true, .lockWait) ∧
    after (block gI2c (ctxAt .release .init txnCheck [txnWrite .A .iodir 0#8] (some 0x00#8)))
      (fun t => ((t.getCtx 0).initOk, (t.getCtx 0).phase, t.fault)) = some (some false, .lockWait, none) := by decide
theorem test_S20 :
    after (block gSpi (ctxAt .release .read (txnRead .A .gpio) [] (some 0xA5#8)))
      (fun t => (t.lock, (t.getCtx 0).rspData, (t.getCtx 0).cur, t.ctxStatus 0, t.trace)) =
    some (none, some 0xA5#8, none, 0x02#8, [.unlock 0, .respond 0 .read (.byte 0xA5#8)]) := by decide
theorem test_S21 :
    after (block gSpi (ctxAt .release .init (txnWrite .B .olat 0#8) [] none (some false)))
      (fun t => ((t.getCtx 0).rspOk, t.ctxStatus 0, t.trace)) =
    some (some false, 0x04#8, [.unlock 0, .respond 0 .init (.bool false)]) := by decide

/-! ### Faults at ACCEPT and reset (V-FLT X7 to X9, V-RST) -/

theorem test_X7 :
    after (block (handle .undefined 0#3 .bank0 0) {} (cmd 0x4900#16)) (fun t => (t.faultStatus, t.ctxStatus 0, t.lock)) =
      some (0x000F#16, 0x00#8, none) := by decide
theorem test_X8_X9 :
    after (block gSpi {} (cmd 0x4B00#16)) (fun t => (t.faultStatus, t.trace)) =
      some (0x0011#16, [.accept 0 0x4B00#16, .fault 0 .illegalCmd]) ∧
    after (block (handle .undefined 0#3 .bank0 0) {} (cmd 0x4B00#16)) (fun t => t.faultStatus) =
      some 0x0011#16 := by decide
theorem test_X5_X6 :
    after (block gI2c (ctxAt .i2cRead .read (txnRead .A .gpio)) { i2cRxSt := .error }) (fun t => t.faultStatus) =
      some 0x080B#16 ∧
    after (block gI2c (ctxAt .i2cRead .read (txnRead .A .gpio)) { i2cRxSt := .timeout })
      (fun t => (t.faultStatus, t.faultCtx, t.faultDev, (t.getCtx 0).rspData)) =
      some (0x080D#16, 0x00#8, 0x00#8, none) := by decide
theorem test_RS1 :
    State.reset.ctxStatus 0 = 0x00#8 ∧ State.reset.ctxStatus 1 = 0x00#8 ∧ State.reset.faultStatus = 0x0000#16 ∧
    State.reset.faultCtx = 0x00#8 ∧ State.reset.faultDev = 0x00#8 ∧ State.reset.lock = none ∧
    State.reset.cs = [false, false] ∧ State.reset.escalate = false ∧ State.reset.trace = [] ∧
    State.reset.readReg 0 .rspData = none ∧ State.reset.readReg 0 .rspOk = none := by decide
theorem test_RS2_RS3 :
    (block gSpi (ctxAt .lockWait .read (txnRead .A .gpio))).ctxStatus 0 = 0x11#8 ∧
    (block gSpi (ctxAt .release .read (txnRead .A .gpio))).ctxStatus 0 = 0x91#8 := by decide
theorem test_RS4_RS7 :
    (block gSpi { rspData := some 1#8 }).ctxStatus 0 = 0x02#8 ∧ (block gSpi { rspOk := some true }).ctxStatus 0 = 0x0C#8 ∧
    (block gSpi { rspData := some 1#8, rspOk := some true }).ctxStatus 0 = 0x0E#8 ∧
    (block gSpi { rspOk := some false }).ctxStatus 0 = 0x04#8 := by decide
theorem test_RS8_reset_from_fault :
    after (block gSpi (ctxAt .spiXfer .read (txnRead .A .gpio)) { turn := .reset }
        (some ⟨.spiXferError, 0, 0, .spiXfer⟩))
      (fun t => (t.lock, t.cs, t.ctx, t.trace)) = some (none, [false, false], [{}, {}], []) := by decide
theorem test_RS9 :
    after (block gSpi { rspData := some 1#8 } { turn := .hostWrite .ctxStatus, word := 0xFF#16 })
      (fun t => (t.ctxStatus 0, t.ctx)) = some (0x02#8, [{ rspData := some 1#8 }, {}]) := by decide
theorem test_RS10 :
    after (block gSpi (ctxAt .spiXfer .read (txnRead .A .gpio)) (cmd 0x5900#16))
      (fun t => ((t.getCtx 0).phase, (t.getCtx 0).held, t.trace)) = some (.spiXfer, some 0x5900#16, []) ∧
    after (block gSpi (heldCtx 0x5900#16) { turn := .cmdHeld })
      (fun t => ((t.getCtx 0).phase, (t.getCtx 0).held, t.trace)) =
      some (.lockWait, none, [.accept 0 0x5900#16]) := by decide
theorem test_host_reads :
    after (block gSpi { rspData := some 0xA5#8 } { turn := .hostRead .rspData }) (fun t => t.readData) =
      some (some 0xA5#16) ∧
    after (block gSpi {} { turn := .hostRead .cmd }) (fun t => t.readData) = some none ∧
    after (block gSpi {} { turn := .hostRead .faultStatus }) (fun t => t.readData) = some (some 0#16) := by decide

/-! ### The first step after reset -/

theorem test_fetch_init :
    after (State.reset.withFetchWord 16 0x0000) (fun t => (t.getCtx 0).cmd) = some (some .init) := by decide
theorem test_fetch_read :
    after (State.reset.withFetchWord 16 0x4A00) (fun t => (t.getCtx 0).cur) = some (some (txnRead .A .olat)) := by decide
theorem test_fetch_write :
    after (State.reset.withFetchWord 16 0x99A5) (fun t => (t.getCtx 0).cur) =
      some (some (txnWrite .B .gpio 0xA5#8)) := by decide
theorem test_fetch_port_wrappers :
    ([0x4900, 0x5900, 0x893C, 0x993C].map fun w =>
      after (State.reset.withFetchWord 16 w) fun t => (t.getCtx 0).cur) =
    [some (some (txnRead .A .gpio)), some (some (txnRead .B .gpio)), some (some (txnWrite .A .gpio 0x3C#8)),
     some (some (txnWrite .B .gpio 0x3C#8))] := by decide
theorem test_fetch_spi_frames :
    ([0x46, 0x47].map fun w => after (State.reset.withFetchWord 8 w) fun t => t.trace) =
    [some [.spi 0 [0x46#8, 0#8, 0#8] [0#8, 0#8, 0#8] .ok], some [.spi 0 [0x47#8, 0#8, 0#8] [0#8, 0#8, 0#8] .ok]] := by
  decide
theorem test_fetch_i2c_frames :
    ([0x4E, 0x4F].map fun w => after (State.reset.withFetchWord 8 w) fun t => t.trace) =
    [some [.i2cW 0 0x07#8 [0x4E#8, 0#8, 0#8] .ok], some [.i2cW 0 0x07#8 [0x4F#8, 0#8] .ok]] := by decide

/-! ### The fixture LB (R84, R213) -/

/-- A bench whose devices hold nothing but address 1 of device 1. -/
def bench (s : State) : Bench := { dev := { mem := [[], [(1, 7#8)]], ptr := [0#8, 0#8] }, st := s }

theorem test_loopback_spi :
    (benchTransaction 0 (.write .B .gpio 0xA5#8) (txnWrite .B .gpio 0xA5#8) (bench (block gSpi {}))).dev.mem =
      [[(0x13, 0xA5#8)], [(1, 7#8)]] := by decide
theorem test_memory_canonical :
    memWrite (memWrite (memWrite [] 5 1#8) 2 9#8) 5 0#8 = [(2, 9#8)] ∧ (memWrite [] 5 1#8).wf ∧
    memRead [(2, 9#8)] 2 = 9#8 ∧ memRead [(2, 9#8)] 5 = 0#8 := by decide

/-! ### Witnesses: for each statement with hypotheses, states and operands that meet them -/

/-- The block satisfies the invariant where its context does and its fault record is context 0's. -/
theorem block_inv {g : HandleCfg} {C : Ctx} (i : Inputs) {f : Option FaultRec} (hg : g.csLine < 2) (hC : CtxInv g C)
    (hf : ∀ r, f = some r → r.ctx = 0 ∧ r.dev = 0 ∧ r.phase = C.phase ∧ r.phase = r.cause.raisedIn) :
    Inv (block g C i f) := by
  have h1 : CtxInv Config.handleP2 {} := by
    constructor <;> simp [Phase.onSpi, Phase.onI2c, Phase.regOnly, Phase.afterRead]
  have hlock : ∀ c, (block g C i f).lock = some c ↔ c = 0 ∧ C.phase.holdsLock = true := by
    intro c
    by_cases h : C.phase.holdsLock = true <;> simp [block, h, eq_comm]
  have hsub : C.phase.assertsCs = true → C.phase.holdsLock = true := by cases C.phase <;> decide
  refine ⟨⟨by simp [block], by simp [block], ?_, ?_⟩, rfl, rfl, ?_, ?_, ?_, ?_, ?_⟩
  · intro h hh
    simp [block] at hh ⊢
    omega
  · intro h hh
    simp [block] at hh ⊢
    rcases hh with rfl | rfl
    exacts [Nat.le_of_lt_succ hg, by decide]
  · intro c hc
    rw [((hlock c).1 hc).1]
    exact Nat.zero_lt_two
  · intro c hc
    rw [hlock]
    have hc : c < 2 := hc
    interval_cases c
    · simp [block, State.getCtx]
    · simp [block, State.getCtx, Phase.holdsLock]
  · intro l hl
    simp only [hlock]
    have hl : l < 2 := hl
    have hline : ((block g C i f).par.handleCfg 0).csLine = g.csLine := rfl
    have hphase : ((block g C i f).getCtx 0).phase = C.phase := rfl
    constructor
    · intro h
      refine ⟨0, ⟨rfl, hsub ?_⟩, ?_, ?_⟩ <;> interval_cases l <;>
        simp_all [block, State.getCs]
    · rintro ⟨c, ⟨rfl, -⟩, ha, hb⟩
      rw [hline] at ha
      rw [hphase] at hb
      interval_cases l <;> simp [block, State.getCs, hb, ha]
  · intro c hc
    have hc : c < 2 := hc
    interval_cases c
    exacts [hC, h1]
  · intro r hr
    obtain ⟨h1, h2, h3, h4⟩ := hf r hr
    rw [h1]
    exact ⟨Nat.zero_lt_two, h2, h3, h4⟩

theorem idle_inv (g : HandleCfg) (C : Ctx) (h : C.phase = .idle) (h1 : C.cur = none) (h2 : C.pending = []) :
    CtxInv g C := by
  constructor <;> simp [h, h1, h2, Phase.onSpi, Phase.onI2c, Phase.regOnly, Phase.afterRead]

/-- A context at a READ in a phase of its bus satisfies its invariant. -/
theorem read_inv {g : HandleCfg} {ph : Phase} {p : Port} {r : LReg} {b : Byte} (hm : g.mode ≠ .undefined)
    (h1 : ph.onSpi = true → g.mode = .spi) (h2 : ph.onI2c = true → g.mode = .i2c) :
    ph ≠ .idle → CtxInv g (ctxAt ph .read (txnRead p r) [] (some b)) := by
  intro h
  constructor <;> simp_all [ctxAt, CommandShape, txnRead]

/-- A context at a WRITE in a phase of its bus satisfies its invariant. -/
theorem write_inv {g : HandleCfg} {ph : Phase} {p : Port} {r : LReg} {v : Byte} (hm : g.mode ≠ .undefined)
    (h1 : ph.onSpi = true → g.mode = .spi) (h2 : ph.onI2c = true → g.mode = .i2c) (h3 : ph ≠ .i2cRead) :
    ph ≠ .idle → CtxInv g (ctxAt ph .write (txnWrite p r v)) := by
  intro h
  constructor <;> simp_all [ctxAt, CommandShape, txnWrite]

/-! Encoding. -/

theorem witness_DecodeOfEncode : (Instr.i2cReadFrame 7#3 26#8).wellFormed = true ∧ Instr.readPortB.wellFormed = true := by
  decide
theorem witness_EncodeOfDecode :
    decode (.word 0x9AFF#16) = .instr (.write .B .olat 0xFF#8) ∧
    decode (.spi [0x47#8, 26#8, 0#8]) = .instr (.spiReadFrame 3#2 26#8) ∧
    decode (.i2c [0x4F#8, 26#8]) = .instr (.i2cReadFrame 7#3 26#8) := by decide
theorem witness_IllegalWordsFault :
    (block gSpi {} (cmd 0x4B00#16)).cmdWriteTurn 0x4B00#16 ∧ (block gSpi {} (cmd 0x4B00#16)).readyToAccept ∧
    decode (.word 0x4B00#16) = .illegal .regOutOfRange := by decide
/-- A command by name, one by index, a pseudo-instruction with a comment, an empty line and a refused one. -/
theorem witness_AssemblerIsFaithful :
    SpellsLine "read b, gpio".toList (.read .B .gpio) ∧ SpellsLine "WRITE A,#10,0xfF".toList (.write .A .olat 0xFF#8) ∧
    SpellsLine "write_port_b 165 ; x".toList (.writePortB 0xA5#8) ∧ LineOf [] " ; x".toList ∧
    ¬ LineOf [] "READ A, #11".toList ∧ assembleLine "READ A, #11".toList = .refused ∧
    SpellsDecimal "11".toList 11 ∧ SpellsDecimal "256".toList 256 := by
  refine ⟨⟨_, (command?_eq_some_iff _ _).1 ?_, _, lays_tokens "read b, gpio".toList [] (by decide) (by simp), .inl rfl⟩,
    ⟨_, (command?_eq_some_iff _ _).1 ?_, _, lays_tokens "WRITE A,#10,0xfF".toList [] (by decide) (by simp), .inl rfl⟩,
    ⟨_, (command?_eq_some_iff _ _).1 ?_, _, lays_tokens "write_port_b 165 ".toList [] (by decide) (by simp),
      .inr ⟨" x".toList, rfl⟩⟩,
    ⟨_, lays_tokens " ".toList [] (by decide) (by simp), .inr ⟨" x".toList, rfl⟩⟩, ?_, by decide,
    (decimal?_eq_some_iff _ _).1 (by decide), (decimal?_eq_some_iff _ _).1 (by decide)⟩
  · decide
  · decide
  · decide
  · rintro ⟨text, hl, h | ⟨rest, h⟩⟩
    · have e := hl.tokens_eq
      rw [← h] at e
      revert e
      decide
    · have hm : ';' ∈ "READ A, #11".toList := by rw [h]; simp
      revert hm
      decide

/-! Runs from reset: a READ whose exchange fails, and one whose exchange answers. -/

/-- A schedule: a READ is accepted by context 0 and stepped to the end of its exchange. -/
def schedule (st : Status) : List Inputs :=
  [cmd 0x4900#16, contextTurn 0 {}, contextTurn 0 {}, contextTurn 0 {}, contextTurn 0 { spiSt := st }]

/-- The states after each step of a schedule are reachable. -/
def runAll : List Inputs → State → State
  | [], s => s
  | i :: is, s => match step (s.present i) with
    | .next t => runAll is t
    | .fault _ => s
    | .refused _ => s

theorem runAll_reachable {p : Params} {s : State} (is : List Inputs) (h : Reachable p s) :
    Reachable p (runAll is s) := by
  induction is generalizing s with
  | nil => exact h
  | cons i is ih =>
    unfold runAll
    split
    · next t ht => exact ih (.step s t i h ht)
    · exact h
    · exact h

theorem witness_reachable_fault :
    let s := runAll (schedule .error) State.reset
    Config.params.WellFormed ∧ Reachable Config.params s ∧ s.fault ≠ none ∧
    s.trace = [.accept 0 0x4900#16, .lock 0, .cs 0 0 true, .spi 0 [0x43#8, 0x12#8, 0#8] [0#8, 0#8, 0#8] .error,
      .fault 0 .spiXferError] := by
  refine ⟨by decide, runAll_reachable _ (.reset false), by decide, by decide⟩

theorem witness_reachable_run :
    let s := runAll (schedule .ok) State.reset
    Config.params.WellFormed ∧ Reachable Config.params s ∧ s.lock = some 0 ∧ s.getCs 0 = true ∧
    (s.getCtx 0).phase = .waitIdlePost ∧
    ∃ t, step (s.present (contextTurn 0 {})) = .next t := by
  refine ⟨by decide, runAll_reachable _ (.reset false), by decide, by decide, by decide, _, rfl⟩

/-! The step. -/

/-- The phases of a READ and a WRITE on each bus, with their invariant. -/
def spiRead (ph : Phase) : Ctx := ctxAt ph .read (txnRead .B .gpio) [] (some 0x11#8)
def spiWrite (ph : Phase) : Ctx := ctxAt ph .write (txnWrite .A .olat 0xFF#8)

theorem spiRead_inv (ph : Phase) (i : Inputs) (h : ph ≠ .idle) (h2 : ph.onI2c = false) :
    Inv (block gSpi (spiRead ph) i) :=
  block_inv i (by decide) (read_inv (by decide) (fun _ => rfl) (by simp [h2]) h) (by simp)

theorem i2cRead_inv (ph : Phase) (i : Inputs) (h : ph ≠ .idle) (h2 : ph.onSpi = false) :
    Inv (block gI2c (spiRead ph) i) :=
  block_inv i (by decide) (read_inv (by decide) (by simp [h2]) (fun _ => rfl) h) (by simp)

theorem idle_block_inv (g : HandleCfg) (i : Inputs) (w : Option Word16) (hg : g.csLine < 2) :
    Inv (block g { held := w } i) :=
  block_inv i hg (idle_inv g _ rfl rfl rfl) (by simp)

theorem witness_DueFrameDecodes :
    (Inv (block gSpi (spiRead .spiXfer)) ∧
      dueFrame (block gSpi (spiRead .spiXfer)) 0 = some (.spi [0x43#8, 0x13#8, 0#8])) ∧
    (Inv (block gI2c (spiRead .i2cWrite)) ∧
      dueFrame (block gI2c (spiRead .i2cWrite)) 0 = some (.i2c [0x4D#8, 0x19#8])) ∧
    (Inv (block gI2c (spiRead .i2cRead)) ∧
      dueFrame (block gI2c (spiRead .i2cRead)) 0 = some (.i2c [0x4D#8, 0x19#8])) :=
  ⟨⟨spiRead_inv _ _ (by decide) rfl, by decide⟩, ⟨i2cRead_inv _ _ (by decide) rfl, by decide⟩,
    ⟨i2cRead_inv _ _ (by decide) rfl, by decide⟩⟩

/-- A run of the decoded instruction, and its one stop: a context that does not exist. -/
theorem witness_StepRunsDecodedInstruction :
    (fetch (block gSpi {} (cmd 0x5900#16)) = some (.word 0x5900#16) ∧
      decode (.word 0x5900#16) = .instr (.read .B .gpio) ∧ (Instr.read .B .gpio).wellFormed = true ∧
      ∃ t, exec (.read .B .gpio) (block gSpi {} (cmd 0x5900#16)) = .next t) ∧
    (fetch (block gSpi {} (cmdTurn 2 0x5900#16)) = some (.word 0x5900#16) ∧
      exec (.read .B .gpio) (block gSpi {} (cmdTurn 2 0x5900#16)) = .fault .noSuchContext) :=
  ⟨⟨rfl, by decide, rfl, _, rfl⟩, rfl, rfl⟩

theorem witness_FetchOfATurn :
    (block gSpi {} (cmd 0x5900#16)).cmdWriteTurn 0x5900#16 ∧
    ((block gSpi (heldCtx 1#16) { turn := .cmdHeld }).inp.turn = .cmdHeld ∧
      ((block gSpi (heldCtx 1#16) { turn := .cmdHeld }).getCtx 0).held = some 1#16) ∧
    (block gSpi (spiRead .spiXfer)).contextTurn .spiXfer ∧ (block gI2c (spiRead .i2cWrite)).contextTurn .i2cWrite ∧
    (block gI2c (spiRead .i2cRead)).contextTurn .i2cRead ∧ (txnRead .B .gpio).rw = .read ∧
    ((block gSpi (heldCtx 1#16) (cmd 2#16)).getCtx 0).held ≠ none ∧ ((block gSpi {}).getCtx 0).held = none ∧
    (block gSpi (spiRead .lockWait)).contextTurn .lockWait ∧
    (block gSpi (spiRead .spiXfer) {} (some ⟨.spiXferError, 0, 0, .spiXfer⟩)).fault ≠ none := by decide

/-! Commands. -/

theorem witness_AcceptOfAWord :
    let s := fun w => block gSpi {} (cmd w)
    let u := fun w => block (handle .undefined 0#3 .bank0 0) {} (cmd w)
    let h := block gSpi (heldCtx 0x0000#16) { turn := .cmdHeld }
    let b := block gSpi (spiRead .lockWait) (cmd 0x5900#16)
    ((s 0x2000#16).cmdWriteTurn 0x2000#16 ∧ (s 0x2000#16).readyToAccept ∧
      decode (.word 0x2000#16) = .illegal .rsvdSet) ∧
    ((u 0x5900#16).cmdWriteTurn 0x5900#16 ∧ (u 0x5900#16).readyToAccept ∧
      ((u 0x5900#16).par.handleCfg 0).mode = .undefined) ∧
    ((s 0x5900#16).cmdWriteTurn 0x5900#16 ∧ (s 0x5900#16).readyToAccept ∧
      ((s 0x5900#16).par.handleCfg 0).mode ≠ .undefined ∧ decode (.word 0x9A00#16) = .instr (.write .B .olat 0#8)) ∧
    (h.turnLegal ∧ h.readyToAccept ∧ (h.getCtx 0).held = some 0x0000#16 ∧ decode (.word 0#16) = .instr .init) ∧
    (b.cmdWriteTurn 0x5900#16 ∧ ¬ b.readyToAccept) := by decide

/-- For the completion of INIT, READ, WRITE and the port wrappers. -/
theorem witness_CommandsAreAccepted :
    (block gSpi {}).turnLegal ∧ (block gSpi {}).readyToAccept ∧ ((block gSpi {}).par.handleCfg 0).mode ≠ .undefined ∧
    (block gI2c {}).turnLegal ∧ (block gI2c {}).readyToAccept ∧ ((block gI2c {}).par.handleCfg 0).mode ≠ .undefined := by
  decide

theorem witness_UndefinedModeFaults :
    let u := block (handle .undefined 0#3 .bank0 0) {}
    encode .init = .word 0#16 ∧ u.turnLegal ∧ u.readyToAccept ∧ (u.par.handleCfg u.inp.sel).mode = .undefined := by
  decide

/-- A busy context, one that already holds the word, and an idle one while a fault is recorded. -/
theorem witness_BusyContextHoldsTheWrite :
    (let s := block gSpi { spiRead .spiXfer with held := some 0x4900#16 }
     s.turnLegal ∧ ¬ s.readyToAccept ∧ (s.getCtx 0).held = some 0x4900#16) ∧
    ((block gSpi (spiRead .spiXfer)).getCtx 0).held = none ∧
    encode .readPortA = .word 0x4900#16 ∧ (block gSpi (spiRead .spiXfer)).turnLegal ∧
    ¬ (block gSpi (spiRead .spiXfer)).readyToAccept ∧
    ¬ (block gSpi {} {} (some ⟨.illegalCmd, 0, 0, .idle⟩)).readyToAccept := by decide

/-- A second write, a reset, and the acceptance of a held word. -/
theorem witness_HeldWriteIsKept :
    let s := fun i : Inputs => block gSpi (heldCtx 0x5900#16) i
    (∀ i, Inv (s i)) ∧ (∀ i, ((s i).getCtx 0).held = some 0x5900#16) ∧
    (s (cmd 0x0000#16)).inp.turn = .hostWrite .cmd ∧
    (∃ t, step (s (cmd 0x0000#16)) = .next t ∧ (t.getCtx 0).held = some 0x5900#16) ∧
    (∃ t, step (s { turn := .reset }) = .next t ∧ (t.getCtx 0).held = none) ∧
    (∃ t, step (s { turn := .cmdHeld }) = .next t ∧ (t.getCtx 0).held = none) :=
  ⟨fun i => idle_block_inv gSpi i _ (by decide), fun _ => rfl, rfl, ⟨_, rfl, rfl⟩, ⟨_, rfl, rfl⟩, ⟨_, rfl, rfl⟩⟩

theorem witness_InitSequence :
    gSpi.mode = .spi ∧ gI2c.mode ≠ .spi ∧ txnWrite .B .olat 0#8 ∈ (initSeq gI2c).drop 2 := by decide

/-! The wire frames. -/

theorem witness_SpiFramesAreSent :
    (let s := block gSpi (spiWrite .spiXfer)
     s.turnLegal ∧ s.fault = none ∧ (s.getCtx 0).phase = .spiXfer ∧ (s.getCtx 0).cur = some (txnWrite .A .olat 0xFF#8) ∧
     (s.par.handleCfg 0).mode = .spi ∧ 1#2 = (s.par.handleCfg 0).opcode.setWidth 2 ∧ s.inp.spiSt = .ok) ∧
    (let s := block gSpi (spiRead .spiXfer)
     s.turnLegal ∧ s.fault = none ∧ (s.getCtx 0).phase = .spiXfer ∧ (s.getCtx 0).cur = some (txnRead .B .gpio) ∧
     (s.par.handleCfg 0).mode = .spi ∧ s.inp.spiSt = .ok) := by decide

theorem witness_I2cFramesAreSent :
    (let s := block gI2c (spiWrite .i2cWrite)
     s.turnLegal ∧ s.fault = none ∧ (s.getCtx 0).phase = .i2cWrite ∧ (s.getCtx 0).cur = some (txnWrite .A .olat 0xFF#8) ∧
     (s.par.handleCfg 0).mode = .i2c ∧ s.inp.i2cTxSt = .ok) ∧
    (let s := block gI2c (spiRead .i2cWrite)
     s.turnLegal ∧ s.fault = none ∧ (s.getCtx 0).phase = .i2cWrite ∧ (s.getCtx 0).cur = some (txnRead .B .gpio) ∧
     (s.par.handleCfg 0).mode = .i2c ∧ s.inp.i2cTxSt = .ok) ∧
    (let s := block gI2c (spiRead .i2cRead)
     (s.getCtx 0).phase = .i2cRead ∧ s.inp.i2cRxSt = .ok) := by decide

theorem witness_FrameNotDueHasNoEffect :
    (∀ w, encode (.spiReadFrame 1#2 0x13#8) ≠ .word w) ∧ (block gSpi {}).turnLegal ∧
    dueFrame (block gSpi {}) 0 ≠ some (encode (.spiReadFrame 1#2 0x13#8)) ∧
    dueFrame (block gSpi (spiRead .spiXfer)) 0 ≠ some (encode (.spiReadFrame 1#2 0x12#8)) :=
  ⟨fun _ h => Code.noConfusion h, by decide, by decide, by decide⟩

/-- The six transport causes. -/
theorem witness_TransportFaultIsTaken :
    let spi := fun i : Inputs => block gSpi (spiWrite .spiXfer) i
    let tx := fun i : Inputs => block gI2c (spiWrite .i2cWrite) i
    let rx := fun i : Inputs => block gI2c (spiRead .i2cRead) i
    ((spi { spiSt := .error }).contextTurn .spiXfer ∧ (spi { spiSt := .timeout }).contextTurn .spiXfer ∧
      ((spi {}).par.handleCfg 0).mode = .spi) ∧
    ((tx { i2cTxSt := .error }).contextTurn .i2cWrite ∧ (tx { i2cTxSt := .timeout }).contextTurn .i2cWrite ∧
      ((tx {}).par.handleCfg 0).mode = .i2c) ∧
    ((rx { i2cRxSt := .error }).contextTurn .i2cRead ∧ (rx { i2cRxSt := .timeout }).contextTurn .i2cRead ∧
      (txnRead .B .gpio).rw = .read) := by decide

/-! The sequencer. -/

theorem witness_PhaseSteps :
    (block gSpi (spiRead .lockWait)).contextTurn .lockWait ∧ (block gSpi (spiRead .lockWait)).lock = none ∧
    ({ block gSpi (spiRead .lockWait) with lock := some 1 } : State).contextTurn .lockWait ∧
    (block gSpi (spiRead .csAssert)).contextTurn .csAssert ∧
    (block gSpi (ctxAt .csAssert .init txnPulse)).contextTurn .csAssert ∧
    (block gSpi (spiRead .waitIdlePre)).contextTurn .waitIdlePre ∧
    ({ block gSpi (spiRead .waitIdlePost) with spiBusy := true } : State).contextTurn .waitIdlePost ∧
    (block gSpi (spiRead .csDeassert)).contextTurn .csDeassert ∧
    (block gSpi {}).inp.turn = .context ∧ (block gSpi {}).turnLegal := by decide

/-- RELEASE with more to come, and the last of a READ, a WRITE and an INIT. -/
theorem witness_ReleaseStep :
    (block gI2c (ctxAt .release .init txnCheck [txnWrite .A .iodir 0#8] (some 1#8))).contextTurn .release ∧
    (block gSpi (spiRead .release)).contextTurn .release ∧ (block gSpi (spiWrite .release)).contextTurn .release ∧
    (block gSpi (ctxAt .release .init (txnWrite .B .olat 0#8) [] none (some true))).contextTurn .release ∧
    (block gSpi (spiRead .release)).ctx.length = (block gSpi (spiRead .release)).par.nCtx ∧
    Inv (block gSpi (spiRead .release)) :=
  ⟨by decide, by decide, by decide, by decide, by decide, spiRead_inv _ _ (by decide) rfl⟩

theorem witness_OtherContextsUntouched :
    ∃ t, (block gSpi (spiRead .lockWait)).inp.turn ≠ .reset ∧ step (block gSpi (spiRead .lockWait)) = .next t ∧
      1 ≠ (block gSpi (spiRead .lockWait)).inp.sel := ⟨_, by decide, rfl, by decide⟩

theorem witness_SpiMasterTurn :
    (block gSpi {} { turn := .spiMaster, busy := true }).inp.turn = .spiMaster ∧
    (block gSpi {}).inp.turn ≠ .spiMaster ∧ ∃ t, step (block gSpi {}) = .next t :=
  ⟨by decide, by decide, _, rfl⟩

/-! Host registers, faults and reset. -/

theorem witness_HostRegisters :
    (block gSpi {} { turn := .hostWrite .ctxStatus }).turnLegal ∧
    (block gSpi {} { turn := .hostWrite .faultStatus }).inp.turn = .hostWrite .faultStatus ∧
    (∀ r, (block gSpi {} { turn := .hostRead r }).turnLegal) ∧
    (∀ r, (block gSpi {} { turn := .hostWrite r }).turnLegal ∧
      (block gSpi {} { turn := .hostWrite r }).inp.turn = .hostWrite r) :=
  ⟨by decide, rfl, fun _ => Nat.zero_lt_two, fun _ => ⟨Nat.zero_lt_two, rfl⟩⟩

/-- A block with a recorded fault that satisfies the invariant, and a step of it. -/
theorem witness_faulted :
    let s := fun i : Inputs => block gSpi {} i (some ⟨.illegalCmd, 0, 0, .idle⟩)
    (∀ i, Inv (s i)) ∧ (s {}).fault ≠ none ∧ (s {}).par.nCtx ≤ 256 ∧ (s {}).par.nDev ≤ 256 ∧
    (∃ t, step (s (cmd 0#16)) = .next t) ∧ (∃ t, step (s { turn := .reset }) = .next t ∧ t.fault ≠ (s {}).fault) :=
  ⟨fun i => block_inv i (by decide) (idle_inv gSpi _ rfl rfl rfl) (by simp [Cause.raisedIn]),
    by decide, by decide, by decide, ⟨_, rfl⟩, ⟨_, rfl, by decide⟩⟩

/-- A READ's and an INIT's completion change a response register, one of which holds a value before. -/
theorem witness_ResponseRegistersChangeOnlyAtCompletion :
    after (block gSpi (spiRead .release)) (fun t => (t.getCtx 0).rspData) ≠ some none ∧
    after (block gSpi (ctxAt .release .init (txnWrite .B .olat 0#8) [] none (some true)))
      (fun t => (t.getCtx 0).rspOk) ≠ some none ∧
    Inv (block gSpi { rspData := some 1#8, rspOk := some true }) ∧
    ((block gSpi { rspData := some 1#8, rspOk := some true }).getCtx 0).rspData ≠ none ∧
    ((block gSpi { rspData := some 1#8, rspOk := some true }).getCtx 0).rspOk ≠ none :=
  ⟨by decide, by decide, block_inv _ (by decide) (idle_inv gSpi _ rfl rfl rfl) (by simp), by decide, by decide⟩

theorem witness_FaultIsSetOnceAndClearedByReset :
    ∃ t, step (block gSpi {} (cmd 0xFFFF#16)) = .next t ∧ t.fault ≠ (block gSpi {} (cmd 0xFFFF#16)).fault :=
  ⟨_, rfl, by decide⟩

/-! Invariants and laws. -/

theorem witness_Invariant :
    Config.params.WellFormed ∧ Inv (block gSpi (spiRead .spiXfer)) ∧ (block gSpi (spiRead .spiXfer)).turnLegal ∧
    ∃ t, step (block gSpi (spiRead .spiXfer)) = .next t :=
  ⟨by decide, spiRead_inv _ _ (by decide) rfl, by decide, _, rfl⟩

/-- An INIT at its pulse satisfies the invariant. -/
theorem pulse_inv (i : Inputs) : Inv (block gSpi (ctxAt .lockWait .init txnPulse (initSeq gSpi).tail) i) := by
  refine block_inv i (by decide) ?_ (by simp)
  have hs : initSeq gSpi = txnPulse :: (initSeq gSpi).tail := rfl
  constructor <;> simp [ctxAt, Phase.onSpi, Phase.onI2c, Phase.regOnly, Phase.afterRead]
  · decide
  · exact ⟨txnPulse, 0, rfl, hs.symm⟩
  · intro _
    exact ⟨txnCheck, by decide, rfl⟩

/-- A READ on each bus, a WRITE on each bus, and INIT's pulse, which has more transactions to come. -/
theorem witness_TransactionTrace :
    (let s := block gSpi (spiRead .lockWait)
     Inv s ∧ 0 < s.par.nCtx ∧ s.fault = none ∧ s.lock = none ∧ s.spiBusy = false ∧ (s.getCtx 0).phase = .lockWait ∧
      (s.getCtx 0).cur = some (txnRead .B .gpio) ∧
      (List.replicate 7 ({} : Inputs)).length = transactionSteps (s.par.handleCfg 0).mode (txnRead .B .gpio)) ∧
    (let s := block gI2c (spiRead .lockWait)
     Inv s ∧ s.lock = none ∧
      (List.replicate 4 ({} : Inputs)).length = transactionSteps (s.par.handleCfg 0).mode (txnRead .B .gpio)) ∧
    (let s := block gSpi (spiWrite .lockWait)
     Inv s ∧ s.lock = none ∧ (s.getCtx 0).cur = some (txnWrite .A .olat 0xFF#8) ∧
      (List.replicate 7 ({} : Inputs)).length = transactionSteps (s.par.handleCfg 0).mode (txnWrite .A .olat 0xFF#8)) ∧
    (let s := block gI2c (spiWrite .lockWait)
     Inv s ∧ s.lock = none ∧
      (List.replicate 3 ({} : Inputs)).length = transactionSteps (s.par.handleCfg 0).mode (txnWrite .A .olat 0xFF#8)) ∧
    (let s := block gSpi (ctxAt .lockWait .init txnPulse (initSeq gSpi).tail)
     Inv s ∧ s.lock = none ∧ (s.getCtx 0).cur = some txnPulse ∧ (s.getCtx 0).pending ≠ [] ∧
      (List.replicate 4 ({} : Inputs)).length = transactionSteps (s.par.handleCfg 0).mode txnPulse) ∧
    (∀ a ∈ List.replicate 7 ({} : Inputs), a.allOk) :=
  ⟨⟨spiRead_inv _ _ (by decide) rfl, by decide, rfl, rfl, rfl, rfl, rfl, rfl⟩,
    ⟨i2cRead_inv _ _ (by decide) rfl, rfl, rfl⟩,
    ⟨block_inv _ (by decide) (write_inv (by decide) (fun _ => rfl) (by decide) (by decide) (by decide)) (by simp),
      rfl, rfl, rfl⟩,
    ⟨block_inv _ (by decide) (write_inv (by decide) (by decide) (fun _ => rfl) (by decide) (by decide)) (by simp),
      rfl, rfl⟩,
    ⟨pulse_inv _, rfl, rfl, by decide, rfl⟩, by decide⟩

/-- For the completion of READ, WRITE and INIT and for the loopback round trip, on both buses. -/
theorem witness_CommandsRun :
    (∀ g ∈ [gSpi, gI2c], let s := block g {}
      Inv s ∧ 0 < s.par.nCtx ∧ s.fault = none ∧ s.lock = none ∧ s.spiBusy = false ∧ (s.getCtx 0).phase = .idle ∧
      (s.getCtx 0).held = none ∧ (s.par.handleCfg 0).mode ≠ .undefined ∧
      (bench s).dev.mem.length = s.par.nDev ∧ (bench s).dev.ptr.length = s.par.nDev ∧ ∀ m ∈ (bench s).dev.mem, m.wf) ∧
    (List.replicate 130 ({} : Inputs)).length = initSteps .spi ∧
    (List.replicate 55 ({} : Inputs)).length = initSteps .i2c := by
  refine ⟨?_, rfl, rfl⟩
  intro g hg
  simp only [List.mem_cons, List.not_mem_nil, or_false] at hg
  rcases hg with rfl | rfl
  all_goals
    exact ⟨idle_block_inv _ _ _ (by decide), by decide, rfl, rfl, rfl, rfl, rfl, by decide, rfl, rfl, by decide⟩

/-- An SPI exchange and an I2C write that each change a device, and a header that sets a register pointer. -/
theorem witness_LoopbackStoresOnlyWhatIsWritten :
    memRead ((devicesAfter (bench (block gSpi (spiWrite .spiXfer))) 0).getMem 0) 0x14 ≠
      memRead ((bench (block gSpi (spiWrite .spiXfer))).dev.getMem 0) 0x14 ∧
    memRead ((devicesAfter (bench (block gI2c (spiWrite .i2cWrite))) 0).getMem 0) 0x0A ≠
      memRead ((bench (block gI2c (spiWrite .i2cWrite))).dev.getMem 0) 0x0A ∧
    (devicesAfter (bench (block gI2c (spiRead .i2cWrite))) 0).ptr ≠ (bench (block gI2c (spiRead .i2cWrite))).dev.ptr ∧
    (dueFrame (block gSpi (spiWrite .spiXfer)) 0 = some (.spi [0x42#8, 0x14#8, 0xFF#8]) ∧
      spiDevice (block gSpi (spiWrite .spiXfer)) = some 0) ∧
    (dueFrame (block gI2c (spiWrite .i2cWrite)) 0 = some (.i2c [0x4C#8, 0x0A#8, 0xFF#8]) ∧
      i2cDevice (block gI2c (spiWrite .i2cWrite)) 0x06#8 = some 0) ∧
    dueFrame (block gI2c (spiRead .i2cWrite)) 0 = some (.i2c [0x4D#8, 0x19#8]) ∧
    Inv (block gSpi (spiWrite .spiXfer)) ∧ Inv (block gI2c (spiWrite .i2cWrite)) ∧
    Inv (block gI2c (spiRead .i2cWrite)) ∧
    (let b := bench (block gSpi (spiWrite .spiXfer))
     (∀ m ∈ b.dev.mem, m.wf) ∧ b.dev.mem.length = b.st.par.nDev ∧ b.dev.ptr.length = b.st.par.nDev ∧
      0 < b.st.par.nCtx) :=
  ⟨by decide, by decide, by decide, by decide, by decide, by decide,
    block_inv _ (by decide) (write_inv (by decide) (fun _ => rfl) (by decide) (by decide) (by decide)) (by simp),
    block_inv _ (by decide) (write_inv (by decide) (by decide) (fun _ => rfl) (by decide) (by decide)) (by simp),
    i2cRead_inv _ _ (by decide) rfl, by decide, rfl, rfl, by decide⟩

end Sys2Proof.Tests
end

/-! The step of the machine: what a move keeps, and why it answers a next state. -/

namespace Sys2Proof.Machine

/-! No move writes the parameters (R28). -/

@[simp] theorem takeWord_par (s : State) (c : Nat) (w : Word16) : (takeWord s c w).par = s.par := rfl

@[simp] theorem acceptCommand_par (w : Word16) (k : CmdKind) (e : HandleCfg → List Txn) (c : Nat) (s : State) :
    (acceptCommand w k e c s).par = s.par := by
  by_cases h : (s.par.handleCfg c).mode = .undefined
  · rw [acceptCommand_of_undefined w k e h]
  · rw [acceptCommand_of_known w k e h]

@[simp] theorem acceptIllegal_par (w : Word16) (c : Nat) (s : State) : (acceptIllegal w c s).par = s.par := rfl

theorem writeCmd_par {w : Word16} {a : Nat → State → State} {c : Nat} {s : State} (h : (a c s).par = s.par) :
    (writeCmd w a c s).par = s.par := by
  obtain ⟨-, -, e⟩ | ⟨-, e⟩ := writeCmd_cases w a c s
  · rw [e, h]
  · rw [e, State.modCtx_par]

@[simp] theorem spiXferStep_par (tx : List Byte) (rw : RW) (c : Nat) (s : State) :
    (spiXferStep tx rw c s).par = s.par := by
  obtain ⟨-, e⟩ | ⟨k, -, -, e⟩ := spiXferStep_cases tx rw c s <;> simp [e]

@[simp] theorem i2cWriteStep_par (bytes : List Byte) (rw : RW) (c : Nat) (s : State) :
    (i2cWriteStep bytes rw c s).par = s.par := by
  obtain ⟨-, e⟩ | ⟨k, -, -, e⟩ := i2cWriteStep_cases bytes rw c s <;> simp [e]

@[simp] theorem i2cReadStep_par (c : Nat) (s : State) : (i2cReadStep c s).par = s.par := by
  obtain ⟨-, e⟩ | ⟨k, -, -, e⟩ := i2cReadStep_cases c s <;> simp [e]

@[simp] theorem respond_par (c : Nat) (s : State) : (respond c s).par = s.par := by
  rw [respond_eq]

@[simp] theorem stepRelease_par (c : Nat) (s : State) : (stepRelease c s).par = s.par := by
  cases ht : (s.getCtx c).cur with
  | none => simp [stepRelease, ht]
  | some t =>
    cases hp : (s.getCtx c).pending with
    | cons n rest => simp [stepRelease_of_pending ht hp]
    | nil => by_cases hk : t.check = true <;> simp [stepRelease, ht, hp, hk]

@[simp] theorem ctxStep_par (c : Nat) (s : State) : (ctxStep c s).par = s.par := by
  obtain e | ⟨-, ⟨-, -, e⟩ | ⟨t, -, -, e⟩ | ⟨-, -, e⟩ | ⟨-, -, e⟩ | ⟨-, e⟩ | ⟨-, e⟩⟩ := ctxStep_cases c s <;>
    simp [e]

/-! The shape of an instruction: a command word for the context of the turn, or a frame that acts when it is due. -/

/-- What exec of an instruction can be (R200 to R209; R169, R172, R173). -/
theorem exec_cases (i : Instr) (s : State) :
    (∃ k e, exec i s = hostCommand i.word k e s) ∨
    (∃ rw, exec i s = whenDue i (spiXferStep i.bytes rw) s) ∨
    (∃ rw, exec i s = whenDue i (i2cWriteStep i.bytes rw) s) ∨
    exec i s = whenDue i (fun c u =>
      if (u.getCtx c).phase = .i2cRead then i2cReadStep c u else i2cWriteStep i.bytes .read c u) s := by
  cases i with
  | init => exact .inl ⟨_, _, rfl⟩
  | read p r => exact .inl ⟨_, _, rfl⟩
  | write p r v => exact .inl ⟨_, _, rfl⟩
  | readPortA => exact .inl ⟨_, _, rfl⟩
  | readPortB => exact .inl ⟨_, _, rfl⟩
  | writePortA v => exact .inl ⟨_, _, rfl⟩
  | writePortB v => exact .inl ⟨_, _, rfl⟩
  | spiWriteFrame e a d => exact .inr (.inl ⟨_, rfl⟩)
  | spiReadFrame e a => exact .inr (.inl ⟨_, rfl⟩)
  | i2cWriteFrame o a d => exact .inr (.inr (.inl ⟨_, rfl⟩))
  | i2cReadFrame o a => exact .inr (.inr (.inr rfl))

/-! What every move has in common. -/

/-- The outcome `o` of a move from `s` writes no parameter, and is no stop when the turn names a context that exists. -/
structure KeepsGoing (s : State) (o : Host.Outcome State Fault Refusal) : Prop where
  par_eq        : ∀ t, o = .next t → t.par = s.par
  next_of_legal : s.turnLegal → ∃ t, o = .next t

theorem KeepsGoing.next {s t : State} (h : t.par = s.par) : KeepsGoing s (.next t) :=
  ⟨fun _ e => by cases e; exact h, fun _ => ⟨t, rfl⟩⟩

theorem KeepsGoing.onContext {s : State} {f : Nat → State → State} (h : (f s.inp.sel s).par = s.par) :
    KeepsGoing s (onContext s f) where
  par_eq t e := by
    obtain ⟨-, rfl⟩ := onContext_eq_next_iff.1 e
    exact h
  next_of_legal hl := ⟨_, onContext_of_lt hl⟩

theorem whenDue_keepsGoing {i : Instr} {f : Nat → State → State} {s : State} (h : (f s.inp.sel s).par = s.par) :
    KeepsGoing s (whenDue i f s) := by
  refine .onContext ?_
  split
  · exact h
  · rfl

theorem exec_keepsGoing (i : Instr) (s : State) : KeepsGoing s (exec i s) := by
  obtain ⟨k, e, h⟩ | ⟨rw, h⟩ | ⟨rw, h⟩ | h := exec_cases i s <;> rw [h]
  · exact .onContext (writeCmd_par (acceptCommand_par ..))
  · exact whenDue_keepsGoing (spiXferStep_par ..)
  · exact whenDue_keepsGoing (i2cWriteStep_par ..)
  · refine whenDue_keepsGoing ?_
    split
    · exact i2cReadStep_par ..
    · exact i2cWriteStep_par ..

theorem hostIllegal_keepsGoing (w : Word16) (s : State) : KeepsGoing s (hostIllegal w s) :=
  .onContext (writeCmd_par (acceptIllegal_par ..))

theorem hostRead_keepsGoing (s : State) (r : HostReg) : KeepsGoing s (hostRead s r) := by
  unfold hostRead
  split
  · exact .onContext rfl
  · exact .next rfl

theorem hostWriteReadOnly_keepsGoing (s : State) (r : HostReg) : KeepsGoing s (hostWriteReadOnly s r) := by
  unfold hostWriteReadOnly
  split
  · exact .onContext rfl
  · exact .next rfl

theorem otherMove_keepsGoing (s : State) : KeepsGoing s (otherMove s) := by
  unfold otherMove
  cases s.inp.turn with
  | hostWrite r => exact hostWriteReadOnly_keepsGoing s r
  | cmdHeld => exact .next rfl
  | hostRead r => exact hostRead_keepsGoing s r
  | reset => exact .next rfl
  | context => exact .onContext (ctxStep_par ..)
  | spiMaster => exact .next rfl

/-- Only bytes that are no frame are refused; they answer no next state. -/
theorem runIllegal_par {code : Code} {s t : State} (h : runIllegal code s = .next t) : t.par = s.par := by
  cases code with
  | word w => exact (hostIllegal_keepsGoing w s).par_eq t h
  | spi bytes => cases h
  | i2c bytes => cases h

theorem takeTurn_par {s t : State} (h : takeTurn s = .next t) : t.par = s.par := by
  obtain ⟨code, i, -, -, e⟩ | ⟨code, _, -, -, e⟩ | ⟨-, e⟩ := takeTurn_cases s <;> rw [e] at h
  · exact (exec_keepsGoing i s).par_eq t h
  · exact runIllegal_par h
  · exact (otherMove_keepsGoing s).par_eq t h

/-- No step writes the parameters (R28). -/
theorem step_par {s t : State} (h : step s = .next t) : t.par = s.par := by
  obtain ⟨u, hu, rfl⟩ := step_eq_next_iff.1 h
  exact (finish_par u).trans (takeTurn_par hu)

/-! The frame that is due decodes (R99, R102 to R105, R111). -/

/-- Every physical address is one of the device's map (R60, R111). -/
theorem resolve_le_maxAddr (b : Bank) (p : Port) (r : LReg) : (resolve b p r).toNat ≤ maxAddr := by
  cases b <;> cases p <;> cases r <;> decide

/-- On SPI the control byte of R141 has the fields of R99. -/
theorem ctrl_spi (o : BitVec 3) (rw : RW) : ctrl .spi o rw = spiControl (o.setWidth 2) (rwBit rw) := by
  cases rw <;> revert o <;> decide

/-- On I2C the control byte of R141 has the fields of R99. -/
theorem ctrl_i2c (o : BitVec 3) (rw : RW) : ctrl .i2c o rw = i2cControl o (rwBit rw) := by
  cases rw <;> revert o <;> decide

theorem spiControl_fields (e : BitVec 2) (b : BitVec 1) :
    (spiControl e b).extractLsb' 3 5 = 0b01000#5 ∧ (spiControl e b).extractLsb' 1 2 = e ∧
      (spiControl e b).extractLsb' 0 1 = b := by
  revert e b; decide

theorem i2cControl_fields (o : BitVec 3) (b : BitVec 1) :
    (i2cControl o b).extractLsb' 4 4 = 0b0100#4 ∧ (i2cControl o b).extractLsb' 1 3 = o ∧
      (i2cControl o b).extractLsb' 0 1 = b := by
  revert o b; decide

theorem decode_spiWriteFrame (e : BitVec 2) {a : Byte} (d : Byte) (ha : a.toNat ≤ maxAddr) :
    decode (encode (.spiWriteFrame e a d)) = .instr (.spiWriteFrame e a d) := by
  obtain ⟨hp, he, hb⟩ := spiControl_fields e 0#1
  simp [decode, encode, decodeSpi, hp, he, hb, ha]

theorem decode_spiReadFrame (e : BitVec 2) {a : Byte} (ha : a.toNat ≤ maxAddr) :
    decode (encode (.spiReadFrame e a)) = .instr (.spiReadFrame e a) := by
  obtain ⟨hp, he, hb⟩ := spiControl_fields e 1#1
  simp [decode, encode, decodeSpi, hp, he, hb, ha]

theorem decode_i2cWriteFrame (o : BitVec 3) {a : Byte} (d : Byte) (ha : a.toNat ≤ maxAddr) :
    decode (encode (.i2cWriteFrame o a d)) = .instr (.i2cWriteFrame o a d) := by
  obtain ⟨hp, ho, hb⟩ := i2cControl_fields o 0#1
  simp [decode, encode, decodeI2c, hp, ho, hb, ha]

theorem decode_i2cReadFrame (o : BitVec 3) {a : Byte} (ha : a.toNat ≤ maxAddr) :
    decode (encode (.i2cReadFrame o a)) = .instr (.i2cReadFrame o a) := by
  obtain ⟨hp, ho, hb⟩ := i2cControl_fields o 1#1
  simp [decode, encode, decodeI2c, hp, ho, hb, ha]

/-- The SPI exchange of a transaction is the encoding of a well-formed frame, which decodes (R102, R142 to R144). -/
theorem spiFrame_decodes {g : HandleCfg} (t : Txn) (hg : g.mode = .spi) :
    ∃ i : Instr, i.wellFormed = true ∧ encode i = .spi (spiTx (txnFrame g t) t.rw) ∧
      decode (encode i) = .instr i := by
  have ha : (txnAddr g t).toNat ≤ maxAddr := resolve_le_maxAddr ..
  cases ht : t.rw with
  | write =>
    exact ⟨.spiWriteFrame (g.opcode.setWidth 2) (txnAddr g t) t.data, decide_eq_true ha,
      by simp [encode, spiTx, txnFrame, buildFrame, hg, ht, ctrl_spi, rwBit], decode_spiWriteFrame _ _ ha⟩
  | read =>
    exact ⟨.spiReadFrame (g.opcode.setWidth 2) (txnAddr g t), decide_eq_true ha,
      by simp [encode, spiTx, txnFrame, buildFrame, hg, ht, ctrl_spi, rwBit], decode_spiReadFrame _ ha⟩

/-- The I2C payload or header of a transaction is the encoding of a well-formed frame, which decodes (R104, R105). -/
theorem i2cFrame_decodes {g : HandleCfg} (t : Txn) (hg : g.mode = .i2c) :
    ∃ i : Instr, i.wellFormed = true ∧ encode i = .i2c (txnFrame g t) ∧ decode (encode i) = .instr i := by
  have ha : (txnAddr g t).toNat ≤ maxAddr := resolve_le_maxAddr ..
  cases ht : t.rw with
  | write =>
    exact ⟨.i2cWriteFrame g.opcode (txnAddr g t) t.data, decide_eq_true ha,
      by simp [encode, txnFrame, buildFrame, hg, ht, ctrl_i2c, rwBit], decode_i2cWriteFrame _ _ ha⟩
  | read =>
    exact ⟨.i2cReadFrame g.opcode (txnAddr g t), decide_eq_true ha,
      by simp [encode, txnFrame, buildFrame, hg, ht, ctrl_i2c, rwBit], decode_i2cReadFrame _ ha⟩

/-- In a state of the invariant the frame that is due is the encoding of a well-formed frame, which decodes. -/
theorem dueFrame_decodes {s : State} {c : Nat} {code : Code} (hs : Inv s) (hc : c < s.par.nCtx)
    (h : dueFrame s c = some code) :
    ∃ i : Instr, i.wellFormed = true ∧ encode i = code ∧ decode (encode i) = .instr i := by
  have hinv := hs.ctx_inv c hc
  obtain ⟨-, t, ht, ⟨hp, rfl⟩ | ⟨hp, rfl⟩ | ⟨hp, rfl⟩⟩ := dueFrame_cases h
  · exact spiFrame_decodes t (hinv.spi_phase (by rw [hp]; rfl))
  · exact i2cFrame_decodes t (hinv.i2c_phase (by rw [hp]; rfl))
  · rw [← hinv.read_phase hp t ht]
    exact i2cFrame_decodes t (hinv.i2c_phase (by rw [hp]; rfl))

/-! A move answers a next state. -/

/-- What a turn fetches is a command word or the frame that is due. -/
theorem fetch_cases {s : State} {code : Code} (h : fetch s = some code) :
    (∃ w, code = .word w) ∨ dueFrame s s.inp.sel = some code := by
  unfold fetch at h
  split at h
  · split at h
    · exact .inl ⟨_, (Option.some.inj h).symm⟩
    · cases h
  · obtain ⟨w, -, rfl⟩ := Option.map_eq_some_iff.1 h
    exact .inl ⟨w, rfl⟩
  · exact .inr h
  · cases h

/-- In a state of the invariant only a command word can be fetched that is no instruction. -/
theorem word_of_fetch_illegal {s : State} {code : Code} {e : Illegal} (hs : Inv s) (hl : s.turnLegal)
    (hf : fetch s = some code) (hd : decode code = .illegal e) : ∃ w, code = .word w := by
  obtain hw | hdue := fetch_cases hf
  · exact hw
  · obtain ⟨i, -, rfl, hi⟩ := dueFrame_decodes hs hl hdue
    rw [hi] at hd
    cases hd

theorem takeTurn_next_of_inv {s : State} (hs : Inv s) (hl : s.turnLegal) : ∃ t, takeTurn s = .next t := by
  obtain ⟨code, i, -, -, e⟩ | ⟨code, _, hf, hd, e⟩ | ⟨-, e⟩ := takeTurn_cases s <;> rw [e]
  · exact (exec_keepsGoing i s).next_of_legal hl
  · obtain ⟨w, rfl⟩ := word_of_fetch_illegal hs hl hf hd
    exact (hostIllegal_keepsGoing w s).next_of_legal hl
  · exact (otherMove_keepsGoing s).next_of_legal hl

/-- The next inputs name a context that exists, if there is one (entry 4). -/
theorem finish_turnLegal {s : State} (h : 0 < s.par.nCtx) : (finish s).turnLegal := Nat.mod_lt _ h

/-- Settles O50: the move answers a next state, and the parameters it keeps have a context for the next turn. -/
theorem machineNeverStops : Obligations.MachineNeverStops := by
  intro s hs hl
  obtain ⟨u, hu⟩ := takeTurn_next_of_inv hs hl
  have hn : 0 < u.par.nCtx := by
    rw [takeTurn_par hu]
    exact hs.params.1
  exact ⟨finish u, step_eq_next_iff.2 ⟨u, hu, rfl⟩, finish_turnLegal hn⟩

/-! A step on a decoded code. -/

/-- A step whose fetched code decodes to an instruction is exec of it, its next state given the next inputs. -/
theorem step_of_decode {s : State} {code : Code} {i : Instr} (hf : fetch s = some code)
    (hd : decode code = .instr i) : step s = finishOutcome (exec i s) := by
  simp [step, takeTurn, runCode, hf, hd]

/-- Settles O14, by the three outcomes of exec. -/
theorem stepRunsDecodedInstruction : Obligations.StepRunsDecodedInstruction := by
  intro s code i hf hd _
  rw [step_of_decode hf hd]
  refine ⟨fun t h => ?_, fun r h => ?_, fun r h => ?_⟩
  · rw [h]; rfl
  · rw [h]; rfl
  · rw [h]; rfl

end Sys2Proof.Machine

/-! What a step can do: the code that a turn fetches, and every move as one relation. -/

namespace Sys2Proof.Machine

/-! What decodes is encoded by the code it came from (R97, R99). -/

/-- A word with RSVD clear is its other four fields laid out (R91). -/
theorem hostWord_of_fields {w : Word16} (h : w.extractLsb' 13 1 = 0#1) :
    hostWord (w.extractLsb' 14 2) (w.extractLsb' 12 1) (w.extractLsb' 8 4) (w.extractLsb' 0 8) = w := by
  rw [hostWord, ← h, BitVec.extractLsb'_append_extractLsb'_eq_extractLsb' (by rfl),
    BitVec.extractLsb'_append_extractLsb'_eq_extractLsb' (by rfl),
    BitVec.extractLsb'_append_extractLsb'_eq_extractLsb' (by rfl),
    BitVec.extractLsb'_append_extractLsb'_eq_extractLsb' (by rfl)]
  exact BitVec.extractLsb'_eq_self

/-- A word with its low 13 bits and RSVD clear is OP and zeros. -/
theorem hostWord_of_low_zero {w : Word16} (h : w.extractLsb' 13 1 = 0#1) (hz : w.extractLsb' 0 13 = 0#13) :
    hostWord (w.extractLsb' 14 2) 0#1 0#4 0#8 = w := by
  have hw : w.extractLsb' 14 2 ++ w.extractLsb' 13 1 ++ w.extractLsb' 0 13 = w := by
    rw [BitVec.extractLsb'_append_extractLsb'_eq_extractLsb' (by rfl),
      BitVec.extractLsb'_append_extractLsb'_eq_extractLsb' (by rfl)]
    exact BitVec.extractLsb'_eq_self
  rw [h, hz] at hw
  rw [← hw, hostWord]
  generalize BitVec.extractLsb' 14 2 w = op
  revert op
  decide

theorem Port.bit_ofBit (b : BitVec 1) : (Port.ofBit b).bit = b := by
  revert b; decide

theorem LReg.index_of_ofIndex {i : BitVec 4} {r : LReg} (h : LReg.ofIndex i = some r) : r.index = i := by
  revert i r; decide

theorem encode_of_decodeWord {w : Word16} {i : Instr} (h : decodeWord w = .instr i) : encode i = .word w := by
  simp only [decodeWord] at h
  by_cases hr : w.extractLsb' 13 1 = 0#1
  · have fields := hostWord_of_fields hr
    cases hreg : LReg.ofIndex (w.extractLsb' 8 4) with
    | none =>
      simp only [hr, hreg, ne_eq, not_true_eq_false, if_false] at h
      split_ifs at h with ho hz
      cases h
      rw [encode, ← ho, hostWord_of_low_zero hr hz]
    | some r =>
      simp only [hr, hreg, ne_eq, not_true_eq_false, if_false] at h
      split_ifs at h with ho hz ho hd ho <;> cases h
      · rw [encode, ← ho, hostWord_of_low_zero hr hz]
      · rw [encode, Port.bit_ofBit, LReg.index_of_ofIndex hreg, ← ho, ← hd, fields]
      · rw [encode, Port.bit_ofBit, LReg.index_of_ofIndex hreg, ← ho, fields]
  · rw [if_pos hr] at h
    cases h

/-- The control byte of an SPI frame is its fields laid out (R99). -/
theorem spiControl_of_fields {k : Byte} (h : k.extractLsb' 3 5 = 0b01000#5) :
    spiControl (k.extractLsb' 1 2) (k.extractLsb' 0 1) = k := by
  revert k; decide

/-- The control byte of an I2C frame is its fields laid out (R99). -/
theorem i2cControl_of_fields {k : Byte} (h : k.extractLsb' 4 4 = 0b0100#4) :
    i2cControl (k.extractLsb' 1 3) (k.extractLsb' 0 1) = k := by
  revert k; decide

theorem encode_of_decodeSpi {bytes : List Byte} {i : Instr} (h : decodeSpi bytes = .instr i) :
    encode i = .spi bytes := by
  unfold decodeSpi at h
  split at h
  · next k a d =>
    split_ifs at h with hk ha hw hd
    · cases h
      rw [encode, ← hw, spiControl_of_fields (not_not.1 hk)]
    · cases h
      have hr : k.extractLsb' 0 1 = 1#1 := by bv_omega
      rw [encode, ← hr, spiControl_of_fields (not_not.1 hk), not_not.1 hd]
  · cases h

theorem encode_of_decodeI2c {bytes : List Byte} {i : Instr} (h : decodeI2c bytes = .instr i) :
    encode i = .i2c bytes := by
  unfold decodeI2c at h
  split at h
  · next k a d =>
    split_ifs at h with hk ha
    cases h
    obtain ⟨hk, hw⟩ := not_or.1 hk
    rw [encode, ← not_not.1 hw, i2cControl_of_fields (not_not.1 hk)]
  · next k a =>
    split_ifs at h with hk ha
    cases h
    obtain ⟨hk, hr⟩ := not_or.1 hk
    rw [encode, ← not_not.1 hr, i2cControl_of_fields (not_not.1 hk)]
  · cases h

theorem encode_of_decode {code : Code} {i : Instr} (h : decode code = .instr i) : encode i = code := by
  cases code with
  | word w => exact encode_of_decodeWord h
  | spi bytes => exact encode_of_decodeSpi h
  | i2c bytes => exact encode_of_decodeI2c h


/-! The code that a turn fetches (R39, R164, R165). -/

theorem fetch_cmdWrite {s : State} (h : s.inp.turn = .hostWrite .cmd) :
    fetch s = if (s.getCtx s.inp.sel).held = none then some (.word s.inp.word) else none := by
  simp only [fetch, h]

theorem fetch_cmdHeld {s : State} (h : s.inp.turn = .cmdHeld) :
    fetch s = (s.getCtx s.inp.sel).held.map Code.word := by
  simp only [fetch, h]

theorem fetch_context {s : State} (h : s.inp.turn = .context) : fetch s = dueFrame s s.inp.sel := by
  simp only [fetch, h]

theorem fetch_other {s : State} (hw : s.inp.turn ≠ .hostWrite .cmd) (hh : s.inp.turn ≠ .cmdHeld)
    (hc : s.inp.turn ≠ .context) : fetch s = none := by
  unfold fetch
  split
  · exact absurd ‹_› hw
  · exact absurd ‹_› hh
  · exact absurd ‹_› hc
  · rfl

/-- No frame is due in a phase without a transport call (R164). -/
theorem dueFrame_eq_none {s : State} {c : Nat} (h : (s.getCtx c).phase ≠ .spiXfer ∧ (s.getCtx c).phase ≠ .i2cWrite ∧
    (s.getCtx c).phase ≠ .i2cRead) : dueFrame s c = none := by
  obtain ⟨hx, hw, hr⟩ := h
  refine Option.eq_none_iff_forall_ne_some.2 fun code hd => ?_
  obtain ⟨-, t, -, ⟨hp, -⟩ | ⟨hp, -⟩ | ⟨hp, -⟩⟩ := dueFrame_cases hd
  exacts [hx hp, hw hp, hr hp]

/-- No frame is due while a fault is recorded, or without a transaction (R164, R232). -/
theorem dueFrame_eq_none_of_stopped {s : State} {c : Nat} (h : s.fault ≠ none ∨ (s.getCtx c).cur = none) :
    dueFrame s c = none := by
  refine Option.eq_none_iff_forall_ne_some.2 fun code hd => ?_
  obtain ⟨hf, t, ht, -⟩ := dueFrame_cases hd
  simp [hf, ht] at h

theorem dueFrame_spiXfer {s : State} {c : Nat} {t : Txn} (hf : s.fault = none) (hp : (s.getCtx c).phase = .spiXfer)
    (ht : (s.getCtx c).cur = some t) :
    dueFrame s c = some (.spi (spiTx (txnFrame (s.par.handleCfg c) t) t.rw)) := by
  simp [dueFrame, hf, hp, ht]

theorem dueFrame_i2cWrite {s : State} {c : Nat} {t : Txn} (hf : s.fault = none) (hp : (s.getCtx c).phase = .i2cWrite)
    (ht : (s.getCtx c).cur = some t) : dueFrame s c = some (.i2c (txnFrame (s.par.handleCfg c) t)) := by
  simp [dueFrame, hf, hp, ht]

theorem dueFrame_i2cRead {s : State} {c : Nat} {t : Txn} (hf : s.fault = none) (hp : (s.getCtx c).phase = .i2cRead)
    (ht : (s.getCtx c).cur = some t) (hr : t.rw = .read) :
    dueFrame s c = some (.i2c (txnFrame (s.par.handleCfg c) t)) := by
  simp [dueFrame, hf, hp, ht, txnFrame, hr]

/-- A turn fetches a command word exactly as a host write or as the retry of a held one (R39). -/
theorem fetch_eq_word_iff {s : State} {w : Word16} :
    fetch s = some (.word w) ↔
      (s.inp.turn = .hostWrite .cmd ∧ s.inp.word = w ∧ (s.getCtx s.inp.sel).held = none) ∨
      (s.inp.turn = .cmdHeld ∧ (s.getCtx s.inp.sel).held = some w) := by
  by_cases hw : s.inp.turn = .hostWrite .cmd
  · by_cases hn : (s.getCtx s.inp.sel).held = none
    · simp [fetch_cmdWrite hw, hw, hn]
    · simp [fetch_cmdWrite hw, hw, hn]
  · by_cases hh : s.inp.turn = .cmdHeld
    · simp [fetch_cmdHeld hh, hh]
    · by_cases hc : s.inp.turn = .context
      · have hd : dueFrame s s.inp.sel ≠ some (.word w) := fun h => by
          obtain ⟨-, t, -, ⟨-, h⟩ | ⟨-, h⟩ | ⟨-, h⟩⟩ := dueFrame_cases h <;> cases h
        simp [fetch_context hc, hd, hc]
      · simp [fetch_other hw hh hc, hw, hh]

/-- A frame is fetched only by a context's turn, when it is due (R164). -/
theorem fetch_eq_frame {s : State} {code : Code} (h : fetch s = some code) (hw : ∀ w, code ≠ .word w) :
    s.inp.turn = .context ∧ dueFrame s s.inp.sel = some code := by
  have turn : s.inp.turn = .context := by
    by_contra hc
    unfold fetch at h
    split at h
    · split at h
      · exact hw _ (Option.some.inj h).symm
      · cases h
    · obtain ⟨w, -, rfl⟩ := Option.map_eq_some_iff.1 h
      exact hw _ rfl
    · exact hc ‹_›
    · cases h
  exact ⟨turn, fetch_context turn ▸ h⟩

/-! ACCEPT of a word, as its decoding says (R200 to R205). -/

/-- The kind of the command i and the transactions it expands to (R201, R202, R204, R205). -/
inductive Expands : Instr → CmdKind → (HandleCfg → List Txn) → Prop where
  | init : Expands .init .init initSeq
  | read (p : Port) (r : LReg) : Expands (.read p r) .read fun _ => [txnRead p r]
  | write (p : Port) (r : LReg) (v : Byte) : Expands (.write p r v) .write fun _ => [txnWrite p r v]

/-- A command expands in one way. -/
theorem Expands.unique {i : Instr} {k k' : CmdKind} {e e' : HandleCfg → List Txn} (h : Expands i k e)
    (h' : Expands i k' e') : k' = k ∧ e' = e := by
  cases h <;> cases h' <;> exact ⟨rfl, rfl⟩

/-- The meaning of an instruction that is encoded as a word: the write of that word to `CMD`. -/
theorem exec_of_encode_word {i : Instr} {w : Word16} (h : encode i = .word w) (s : State) :
    ∃ k e, Expands i.core k e ∧ exec i s = hostCommand w k e s := by
  have hw : i.word = w := by simp [Instr.word, h]
  subst hw
  cases i with
  | init => exact ⟨_, _, .init, rfl⟩
  | read p r => exact ⟨_, _, .read p r, rfl⟩
  | write p r v => exact ⟨_, _, .write p r v, rfl⟩
  | readPortA => exact ⟨_, _, .read .A .gpio, rfl⟩
  | readPortB => exact ⟨_, _, .read .B .gpio, rfl⟩
  | writePortA v => exact ⟨_, _, .write .A .gpio v, rfl⟩
  | writePortB v => exact ⟨_, _, .write .B .gpio v, rfl⟩
  | spiWriteFrame e a d => cases h
  | spiReadFrame e a => cases h
  | i2cWriteFrame o a d => cases h
  | i2cReadFrame o a => cases h

/-- ACCEPT of the word w is the operation a. -/
inductive Accepts (w : Word16) : (Nat → State → State) → Prop where
  | illegal (e : Illegal) (hd : decode (.word w) = .illegal e) : Accepts w (acceptIllegal w)
  | command (i : Instr) (k : CmdKind) (e : HandleCfg → List Txn) (hd : decode (.word w) = .instr i)
      (he : Expands i.core k e) : Accepts w (acceptCommand w k e)

/-- The move of a turn that fetches a word is the write of that word to `CMD` (R39, R200). -/
theorem takeTurn_of_word {s : State} {w : Word16} (h : fetch s = some (.word w)) :
    ∃ a, Accepts w a ∧ takeTurn s = onContext s (writeCmd w a) := by
  cases hd : decode (.word w) with
  | illegal e => exact ⟨_, .illegal e hd, by simp [takeTurn, runCode, h, hd, runIllegal, hostIllegal]⟩
  | instr i =>
    obtain ⟨k, e, he, hx⟩ := exec_of_encode_word (encode_of_decode hd) s
    exact ⟨_, .command i k e hd he, by simp [takeTurn, runCode, h, hd, hx, hostCommand]⟩

/-- The state from which a fault of ACCEPT is raised: the word taken from the interface (R39, R200). -/
theorem raiseFault_takeWord (s : State) (w : Word16) (k : Cause) :
    raiseFault (takeWord s s.inp.sel w) s.inp.sel k =
      faultedState { s with ctx := s.ctx.set s.inp.sel { s.getCtx s.inp.sel with held := none } }
        [.accept s.inp.sel w] k := rfl

/-! The transport step of the frame that is due (R165, R169, R172, R173). -/

/-- Bit 0 of the control byte tells a read from a write, on either bus (R98). -/
theorem ctrl_bit_zero (m : Mode) (o : BitVec 3) (rw : RW) : (ctrl m o rw).extractLsb' 0 1 = rwBit rw := by
  cases m <;> cases rw <;> revert o <;> decide

/-- The instruction whose encoding an SPI exchange is, is the exchange of its transaction. -/
theorem exec_of_spi_due {s : State} {i : Instr} {g : HandleCfg} {t : Txn}
    (hi : encode i = .spi (spiTx (txnFrame g t) t.rw)) :
    exec i s = whenDue i (spiXferStep (spiTx (txnFrame g t) t.rw) t.rw) s := by
  have hb : i.bytes = spiTx (txnFrame g t) t.rw := by simp [Instr.bytes, hi]
  rw [← hb]
  have hc : ∀ k rest, i.bytes = k :: rest → k.extractLsb' 0 1 = rwBit t.rw := fun k rest h => by
    have head : (spiTx (txnFrame g t) t.rw).head? = some (ctrl g.mode g.opcode t.rw) := by
      cases hr : t.rw <;> simp [hr, spiTx, txnFrame, buildFrame]
    rw [← hb, h] at head
    rw [Option.some.inj head, ctrl_bit_zero]
  cases i with
  | spiWriteFrame e a d =>
    have hw := hc _ _ rfl
    obtain ⟨-, -, hbit⟩ := spiControl_fields e 0#1
    rw [hbit] at hw
    cases hr : t.rw with
    | write => rfl
    | read => rw [hr] at hw; cases hw
  | spiReadFrame e a =>
    have hw := hc _ _ rfl
    obtain ⟨-, -, hbit⟩ := spiControl_fields e 1#1
    rw [hbit] at hw
    cases hr : t.rw with
    | write => rw [hr] at hw; cases hw
    | read => rfl
  | _ => cases hi

/-- The instruction whose encoding is an I2C frame for the operation rw, is the transport step of that operation. -/
theorem exec_of_i2c_due {s : State} {i : Instr} {m : Mode} {o : BitVec 3} {a d : Byte} {rw : RW}
    (hi : encode i = .i2c (buildFrame m o a rw d)) :
    exec i s = whenDue i (fun c u => if rw = .read ∧ (u.getCtx c).phase = .i2cRead then i2cReadStep c u
      else i2cWriteStep (buildFrame m o a rw d) rw c u) s := by
  have hb : i.bytes = buildFrame m o a rw d := by simp [Instr.bytes, hi]
  have hl : i.bytes.length = if rw = .read then 2 else 3 := by
    rw [hb]
    cases rw <;> rfl
  rw [← hb]
  cases i with
  | i2cWriteFrame o a d =>
    cases rw with
    | write => simp [exec, execI2cWriteFrame]
    | read => cases hl
  | i2cReadFrame o a =>
    cases rw with
    | write => cases hl
    | read => simp [exec, execI2cReadFrame]
  | _ => cases hi

/-! Everything a step can do. -/

/-- The events of completing the transaction t, the last of the command of the context C (R174). -/
def completeEvents (g : HandleCfg) (c : Nat) (t : Txn) (C : Ctx) : List Event :=
  .unlock c :: respondEvents c (checkedCtx g t C)

/-- The context C after completing its last transaction t (R174). -/
def completeCtx (g : HandleCfg) (t : Txn) (C : Ctx) : Ctx :=
  { respondCtx (checkedCtx g t C) with cur := none, phase := .idle }

/-- The context C after the release of its transaction t, the next one n (R174). -/
def nextCtx (g : HandleCfg) (t n : Txn) (rest : List Txn) (C : Ctx) : Ctx :=
  { checkedCtx g t C with cur := some n, pending := rest, phase := .lockWait }

theorem respondCtx_eq (C : Ctx) :
    respondCtx C = { C with
      rspData := if C.cmd = some .read then C.rdByte else C.rspData
      rspOk := if C.cmd = some .init then C.initOk else C.rspOk } := by
  obtain ⟨_, cmd, _⟩ := C
  cases cmd with
  | none => rfl
  | some k => cases k <;> rfl

@[simp] theorem completeCtx_pending (g : HandleCfg) (t : Txn) (C : Ctx) :
    (completeCtx g t C).pending = C.pending := by
  simp [completeCtx, respondCtx_eq, checkedCtx]

@[simp] theorem completeCtx_held (g : HandleCfg) (t : Txn) (C : Ctx) : (completeCtx g t C).held = C.held := by
  simp [completeCtx, respondCtx_eq, checkedCtx]

/-- A READ's completion keeps its byte as the response (R174). -/
theorem completeCtx_rspData (g : HandleCfg) (t : Txn) (C : Ctx) :
    (completeCtx g t C).rspData = if C.cmd = some .read then C.rdByte else C.rspData := by
  simp [completeCtx, respondCtx_eq, checkedCtx]

/-- An INIT's completion keeps its test as the response (R174). -/
theorem completeCtx_rspOk (g : HandleCfg) (t : Txn) (C : Ctx) :
    (completeCtx g t C).rspOk = if C.cmd = some .init then (completeCtx g t C).initOk else C.rspOk := by
  simp [completeCtx, respondCtx_eq, checkedCtx]

theorem completeCtx_initOk (g : HandleCfg) (t : Txn) (C : Ctx) :
    (completeCtx g t C).initOk = if t.check then some (readBackMatches g C) else C.initOk := by
  simp [completeCtx, respondCtx_eq, checkedCtx]

/-- The context C right after ACCEPT of a command of kind k with the transactions seq (R200). -/
def acceptCtx (k : CmdKind) (seq : List Txn) (C : Ctx) : Ctx :=
  { C with
    phase := .lockWait, cmd := some k, cur := seq.head?, pending := seq.tail, rdByte := none, initOk := none
    held := none }

theorem acceptedState_eq (s : State) (w : Word16) (k : CmdKind) (seq : List Txn) :
    acceptedState s w k seq = (s.emit (.accept s.inp.sel w)).modCtx s.inp.sel (acceptCtx k seq) := rfl

/-- The enabled steps of context c that lead from s to another state, one for each phase and answer (R166 to R174). -/
inductive ContextMove (c : Nat) (s : State) : State → Prop where
  | lock (hp : (s.getCtx c).phase = .lockWait) (hl : s.lock = none) :
      ContextMove c s (((s.setLock (some c)).emit (.lock c)).modCtx c fun C =>
        { C with phase := if (s.par.handleCfg c).mode = .spi then .csAssert else .i2cWrite })
  | assertCs (t : Txn) (hp : (s.getCtx c).phase = .csAssert) (ht : (s.getCtx c).cur = some t) :
      ContextMove c s (((s.setCs (s.par.handleCfg c).csLine true).emit
        (.cs c (s.par.handleCfg c).csLine true)).modCtx c fun C =>
          { C with phase := if t.kind = .pulse then .csDeassert else .waitIdlePre })
  | idleBefore (hp : (s.getCtx c).phase = .waitIdlePre) (hb : s.spiBusy = false) :
      ContextMove c s (s.modCtx c fun C => { C with phase := .spiXfer })
  | exchange (t : Txn) (hp : (s.getCtx c).phase = .spiXfer) (ht : (s.getCtx c).cur = some t) :
      ContextMove c s ((s.emit (.spi c (spiTx (txnFrame (s.par.handleCfg c) t) t.rw)
        [s.inp.rx0, s.inp.rx1, s.inp.rx2] .ok)).modCtx c fun C =>
          { C with rdByte := if t.rw = .read then some s.inp.rx2 else C.rdByte, phase := .waitIdlePost })
  | idleAfter (hp : (s.getCtx c).phase = .waitIdlePost) (hb : s.spiBusy = false) :
      ContextMove c s (s.modCtx c fun C => { C with phase := .csDeassert })
  | deassertCs (hp : (s.getCtx c).phase = .csDeassert) :
      ContextMove c s (((s.setCs (s.par.handleCfg c).csLine false).emit
        (.cs c (s.par.handleCfg c).csLine false)).modCtx c fun C => { C with phase := .release })
  | i2cWrite (t : Txn) (hp : (s.getCtx c).phase = .i2cWrite) (ht : (s.getCtx c).cur = some t) :
      ContextMove c s ((s.emit (.i2cW c (sla (s.par.handleCfg c).opcode)
        (txnFrame (s.par.handleCfg c) t) .ok)).modCtx c fun C =>
          { C with phase := if t.rw = .read then .i2cRead else .release })
  | i2cRead (hp : (s.getCtx c).phase = .i2cRead) :
      ContextMove c s ((s.emit (.i2cR c (sla (s.par.handleCfg c).opcode) s.inp.i2cRxByte .ok)).modCtx c fun C =>
        { C with rdByte := some s.inp.i2cRxByte, phase := .release })
  | next (t n : Txn) (rest : List Txn) (hp : (s.getCtx c).phase = .release) (ht : (s.getCtx c).cur = some t)
      (hn : (s.getCtx c).pending = n :: rest) :
      ContextMove c s (((s.setLock none).emit (.unlock c)).modCtx c (nextCtx (s.par.handleCfg c) t n rest))
  | complete (t : Txn) (hp : (s.getCtx c).phase = .release) (ht : (s.getCtx c).cur = some t)
      (hn : (s.getCtx c).pending = []) :
      ContextMove c s (State.modCtx
        { s with lock := none, trace := s.trace ++ completeEvents (s.par.handleCfg c) c t (s.getCtx c) } c
        (completeCtx (s.par.handleCfg c) t))
  | fail (e : Event) (k : Cause) (hp : (s.getCtx c).phase = k.raisedIn) (hk : k.raisedIn ≠ .idle)
      (he : e.failed = true ∧ e.context = c) :
      ContextMove c s (raiseFault (s.emit e) c k)

/-- The moves of a turn (R11, R20): a turn that changes nothing, reset, a host read, the SPI master, a write to `CMD`
that is held, accepted or refused with a fault, and an enabled step of the context of the turn. -/
inductive Move (s : State) : State → Prop where
  | stay (ht : s.inp.turn ≠ .reset) : Move s s
  | reset (ht : s.inp.turn = .reset) : Move s (applyReset s)
  | read (r : HostReg) (ht : s.inp.turn = .hostRead r) : Move s { s with readData := s.readReg s.inp.sel r }
  | master (ht : s.inp.turn = .spiMaster) : Move s { s with spiBusy := s.inp.busy }
  | hold (w : Word16) (hf : fetch s = some (.word w)) (hl : s.turnLegal) (hr : ¬ s.readyToAccept) :
      Move s (s.modCtx s.inp.sel fun C => { C with held := some w })
  | accept (w : Word16) (i : Instr) (k : CmdKind) (e : HandleCfg → List Txn) (hf : fetch s = some (.word w))
      (hl : s.turnLegal) (hr : s.readyToAccept) (hm : (s.par.handleCfg s.inp.sel).mode ≠ .undefined)
      (hd : decode (.word w) = .instr i) (he : Expands i.core k e) :
      Move s (acceptedState s w k (e (s.par.handleCfg s.inp.sel)))
  | refuse (w : Word16) (k : Cause) (hf : fetch s = some (.word w)) (hl : s.turnLegal) (hr : s.readyToAccept)
      (hk : k.raisedIn = .idle) : Move s (raiseFault (takeWord s s.inp.sel w) s.inp.sel k)
  | context (t : State) (ht : s.inp.turn = .context) (hl : s.turnLegal) (hf : s.fault = none)
      (hm : ContextMove s.inp.sel s t) : Move s t

theorem contextMove_of_spiXfer {c : Nat} {s : State} {t : Txn} (hp : (s.getCtx c).phase = .spiXfer)
    (ht : (s.getCtx c).cur = some t) :
    ContextMove c s (spiXferStep (spiTx (txnFrame (s.par.handleCfg c) t) t.rw) t.rw c s) := by
  obtain ⟨-, e⟩ | ⟨k, hs, hk, e⟩ := spiXferStep_cases (spiTx (txnFrame (s.par.handleCfg c) t) t.rw) t.rw c s
  all_goals rw [e]
  · exact .exchange t hp ht
  · have hr : k.raisedIn = .spiXfer := by obtain rfl | rfl := hk <;> rfl
    exact .fail _ k (hp.trans hr.symm) (by simp [hr]) ⟨by simpa [Event.failed] using hs, rfl⟩

theorem contextMove_of_i2cWrite {c : Nat} {s : State} {t : Txn} (hp : (s.getCtx c).phase = .i2cWrite)
    (ht : (s.getCtx c).cur = some t) :
    ContextMove c s (i2cWriteStep (txnFrame (s.par.handleCfg c) t) t.rw c s) := by
  obtain ⟨-, e⟩ | ⟨k, hs, hk, e⟩ := i2cWriteStep_cases (txnFrame (s.par.handleCfg c) t) t.rw c s <;> rw [e]
  · exact .i2cWrite t hp ht
  · have hr : k.raisedIn = .i2cWrite := by obtain rfl | rfl := hk <;> rfl
    exact .fail _ k (hp.trans hr.symm) (by simp [hr]) ⟨by simpa [Event.failed] using hs, rfl⟩

theorem contextMove_of_i2cRead {c : Nat} {s : State} (hp : (s.getCtx c).phase = .i2cRead) :
    ContextMove c s (i2cReadStep c s) := by
  obtain ⟨-, e⟩ | ⟨k, hs, hk, e⟩ := i2cReadStep_cases c s <;> rw [e]
  · exact .i2cRead hp
  · have hr : k.raisedIn = .i2cRead := by obtain rfl | rfl := hk <;> rfl
    exact .fail _ k (hp.trans hr.symm) (by simp [hr]) ⟨by simpa [Event.failed] using hs, rfl⟩

/-- Only a context that exists is in a phase other than IDLE. -/
theorem lt_of_phase_ne_idle {s : State} {c : Nat} (h : (s.getCtx c).phase ≠ .idle) : c < s.ctx.length := by
  by_contra hc
  exact h (congrArg Ctx.phase (List.getD_eq_default _ _ (not_lt.1 hc)))

theorem contextMove_of_release {c : Nat} {s : State} (hp : (s.getCtx c).phase = .release) :
    stepRelease c s = s ∨ ContextMove c s (stepRelease c s) := by
  cases ht : (s.getCtx c).cur with
  | none => exact .inl (by simp [stepRelease, ht])
  | some t =>
    refine .inr ?_
    cases hn : (s.getCtx c).pending with
    | cons n rest =>
      rw [stepRelease_of_pending ht hn]
      exact .next t n rest hp ht hn
    | nil =>
      rw [stepRelease_of_last (lt_of_phase_ne_idle (by simp [hp])) ht hn, List.append_assoc]
      exact .complete t hp ht hn

theorem contextMove_of_ctxStep (c : Nat) (s : State) :
    ctxStep c s = s ∨ (s.fault = none ∧ ContextMove c s (ctxStep c s)) := by
  obtain e | ⟨hf, ⟨hp, hl, e⟩ | ⟨t, hp, ht, e⟩ | ⟨hp, hb, e⟩ | ⟨hp, hb, e⟩ | ⟨hp, e⟩ | ⟨hp, e⟩⟩ := ctxStep_cases c s
  · exact .inl e
  all_goals rw [e]
  · exact .inr ⟨hf, .lock hp hl⟩
  · exact .inr ⟨hf, .assertCs t hp ht⟩
  · exact .inr ⟨hf, .idleBefore hp hb⟩
  · exact .inr ⟨hf, .idleAfter hp hb⟩
  · exact .inr ⟨hf, .deassertCs hp⟩
  · exact (contextMove_of_release hp).imp_right fun h => ⟨hf, h⟩

/-- The instruction that the frame due for a context decodes to is an enabled step of that context. -/
theorem contextMove_of_due {s t : State} {i : Instr} (hd : dueFrame s s.inp.sel = some (encode i))
    (h : exec i s = .next t) : s.turnLegal ∧ s.fault = none ∧ ContextMove s.inp.sel s t := by
  obtain ⟨hf, u, hu, ⟨hp, hi⟩ | ⟨hp, hi⟩ | ⟨hp, hi⟩⟩ := dueFrame_cases hd
  · rw [exec_of_spi_due hi, whenDue_eq_next_iff] at h
    obtain ⟨hl, ⟨-, rfl⟩ | ⟨hn, -⟩⟩ := h
    · exact ⟨hl, hf, contextMove_of_spiXfer hp hu⟩
    · exact absurd hd hn
  · rw [txnFrame] at hi
    rw [exec_of_i2c_due hi, whenDue_eq_next_iff] at h
    obtain ⟨hl, ⟨-, rfl⟩ | ⟨hn, -⟩⟩ := h
    · rw [if_neg (by simp [hp])]
      exact ⟨hl, hf, contextMove_of_i2cWrite hp hu⟩
    · exact absurd hd hn
  · rw [exec_of_i2c_due hi, whenDue_eq_next_iff] at h
    obtain ⟨hl, ⟨-, rfl⟩ | ⟨hn, -⟩⟩ := h
    · rw [if_pos ⟨rfl, hp⟩]
      exact ⟨hl, hf, contextMove_of_i2cRead hp⟩
    · exact absurd hd hn

theorem move_of_word {s t : State} {w : Word16} (hf : fetch s = some (.word w)) (h : takeTurn s = .next t) :
    Move s t := by
  obtain ⟨a, ha, hx⟩ := takeTurn_of_word hf
  obtain ⟨hl, rfl⟩ := onContext_eq_next_iff.1 (hx.symm.trans h)
  obtain ⟨hp, hn, hw⟩ | ⟨hr, hw⟩ := writeCmd_cases w a s.inp.sel s <;> rw [hw]
  · cases ha with
    | illegal e hd => exact .refuse w _ hf hl ⟨hp, hn⟩ rfl
    | command i k e hd he =>
      by_cases hm : (s.par.handleCfg s.inp.sel).mode = .undefined
      · rw [acceptCommand, if_pos hm]
        exact .refuse w _ hf hl ⟨hp, hn⟩ rfl
      · rw [acceptCommand_of_known w k e hm]
        exact .accept w i k e hf hl ⟨hp, hn⟩ hm hd he
  · exact .hold w hf hl hr

/-- A register that exists once has no context in its value. -/
theorem readReg_of_not_perContext {s : State} {r : HostReg} (h : ¬ perContext r = true) (c d : Nat) :
    s.readReg c r = s.readReg d r := by
  cases r with
  | cmd | rspData | rspOk | ctxStatus => exact absurd rfl h
  | faultStatus | faultCtx | faultDev => rfl

/-- A read of a register answers its value, of the context of the turn where registers exist once per context; it stops
only for a context that does not exist (R39 to R45). -/
theorem hostRead_eq (s : State) (r : HostReg) :
    hostRead s r = .next { s with readData := s.readReg s.inp.sel r } ∨
      (¬ s.turnLegal ∧ perContext r = true ∧ hostRead s r = .fault .noSuchContext) := by
  unfold hostRead
  split
  · next hp =>
    by_cases hl : s.turnLegal
    · exact .inl (onContext_of_lt hl)
    · exact .inr ⟨hl, hp, if_neg hl⟩
  · next hp => exact .inl (by rw [readReg_of_not_perContext hp 0 s.inp.sel])

theorem hostWriteReadOnly_eq_next {s t : State} {r : HostReg} (h : hostWriteReadOnly s r = .next t) : t = s := by
  unfold hostWriteReadOnly at h
  split at h
  · obtain ⟨-, e⟩ := onContext_eq_next_iff.1 h
    exact e
  · exact (Host.Outcome.next.inj h).symm

theorem move_of_otherMove {s t : State} (h : otherMove s = .next t) : Move s t := by
  unfold otherMove at h
  split at h
  · next r ht =>
    rw [hostWriteReadOnly_eq_next h]
    exact .stay (by simp [ht])
  · next ht => cases h; exact .stay (by simp [ht])
  · next r ht =>
    obtain e | ⟨-, -, e⟩ := hostRead_eq s r
    · cases e.symm.trans h
      exact .read r ht
    · cases e.symm.trans h
  · next ht => cases h; exact .reset ht
  · next ht =>
    obtain ⟨hl, rfl⟩ := onContext_eq_next_iff.1 h
    obtain e | ⟨hf, hm⟩ := contextMove_of_ctxStep s.inp.sel s
    · rw [e]
      exact .stay (by simp [ht])
    · exact .context _ ht hl hf hm
  · next ht => cases h; exact .master ht

/-- The inversion of the step: its move, and then the next inputs. -/
theorem move_of_takeTurn {s t : State} (h : takeTurn s = .next t) : Move s t := by
  obtain ⟨code, i, hf, hd, e⟩ | ⟨code, x, hf, -, e⟩ | ⟨-, e⟩ := takeTurn_cases s
  · by_cases hw : ∃ w, code = .word w
    · obtain ⟨w, rfl⟩ := hw
      exact move_of_word hf h
    · obtain ⟨ht, hdue⟩ := fetch_eq_frame hf fun w hc => hw ⟨w, hc⟩
      obtain ⟨hl, hn, hm⟩ := contextMove_of_due (encode_of_decode hd ▸ hdue) (e.symm.trans h)
      exact .context t ht hl hn hm
  · cases code with
    | word w => exact move_of_word hf h
    | spi bytes => cases e.symm.trans h
    | i2c bytes => cases e.symm.trans h
  · exact move_of_otherMove (e.symm.trans h)

theorem move_of_step {s s' : State} (h : step s = .next s') : ∃ t, Move s t ∧ s' = finish t := by
  obtain ⟨t, ht, rfl⟩ := step_eq_next_iff.1 h
  exact ⟨t, move_of_takeTurn ht, rfl⟩

/-! The invariant of one context (R174). -/

/-- A context in IDLE with nothing left to do satisfies its invariant. -/
theorem CtxInv.of_idle {g : HandleCfg} {C : Ctx} (hp : C.phase = .idle) (hc : C.cur = none) (hn : C.pending = []) :
    CtxInv g C := by
  constructor <;> simp [hp, hc, hn, Phase.onSpi, Phase.onI2c, Phase.regOnly, Phase.afterRead]

/-- The word that the interface holds is no part of the invariant. -/
theorem CtxInv.with_held {g : HandleCfg} {C : Ctx} (h : CtxInv g C) (o : Option Word16) :
    CtxInv g { C with held := o } :=
  ⟨h.idle_empty, h.mode_known, h.spi_phase, h.i2c_phase, h.command, h.reg_phase, h.read_phase, h.byte_there,
    h.init_checked⟩

/-- Going on to another phase of the same transaction: what the new phase asks beyond the old one. -/
theorem CtxInv.advance {g : HandleCfg} {C : Ctx} (h : CtxInv g C) (hC : C.phase ≠ .idle) {p : Phase}
    {b : Option Byte} (hp : p ≠ .idle) (spi : p.onSpi = true → g.mode = .spi) (i2c : p.onI2c = true → g.mode = .i2c)
    (reg : p.regOnly = true → ∀ t, C.cur = some t → t.kind = .reg)
    (read : p = .i2cRead → ∀ t, C.cur = some t → t.rw = .read)
    (byte : p.afterRead = true → ∀ t, C.cur = some t → t.kind = .reg → t.rw = .read → b ≠ none) :
    CtxInv g { C with phase := p, rdByte := b } where
  idle_empty e := absurd e hp
  mode_known _ := h.mode_known hC
  spi_phase := spi
  i2c_phase := i2c
  command _ := h.command hC
  reg_phase := reg
  read_phase := read
  byte_there := byte
  init_checked _ := h.init_checked hC

theorem initSeq_ne_nil (g : HandleCfg) : initSeq g ≠ [] := by
  simp [initSeq]

theorem txnCheck_mem_initSeq (g : HandleCfg) : txnCheck ∈ initSeq g := by
  simp [initSeq]

/-- Only the handles on SPI have the chip-select pulse in their INIT (R202). -/
theorem kind_eq_reg_of_mem_initSeq {g : HandleCfg} {t : Txn} (hg : g.mode ≠ .spi) (h : t ∈ initSeq g) :
    t.kind = .reg := by
  have all_reg : ∀ u ∈ initSeq g, u.kind = .reg := by
    simp [initSeq, hg, initPort, txnWrite, txnCheck]
  exact all_reg t h

theorem CommandShape.kind_eq_reg {g : HandleCfg} {C : Ctx} {t : Txn} (h : CommandShape g C) (hg : g.mode ≠ .spi)
    (ht : C.cur = some t) : t.kind = .reg := by
  unfold CommandShape at h
  split at h
  · obtain ⟨p, r, hc, -⟩ := h
    obtain rfl := Option.some.inj (ht.symm.trans hc)
    rfl
  · obtain ⟨p, r, v, hc, -⟩ := h
    obtain rfl := Option.some.inj (ht.symm.trans hc)
    rfl
  · obtain ⟨u, k, hc, hd⟩ := h
    obtain rfl := Option.some.inj (ht.symm.trans hc)
    exact kind_eq_reg_of_mem_initSeq hg (List.mem_of_mem_drop (hd ▸ List.mem_cons_self))
  · exact h.elim

/-- Only INIT has a transaction after its current one, and the rest is a shorter rest of its list (R201, R202). -/
theorem CommandShape.tail {g : HandleCfg} {C : Ctx} {n : Txn} {rest : List Txn} (h : CommandShape g C)
    (hn : C.pending = n :: rest) : C.cmd = some .init ∧ ∃ k, n :: rest = (initSeq g).drop k := by
  unfold CommandShape at h
  split at h
  · obtain ⟨p, r, -, hp⟩ := h
    cases hn.symm.trans hp
  · obtain ⟨p, r, v, -, hp⟩ := h
    cases hn.symm.trans hp
  · next hk =>
    obtain ⟨u, k, -, hd⟩ := h
    refine ⟨hk, k + 1, ?_⟩
    rw [← List.drop_drop, ← hd, hn]
    rfl
  · exact h.elim

/-- A command that is accepted is all before it, INIT's test still to come (R200, R203). -/
theorem CtxInv.of_accept {g : HandleCfg} {i : Instr} {k : CmdKind} {e : HandleCfg → List Txn} (he : Expands i k e)
    (hg : g.mode ≠ .undefined) (C : Ctx) : CtxInv g (acceptCtx k (e g) C) := by
  have shape : CommandShape g (acceptCtx k (e g) C) := by
    cases he with
    | init => exact ⟨_, 0, List.head?_eq_some_head (initSeq_ne_nil g), List.cons_head_tail (initSeq_ne_nil g)⟩
    | read p r => exact ⟨p, r, rfl, rfl⟩
    | write p r v => exact ⟨p, r, v, rfl, rfl⟩
  refine ⟨nofun, fun _ => hg, nofun, nofun, fun _ => shape, nofun, nofun, nofun, ?_⟩
  rintro - hk hu
  cases he with
  | init =>
    have hmem : txnCheck ∈ (initSeq g).head (initSeq_ne_nil g) :: (initSeq g).tail := by
      rw [List.cons_head_tail]
      exact txnCheck_mem_initSeq g
    cases hu _ (List.head?_eq_some_head (initSeq_ne_nil g)) txnCheck hmem
  | read p r => cases hk
  | write p r v => cases hk

/-- The context at the next transaction of its command (R174). -/
theorem CtxInv.next {g : HandleCfg} {C : Ctx} {t n : Txn} {rest : List Txn} (h : CtxInv g C) (hC : C.phase ≠ .idle)
    (ht : C.cur = some t) (hn : C.pending = n :: rest) : CtxInv g (nextCtx g t n rest C) := by
  obtain ⟨hk, k, hd⟩ := (h.command hC).tail hn
  have shape : CommandShape g (nextCtx g t n rest C) := by
    simp only [CommandShape, nextCtx, checkedCtx, hk]
    exact ⟨n, k, rfl, hd⟩
  refine ⟨nofun, fun _ => h.mode_known hC, nofun, nofun, fun _ => shape, nofun, nofun, nofun, ?_⟩
  rintro - - hu
  by_cases hc : t.check = true
  · simp [nextCtx, checkedCtx, hc]
  · simp only [nextCtx, checkedCtx, hc]
    refine h.init_checked hC hk fun u hcur x hx => ?_
    obtain rfl := Option.some.inj (ht.symm.trans hcur)
    rw [hn] at hx
    obtain rfl | hx := List.mem_cons.1 hx
    · simpa using hc
    · exact hu n rfl x hx

/-! The invariant of the block, one rule for each kind of update. -/

/-- The invariant reads the parameters, the lock, the lines, the contexts and the fault record only. -/
theorem Inv.congr {s t : State} (hs : Inv s) (hpar : t.par = s.par) (hlock : t.lock = s.lock) (hcs : t.cs = s.cs)
    (hctx : t.ctx = s.ctx) (hfault : t.fault = s.fault) : Inv t := by
  cases s
  cases t
  subst hpar hlock hcs hctx hfault
  exact ⟨hs.params, hs.ctx_len, hs.cs_len, hs.lock_lt, hs.lock_iff, hs.cs_iff, hs.ctx_inv, hs.fault_inv⟩

theorem Inv.finish {s : State} (hs : Inv s) : Inv (finish s) := hs.congr rfl rfl rfl rfl rfl

theorem Inv.emit {s : State} (hs : Inv s) (e : Event) : Inv (s.emit e) := hs.congr rfl rfl rfl rfl rfl

/-- A phase in which the line is asserted is one in which the lock is held (R175, R177). -/
theorem Phase.holdsLock_of_assertsCs {p : Phase} (h : p.assertsCs = true) : p.holdsLock = true := by
  revert h
  cases p <;> decide

theorem getCtx_set_same {s t : State} {c : Nat} {C : Ctx} (ht : t.ctx = s.ctx.set c C) (hc : c < s.ctx.length) :
    t.getCtx c = C := by
  simp [State.getCtx, ht, hc]

theorem getCtx_set_ne {s t : State} {c d : Nat} {C : Ctx} (ht : t.ctx = s.ctx.set c C) (hd : d ≠ c) :
    t.getCtx d = s.getCtx d := by
  simp [State.getCtx, ht, Ne.symm hd]

/-- Every context's handle exists (R29). -/
theorem handle_lt {p : Params} (hp : p.WellFormed) {c : Nat} (hc : c < p.nCtx) : p.handle c < p.nDev := by
  obtain ⟨-, -, hh, -⟩ := hp
  have hc : c < p.ctxHandle.length := hc
  simpa [Params.handle, Params.nDev, hc] using hh _ (List.getElem_mem hc)

/-- Every context's line exists (R27, R29). -/
theorem csLine_lt {p : Params} (hp : p.WellFormed) {c : Nat} (hc : c < p.nCtx) : (p.handleCfg c).csLine < p.nCs := by
  have hd : p.handle c < p.cfg.length := handle_lt hp hc
  obtain ⟨-, -, -, hl⟩ := hp
  simpa [Params.handleCfg, hd] using hl _ (List.getElem_mem hd)

/-- An update of a context that leaves the bus alone: the phase neither takes nor gives up the lock or the line. -/
theorem Inv.modCtx {s : State} (hs : Inv s) {c : Nat} {f : Ctx → Ctx} (hc : c < s.par.nCtx)
    (hlock : (f (s.getCtx c)).phase.holdsLock = (s.getCtx c).phase.holdsLock)
    (hcs : (f (s.getCtx c)).phase.assertsCs = (s.getCtx c).phase.assertsCs)
    (hfault : s.fault = none ∨ (f (s.getCtx c)).phase = (s.getCtx c).phase)
    (hf : CtxInv (s.par.handleCfg c) (f (s.getCtx c))) : Inv (s.modCtx c f) := by
  have hlen : c < s.ctx.length := hs.ctx_len ▸ hc
  have same := State.modCtx_getCtx_same s c f hlen
  have holds : ∀ d, ((s.modCtx c f).getCtx d).phase.holdsLock = (s.getCtx d).phase.holdsLock := fun d => by
    by_cases hd : d = c
    · rw [hd, same, hlock]
    · rw [State.modCtx_getCtx_ne s f hd]
  have asserts : ∀ d, ((s.modCtx c f).getCtx d).phase.assertsCs = (s.getCtx d).phase.assertsCs := fun d => by
    by_cases hd : d = c
    · rw [hd, same, hcs]
    · rw [State.modCtx_getCtx_ne s f hd]
  refine ⟨hs.params, by simpa using hs.ctx_len, hs.cs_len, hs.lock_lt, fun d hd => ?_, fun l hl => ?_, fun d hd => ?_,
    fun r hr => ?_⟩
  · rw [holds]
    exact hs.lock_iff d hd
  · simp only [asserts]
    exact hs.cs_iff l hl
  · by_cases e : d = c
    · rw [e, same]
      exact hf
    · rw [State.modCtx_getCtx_ne s f e]
      exact hs.ctx_inv d hd
  · obtain ⟨hlt, hdev, hph, hk⟩ := hs.fault_inv r hr
    refine ⟨hlt, hdev, hph.trans ?_, hk⟩
    by_cases e : r.ctx = c
    · obtain hn | hp := hfault
      · cases hn.symm.trans hr
      · rw [e, same, hp]
    · rw [State.modCtx_getCtx_ne s f e]

/-- A step of a context that no other keeps from the bus: the lock and the lines follow its new phase (R175, R177). -/
theorem Inv.busMove {s t : State} (hs : Inv s) {c : Nat} {C : Ctx} (hc : c < s.par.nCtx)
    (howner : s.lock = none ∨ s.lock = some c) (hpar : t.par = s.par) (hctx : t.ctx = s.ctx.set c C)
    (hlock : t.lock = if C.phase.holdsLock then some c else none) (hlen : t.cs.length = s.cs.length)
    (hcs : ∀ l < s.par.nCs, (t.getCs l = true ↔ (s.par.handleCfg c).csLine = l ∧ C.phase.assertsCs = true))
    (hfault : t.fault = none) (hC : CtxInv (s.par.handleCfg c) C) : Inv t := by
  have same : t.getCtx c = C := getCtx_set_same hctx (hs.ctx_len ▸ hc)
  have lock_iff : ∀ d, (t.lock = some d ↔ d = c ∧ C.phase.holdsLock = true) := fun d => by
    rw [hlock]
    by_cases h : C.phase.holdsLock = true
    · simpa [h] using eq_comm
    · simp [h]
  have others_wait : ∀ d < s.par.nCtx, d ≠ c → (s.getCtx d).phase.holdsLock ≠ true := fun d hd hne h => by
    have hl := (hs.lock_iff d hd).2 h
    obtain e | e := howner
    · cases e.symm.trans hl
    · exact hne (Option.some.inj (hl.symm.trans e))
  refine ⟨hpar ▸ hs.params, by simp [hctx, hpar, hs.ctx_len], by rw [hlen, hpar, hs.cs_len], fun d hd => ?_,
    fun d hd => ?_, fun l hl => ?_, fun d hd => ?_, fun r hr => by cases hfault.symm.trans hr⟩
  · rw [((lock_iff d).1 hd).1, hpar]
    exact hc
  · rw [lock_iff]
    by_cases e : d = c
    · simp [e, same]
    · rw [getCtx_set_ne hctx e]
      simp [e, others_wait d (hpar ▸ hd) e]
  · rw [hcs l (hpar ▸ hl), hpar]
    constructor
    · rintro ⟨hline, ha⟩
      exact ⟨c, (lock_iff c).2 ⟨rfl, Phase.holdsLock_of_assertsCs ha⟩, hline, same ▸ ha⟩
    · rintro ⟨d, hd, hline, ha⟩
      obtain ⟨rfl, -⟩ := (lock_iff d).1 hd
      exact ⟨hline, same ▸ ha⟩
  · rw [hpar]
    by_cases e : d = c
    · rw [e, same]
      exact hC
    · rw [getCtx_set_ne hctx e]
      exact hs.ctx_inv d (hpar ▸ hd)

/-- Raising a fault in the phase of its cause keeps everything but the record (R231, R235). -/
theorem Inv.raiseFault {s : State} (hs : Inv s) {c : Nat} {k : Cause} (hc : c < s.par.nCtx)
    (hp : (s.getCtx c).phase = k.raisedIn) : Inv (raiseFault s c k) := by
  refine ⟨hs.params, hs.ctx_len, hs.cs_len, hs.lock_lt, hs.lock_iff, hs.cs_iff, hs.ctx_inv, fun r hr => ?_⟩
  cases hr
  exact ⟨hc, rfl, rfl, hp⟩

/-- Taking a word from the interface keeps the invariant. -/
theorem Inv.takeWord {s : State} (hs : Inv s) {c : Nat} (w : Word16) (hc : c < s.par.nCtx) : Inv (takeWord s c w) :=
  (hs.emit _).modCtx hc rfl rfl (.inr rfl) ((hs.ctx_inv c hc).with_held none)

/-- The lines while the lock is free (R177). -/
theorem Inv.line_low {s : State} (hs : Inv s) (hl : s.lock = none) {l : Nat} (hlt : l < s.par.nCs) :
    s.getCs l = false := by
  refine Bool.eq_false_iff.2 fun h => ?_
  obtain ⟨d, hd, -⟩ := (hs.cs_iff l hlt).1 h
  cases hl.symm.trans hd

/-- The lines while context c holds the lock (R177). -/
theorem Inv.line_iff {s : State} (hs : Inv s) {c : Nat} (hl : s.lock = some c) {l : Nat} (hlt : l < s.par.nCs) :
    s.getCs l = true ↔ (s.par.handleCfg c).csLine = l ∧ (s.getCtx c).phase.assertsCs = true := by
  rw [hs.cs_iff l hlt]
  constructor
  · rintro ⟨d, hd, h⟩
    obtain rfl := Option.some.inj (hl.symm.trans hd)
    exact h
  · exact fun h => ⟨c, hl, h⟩

@[simp] theorem resetOf_getCtx (p : Params) (busy : Bool) (c : Nat) : (State.resetOf p busy).getCtx c = Ctx.reset := by
  simp only [State.getCtx, State.resetOf, List.getD_eq_getElem?_getD, List.getElem?_replicate]
  split <;> rfl

@[simp] theorem applyReset_getCtx (s : State) (c : Nat) : (applyReset s).getCtx c = Ctx.reset :=
  resetOf_getCtx s.par s.spiBusy c

/-- The block right after reset satisfies the invariant (R260). -/
theorem inv_resetOf {p : Params} (hp : p.WellFormed) (busy : Bool) : Inv (State.resetOf p busy) := by
  refine ⟨hp, List.length_replicate, List.length_replicate, nofun, fun c _ => ?_, fun l _ => ?_, fun c _ => ?_, nofun⟩
  · rw [resetOf_getCtx]
    exact ⟨nofun, nofun⟩
  · simp [State.getCs, State.resetOf, List.getElem?_replicate]
    split <;> rfl
  · rw [resetOf_getCtx]
    exact .of_idle rfl rfl rfl

/-! Every move keeps the invariant. -/

/-- The context of the move holds the lock in a phase that asks for it (R175). -/
theorem Inv.lock_of_phase {s : State} (hs : Inv s) {c : Nat} {p : Phase} (hc : c < s.par.nCtx)
    (hp : (s.getCtx c).phase = p) (hh : p.holdsLock = true) : s.lock = some c :=
  (hs.lock_iff c hc).2 (hp ▸ hh)

/-- Reading a line after an update of line m, which exists. -/
theorem getCs_set {s t : State} {m l : Nat} {v : Bool} (ht : t.cs = s.cs.set m v) (hm : m < s.cs.length) :
    t.getCs l = if m = l then v else s.getCs l := by
  by_cases h : m = l
  · subst h
    simp [State.getCs, ht, hm]
  · simp [State.getCs, ht, h]

/-- Setting the line of the lock holder, which goes on to a phase of that level (R167, R171, R177). -/
theorem Inv.lineMove {s : State} (hs : Inv s) {c : Nat} {f : Ctx → Ctx} (e : Event) {v : Bool} (hc : c < s.par.nCtx)
    (hl : s.lock = some c) (hlock : (f (s.getCtx c)).phase.holdsLock = true)
    (hcs : (f (s.getCtx c)).phase.assertsCs = v) (hf : s.fault = none)
    (hC : CtxInv (s.par.handleCfg c) (f (s.getCtx c))) :
    Inv (((s.setCs (s.par.handleCfg c).csLine v).emit e).modCtx c f) := by
  refine hs.busMove (C := f (s.getCtx c)) hc (.inr hl) rfl rfl (by simpa [hlock] using hl) (by simp)
    (fun l hlt => ?_) hf hC
  rw [getCs_set (s := s) rfl (hs.cs_len ▸ csLine_lt hs.params hc), hcs]
  split
  · next h => simp [h]
  · next h => simp [hs.line_iff hl hlt, h]

/-- A change of phase of a context on the SPI path: the invariant of the context after it. -/
theorem CtxInv.advance_spi {g : HandleCfg} {C : Ctx} (h : CtxInv g C) (hC : C.phase.onSpi = true) {p : Phase}
    {b : Option Byte} (hp : p.onSpi = true ∨ p = .release)
    (reg : p.regOnly = true → ∀ t, C.cur = some t → t.kind = .reg)
    (byte : p.afterRead = true → ∀ t, C.cur = some t → t.kind = .reg → t.rw = .read → b ≠ none) :
    CtxInv g { C with phase := p, rdByte := b } := by
  have idle : C.phase ≠ .idle := fun e => by rw [e] at hC; cases hC
  have path : p ≠ .idle ∧ p.onI2c = false ∧ p ≠ .i2cRead := by
    revert hp
    cases p <;> decide
  obtain ⟨hi, hw, hr⟩ := path
  exact h.advance idle hi (fun _ => h.spi_phase hC) (fun e => by cases hw.symm.trans e) reg (fun e => absurd e hr) byte

/-- A change of phase of a context on the I2C path: the invariant of the context after it. -/
theorem CtxInv.advance_i2c {g : HandleCfg} {C : Ctx} (h : CtxInv g C) (hC : C.phase.onI2c = true) {p : Phase}
    {b : Option Byte} (hp : p = .i2cRead ∨ p = .release) (read : p = .i2cRead → ∀ t, C.cur = some t → t.rw = .read)
    (byte : p.afterRead = true → ∀ t, C.cur = some t → t.kind = .reg → t.rw = .read → b ≠ none) :
    CtxInv g { C with phase := p, rdByte := b } := by
  have idle : C.phase ≠ .idle := fun e => by rw [e] at hC; cases hC
  have reg : ∀ t, C.cur = some t → t.kind = .reg := h.reg_phase (by
    revert hC
    cases C.phase <;> decide)
  have path : p ≠ .idle ∧ p.onSpi = false := by
    revert hp
    cases p <;> decide
  obtain ⟨hi, hx⟩ := path
  exact h.advance idle hi (fun e => by cases hx.symm.trans e) (fun _ => h.i2c_phase hC) (fun _ => reg) read byte

/-- The context after it has acquired the lock, on the path of its bus (R166). -/
theorem CtxInv.after_lock {g : HandleCfg} {C : Ctx} (h : CtxInv g C) (hp : C.phase = .lockWait) :
    CtxInv g { C with phase := if g.mode = .spi then .csAssert else .i2cWrite } := by
  have idle : C.phase ≠ .idle := by simp [hp]
  by_cases hm : g.mode = .spi
  · rw [if_pos hm]
    exact h.advance idle nofun (fun _ => hm) nofun nofun nofun nofun
  · rw [if_neg hm]
    have i2c : g.mode = .i2c := by
      have known := h.mode_known idle
      cases hg : g.mode <;> simp_all
    exact h.advance idle nofun nofun (fun _ => i2c) (fun _ _ hu => (h.command idle).kind_eq_reg hm hu) nofun nofun

/-- The context after it has asserted its line: a pulse has no exchange (R167). -/
theorem CtxInv.after_assertCs {g : HandleCfg} {C : Ctx} {u : Txn} (h : CtxInv g C) (hp : C.phase = .csAssert)
    (hu : C.cur = some u) : CtxInv g { C with phase := if u.kind = .pulse then .csDeassert else .waitIdlePre } := by
  have spi : C.phase.onSpi = true := by rw [hp]; rfl
  have kind : ∀ x, C.cur = some x → x.kind = u.kind := fun x hx => by rw [Option.some.inj (hu.symm.trans hx)]
  by_cases hk : u.kind = .pulse
  · rw [if_pos hk]
    exact h.advance_spi spi (.inl rfl) nofun fun _ x hx hr => by cases hk.symm.trans ((kind x hx).symm.trans hr)
  · rw [if_neg hk]
    have reg : u.kind = .reg := by cases hr : u.kind <;> simp_all
    exact h.advance_spi spi (.inl rfl) (fun _ x hx => (kind x hx).trans reg) nofun

/-- The context after its I2C write: only a read goes on to the read phase (R172). -/
theorem CtxInv.after_i2cWrite {g : HandleCfg} {C : Ctx} {u : Txn} (h : CtxInv g C) (hp : C.phase = .i2cWrite)
    (hu : C.cur = some u) : CtxInv g { C with phase := if u.rw = .read then .i2cRead else .release } := by
  have i2c : C.phase.onI2c = true := by rw [hp]; rfl
  have same : ∀ x, C.cur = some x → x.rw = u.rw := fun x hx => by rw [Option.some.inj (hu.symm.trans hx)]
  by_cases hr : u.rw = .read
  · rw [if_pos hr]
    exact h.advance_i2c i2c (.inl rfl) (fun _ x hx => (same x hx).trans hr) nofun
  · rw [if_neg hr]
    exact h.advance_i2c i2c (.inr rfl) nofun fun _ x hx _ hx' => absurd ((same x hx).symm.trans hx') hr

/-- The context after its exchange: a read has its byte (R169). -/
theorem CtxInv.after_exchange {g : HandleCfg} {C : Ctx} {u : Txn} (h : CtxInv g C) (hp : C.phase = .spiXfer)
    (hu : C.cur = some u) (b : Byte) :
    CtxInv g { C with rdByte := if u.rw = .read then some b else C.rdByte, phase := .waitIdlePost } := by
  refine h.advance_spi (by rw [hp]; rfl) (.inl rfl) (fun _ => h.reg_phase (by rw [hp]; rfl)) fun _ x hx _ hr => ?_
  obtain rfl := Option.some.inj (hu.symm.trans hx)
  simp [hr]

/-- Every enabled step of a context keeps the invariant, by its effect on the lock, the lines and the context. -/
theorem ContextMove.inv {c : Nat} {s t : State} (hs : Inv s) (hc : c < s.par.nCtx) (hf : s.fault = none)
    (h : ContextMove c s t) : Inv t := by
  have hi := hs.ctx_inv c hc
  cases h with
  | lock hp hl =>
    refine hs.busMove (C := { s.getCtx c with
      phase := if (s.par.handleCfg c).mode = .spi then .csAssert else .i2cWrite }) hc (.inl hl) rfl rfl ?_ rfl ?_ hf
      (hi.after_lock hp)
    · by_cases hm : (s.par.handleCfg c).mode = .spi <;> simp [hm, Phase.holdsLock]
    · intro l hlt
      by_cases hm : (s.par.handleCfg c).mode = .spi <;> simp [hm, Phase.assertsCs, hs.line_low hl hlt]
  | assertCs u hp hu =>
    refine hs.lineMove _ hc (hs.lock_of_phase hc hp rfl) ?_ ?_ hf (hi.after_assertCs hp hu)
    · by_cases hk : u.kind = .pulse <;> simp [hk, Phase.holdsLock]
    · by_cases hk : u.kind = .pulse <;> simp [hk, Phase.assertsCs]
  | idleBefore hp hb =>
    exact hs.modCtx hc (by rw [hp]; rfl) (by rw [hp]; rfl) (.inl hf)
      (hi.advance_spi (by rw [hp]; rfl) (.inl rfl) (fun _ => hi.reg_phase (by rw [hp]; rfl)) nofun)
  | exchange u hp hu =>
    exact (hs.emit _).modCtx hc (by simp [hp, Phase.holdsLock]) (by simp [hp, Phase.assertsCs]) (.inl hf)
      (hi.after_exchange hp hu s.inp.rx2)
  | idleAfter hp hb =>
    exact hs.modCtx hc (by rw [hp]; rfl) (by rw [hp]; rfl) (.inl hf)
      (hi.advance_spi (by rw [hp]; rfl) (.inl rfl) nofun (fun _ => hi.byte_there (by rw [hp]; rfl)))
  | deassertCs hp =>
    exact hs.lineMove _ hc (hs.lock_of_phase hc hp rfl) rfl rfl hf
      (hi.advance_spi (by rw [hp]; rfl) (.inr rfl) nofun (fun _ => hi.byte_there (by rw [hp]; rfl)))
  | i2cWrite u hp hu =>
    refine (hs.emit _).modCtx hc ?_ ?_ (.inl hf) (hi.after_i2cWrite hp hu)
    · by_cases hr : u.rw = .read <;> simp [hp, hr, Phase.holdsLock]
    · by_cases hr : u.rw = .read <;> simp [hp, hr, Phase.assertsCs]
  | i2cRead hp =>
    exact (hs.emit _).modCtx hc (by simp [hp, Phase.holdsLock]) (by simp [hp, Phase.assertsCs]) (.inl hf)
      (hi.advance_i2c (by rw [hp]; rfl) (.inr rfl) nofun nofun)
  | next u n rest hp hu hn =>
    have hl := hs.lock_of_phase hc hp rfl
    refine hs.busMove (C := nextCtx (s.par.handleCfg c) u n rest (s.getCtx c)) hc (.inr hl) rfl rfl rfl rfl
      (fun l hlt => ?_) hf (hi.next (by simp [hp]) hu hn)
    exact (hs.line_iff hl hlt).trans (by rw [hp]; rfl)
  | complete u hp hu hn =>
    have hl := hs.lock_of_phase hc hp rfl
    refine hs.busMove (C := completeCtx (s.par.handleCfg c) u (s.getCtx c)) hc (.inr hl) rfl rfl rfl rfl
      (fun l hlt => ?_) hf (.of_idle rfl rfl ?_)
    · exact (hs.line_iff hl hlt).trans (by rw [hp]; rfl)
    · rw [completeCtx_pending, hn]
  | fail e k hp hk he => exact (hs.emit e).raiseFault hc hp

/-- Every move keeps the invariant. -/
theorem Move.inv {s t : State} (hs : Inv s) (h : Move s t) : Inv t := by
  cases h with
  | stay ht => exact hs
  | reset ht => exact (inv_resetOf hs.params s.spiBusy).congr rfl rfl rfl rfl rfl
  | read r ht => exact hs.congr rfl rfl rfl rfl rfl
  | master ht => exact hs.congr rfl rfl rfl rfl rfl
  | hold w hf hl hr => exact hs.modCtx hl rfl rfl (.inr rfl) ((hs.ctx_inv _ hl).with_held (some w))
  | accept w i k e hf hl hr hm hd he =>
    rw [acceptedState_eq]
    exact (hs.emit _).modCtx hl (by rw [State.emit_getCtx, hr.1]; rfl) (by rw [State.emit_getCtx, hr.1]; rfl)
      (.inl hr.2) (.of_accept he hm _)
  | refuse w k hf hl hr hk =>
    exact (hs.takeWord w hl).raiseFault hl ((takeWord_getCtx_phase ..).trans (hr.1.trans hk.symm))
  | context _ ht hl hf hm => exact hm.inv hs hl hf

/-- Settles O49: every move keeps the invariant, and presenting the next inputs does not touch it. -/
theorem invariantKept : Obligations.InvariantKept := by
  intro s s' hs h
  obtain ⟨t, hm, rfl⟩ := move_of_step h
  exact (hm.inv hs).finish

/-! The parameters (R28). -/

/-- Settles O51. -/
theorem configurationIsConstant : Obligations.ConfigurationIsConstant := fun _ _ => step_par

/-! What a turn fetches, and ACCEPT (R39, R200). -/

/-- Settles O15, by what fetch answers at each turn. -/
theorem fetchOfATurn : Obligations.FetchOfATurn := by
  refine ⟨fun s w ⟨ht, hw, _, hh⟩ => fetch_eq_word_iff.2 (.inl ⟨ht, hw, hh⟩),
    fun s w ht hh => fetch_eq_word_iff.2 (.inr ⟨ht, hh⟩),
    fun s t ⟨ht, _, hf, hp⟩ hu => (fetch_context ht).trans (dueFrame_spiXfer hf hp hu),
    fun s t ⟨ht, _, hf, hp⟩ hu => (fetch_context ht).trans (dueFrame_i2cWrite hf hp hu),
    fun s t ⟨ht, _, hf, hp⟩ hu hr => (fetch_context ht).trans (dueFrame_i2cRead hf hp hu hr),
    fun s ht hh => (fetch_cmdWrite ht).trans (if_neg hh),
    fun s ht hh => ?_,
    fun s ht hp => (fetch_context ht).trans (dueFrame_eq_none hp),
    fun s ht hs => (fetch_context ht).trans (dueFrame_eq_none_of_stopped hs),
    fun s => fetch_other⟩
  rw [fetch_cmdHeld ht, hh]
  rfl

/-- The step of a turn that fetches a word, where the context of the turn exists. -/
theorem step_of_word {s : State} {w : Word16} (hf : fetch s = some (.word w)) (hl : s.turnLegal) :
    ∃ a, Accepts w a ∧ step s = .next (finish (writeCmd w a s.inp.sel s)) := by
  obtain ⟨a, ha, hx⟩ := takeTurn_of_word hf
  exact ⟨a, ha, step_eq_next_iff.2 ⟨_, hx.trans (onContext_of_lt hl), rfl⟩⟩

theorem writeCmd_of_ready {s : State} {w : Word16} {a : Nat → State → State} {c : Nat}
    (h : (s.getCtx c).phase = .idle ∧ s.fault = none) : writeCmd w a c s = a c s :=
  if_pos (acceptEnabled_iff.2 h)

theorem writeCmd_of_not_ready {s : State} {w : Word16} {a : Nat → State → State} {c : Nat}
    (h : ¬((s.getCtx c).phase = .idle ∧ s.fault = none)) :
    writeCmd w a c s = s.modCtx c fun C => { C with held := some w } :=
  if_neg fun hn => h (acceptEnabled_iff.1 hn)

theorem Accepts.eq_of_illegal {w : Word16} {a : Nat → State → State} {e : Illegal} (h : Accepts w a)
    (hd : decode (.word w) = .illegal e) : a = acceptIllegal w := by
  cases h with
  | illegal _ _ => rfl
  | command i k x hi _ => cases hd.symm.trans hi

theorem Accepts.eq_of_instr {w : Word16} {a : Nat → State → State} {i : Instr} (h : Accepts w a)
    (hd : decode (.word w) = .instr i) : ∃ k e, Expands i.core k e ∧ a = acceptCommand w k e := by
  cases h with
  | illegal e he => cases hd.symm.trans he
  | command j k e hj he =>
    cases hd.symm.trans hj
    exact ⟨k, e, he, rfl⟩

/-- ACCEPT of a command whose handle has a transport, by the kind and the transactions of the command (R200). -/
theorem Accepts.eq_acceptedState {s : State} {w : Word16} {a : Nat → State → State} {i : Instr} {k : CmdKind}
    {e : HandleCfg → List Txn} (h : Accepts w a) (hd : decode (.word w) = .instr i) (he : Expands i.core k e)
    (hm : (s.par.handleCfg s.inp.sel).mode ≠ .undefined) :
    a s.inp.sel s = acceptedState s w k (e (s.par.handleCfg s.inp.sel)) := by
  obtain ⟨k', e', he', rfl⟩ := h.eq_of_instr hd
  obtain ⟨rfl, rfl⟩ := he.unique he'
  exact acceptCommand_of_known w k' e' hm

/-- Settles O16: the word fetched is written to `CMD`, and is accepted as its decoding says or held. -/
theorem acceptOfAWord : Obligations.AcceptOfAWord := by
  intro s w hl hw c g taken
  have hf : fetch s = some (.word w) := fetch_eq_word_iff.2 (hw.imp_left fun ⟨ht, hw, _, hh⟩ => ⟨ht, hw, hh⟩)
  obtain ⟨a, ha, hs⟩ := step_of_word hf hl
  refine ⟨fun hr => ?_, fun hr => by rw [hs, writeCmd_of_not_ready hr]; rfl⟩
  rw [hs, writeCmd_of_ready hr]
  refine ⟨fun e hd => ?_, fun i hd hm => ?_, fun hm => ⟨fun hd => ?_, fun p r hd => ?_, fun p r v hd => ?_⟩⟩
  · rw [ha.eq_of_illegal hd, acceptIllegal, raiseFault_takeWord]
  · obtain ⟨k, e, -, rfl⟩ := ha.eq_of_instr hd
    rw [acceptCommand, if_pos hm, raiseFault_takeWord]
  · rw [ha.eq_acceptedState hd .init hm]
  · rw [ha.eq_acceptedState hd (.read p r) hm]
  · rw [ha.eq_acceptedState hd (.write p r v) hm]

/-- Settles O23: every instruction that is encoded as a word is the write of that word to `CMD`. -/
theorem busyContextHoldsTheWrite : Obligations.BusyContextHoldsTheWrite := by
  intro s i w hi hl hr _
  obtain ⟨k, e, -, hx⟩ := exec_of_encode_word hi s
  rw [hx, hostCommand, onContext_of_lt hl, writeCmd_of_not_ready hr]
  rfl

/-! The held write (R39). -/

/-- An enabled step of a context takes no word from the interface. -/
theorem ContextMove.held {c : Nat} {s t : State} (h : ContextMove c s t) (d : Nat) :
    (t.getCtx d).held = (s.getCtx d).held := by
  cases h with
  | fail e k hp hk he => rfl
  | complete u hp hu hn => exact State.modCtx_getCtx_field _ c d _ Ctx.held fun C => completeCtx_held _ u C
  | _ => exact State.modCtx_getCtx_field _ c d _ Ctx.held fun _ => rfl

/-- A turn that fetches a word while context c holds w is c's own retry of w, or is another context's. -/
theorem fetch_word_of_held {s : State} {w v : Word16} {c : Nat} (hf : fetch s = some (.word v))
    (hh : (s.getCtx c).held = some w) : (s.inp.turn = .cmdHeld ∧ s.inp.sel = c ∧ v = w) ∨ c ≠ s.inp.sel := by
  by_cases hc : c = s.inp.sel
  · subst hc
    obtain ⟨-, -, hn⟩ | ⟨ht, hv⟩ := fetch_eq_word_iff.1 hf
    · cases hn.symm.trans hh
    · exact .inl ⟨ht, rfl, Option.some.inj (hv.symm.trans hh)⟩
  · exact .inr hc

/-- What a move does to the word w that the interface holds for context c. -/
theorem Move.held {s t : State} {c : Nat} {w : Word16} (h : Move s t) (hc : c < s.ctx.length)
    (hh : (s.getCtx c).held = some w) :
    (t.getCtx c).held = some w ∨ (s.inp.turn = .reset ∧ (t.getCtx c).held = none) ∨
      (s.inp.turn = .cmdHeld ∧ s.inp.sel = c ∧ s.readyToAccept ∧ (t.getCtx c).held = none ∧
        ∃ es, t.trace = s.trace ++ .accept c w :: es) := by
  cases h with
  | stay ht => exact .inl hh
  | reset ht =>
    exact .inr (.inl ⟨ht, by rw [applyReset_getCtx]; rfl⟩)
  | read r ht => exact .inl hh
  | master ht => exact .inl hh
  | hold v hf hl hr =>
    obtain ⟨-, rfl, rfl⟩ | hne := fetch_word_of_held hf hh
    · exact .inl (by rw [State.modCtx_getCtx_same _ _ _ hc])
    · exact .inl (by rw [State.modCtx_getCtx_ne _ _ hne, hh])
  | accept v i k e hf hl hr hm hd he =>
    rw [acceptedState_eq]
    obtain ⟨ht, rfl, rfl⟩ | hne := fetch_word_of_held hf hh
    · refine .inr (.inr ⟨ht, rfl, hr, ?_, [], rfl⟩)
      rw [State.modCtx_getCtx_same (s.emit _) _ _ hc]
      rfl
    · exact .inl (by rw [State.modCtx_getCtx_ne _ _ hne, State.emit_getCtx, hh])
  | refuse v k hf hl hr hk =>
    rw [raiseFault_getCtx, takeWord]
    obtain ⟨ht, rfl, rfl⟩ | hne := fetch_word_of_held hf hh
    · refine .inr (.inr ⟨ht, rfl, hr, ?_, [.fault s.inp.sel k], List.append_assoc ..⟩)
      rw [State.modCtx_getCtx_same (s.emit _) _ _ hc]
    · exact .inl (by rw [State.modCtx_getCtx_ne _ _ hne, State.emit_getCtx, hh])
  | context _ ht hl hf hm => exact .inl ((hm.held c).trans hh)

/-- A host write that finds an earlier one held changes nothing (R39). -/
theorem takeTurn_second_write {s : State} (ht : s.inp.turn = .hostWrite .cmd) (hl : s.turnLegal)
    (hh : (s.getCtx s.inp.sel).held ≠ none) : takeTurn s = .next s := by
  have hf : fetch s = none := (fetch_cmdWrite ht).trans (if_neg hh)
  simp [takeTurn, hf, otherMove, ht, hostWriteReadOnly, perContext, onContext_of_lt hl]

/-- Settles O24: a second write is no move, and of all moves only reset and the acceptance of the word take it. -/
theorem heldWriteIsKept : Obligations.HeldWriteIsKept := by
  intro s c w hs hc hh
  refine ⟨fun ht hsel => ?_, fun s' h => ?_⟩
  · subst hsel
    exact step_eq_next_iff.2 ⟨s, takeTurn_second_write ht hc (by simp [hh]), rfl⟩
  · obtain ⟨t, hm, rfl⟩ := move_of_step h
    exact hm.held (hs.ctx_len ▸ hc) hh

/-! Host registers (R39 to R45). -/

theorem fetch_hostWrite_readOnly {s : State} {r : HostReg} (ht : s.inp.turn = .hostWrite r) (hr : r ≠ .cmd) :
    fetch s = none :=
  fetch_other (by simpa [ht] using hr) (by simp [ht]) (by simp [ht])

/-- A host write to a register of the block that is not `CMD` changes nothing (R42, R43, I21). -/
theorem step_hostWrite_readOnly {s : State} {r : HostReg} (ht : s.inp.turn = .hostWrite r) (hr : r ≠ .cmd)
    (hl : perContext r = true → s.turnLegal) : step s = .next (finish s) := by
  refine step_eq_next_iff.2 ⟨s, ?_, rfl⟩
  simp only [takeTurn, fetch_hostWrite_readOnly ht hr, otherMove, ht, hostWriteReadOnly]
  split
  · next hp => exact onContext_of_lt (hl hp)
  · rfl

/-- Settles O43. -/
theorem hostReads : Obligations.HostReads := by
  refine ⟨fun s r hl ht => step_eq_next_iff.2 ⟨_, ?_, rfl⟩, fun s c => ⟨rfl, rfl, ?_, rfl, rfl, rfl, rfl⟩⟩
  · have hf : fetch s = none := fetch_other (by simp [ht]) (by simp [ht]) (by simp [ht])
    simp only [takeTurn, hf, otherMove, ht]
    obtain e | ⟨hn, -, -⟩ := hostRead_eq s r
    · exact e
    · exact absurd hl hn
  · refine Option.map_congr fun b _ => ?_
    cases b <;> rfl

/-- The bits of CTX_STATUS (R42). -/
theorem ctxStatus_bits (s : State) (c : Nat) :
    (s.ctxStatus c).getLsbD 0 = (s.getCtx c).busy ∧ (s.ctxStatus c).getLsbD 1 = (s.getCtx c).rspDataValid ∧
    (s.ctxStatus c).getLsbD 2 = (s.getCtx c).rspOkValid ∧ (s.ctxStatus c).getLsbD 3 = (s.getCtx c).rspOkFlag ∧
    (s.ctxStatus c).extractLsb' 4 4 = (s.getCtx c).phase.code := by
  have fields : ∀ (p : BitVec 4) (f o d b : Bool),
      let x := p ++ BitVec.ofBool f ++ BitVec.ofBool o ++ BitVec.ofBool d ++ BitVec.ofBool b
      x.getLsbD 0 = b ∧ x.getLsbD 1 = d ∧ x.getLsbD 2 = o ∧ x.getLsbD 3 = f ∧ x.extractLsb' 4 4 = p := by
    decide
  exact fields _ _ _ _ _

/-- Settles O40. -/
theorem ctxStatusFields : Obligations.CtxStatusFields := by
  refine ⟨fun s c => ?_, rfl, fun p busy c => ?_, fun s hl ht => step_hostWrite_readOnly ht nofun fun _ => hl⟩
  · obtain ⟨hb, hd, ho, hf, hp⟩ := ctxStatus_bits s c
    rw [hb, hd, ho, hf]
    exact ⟨by simp [Ctx.busy], by simp [Ctx.rspDataValid, Option.isSome_iff_ne_none],
      by simp [Ctx.rspOkValid, Option.isSome_iff_ne_none], by simp [Ctx.rspOkFlag], hp⟩
  · simp only [State.ctxStatus, resetOf_getCtx]
    rfl

/-! The fault record (R35, R43 to R45, R231, R234). -/

theorem ContextMove.fault {c : Nat} {s t : State} (h : ContextMove c s t) :
    t.fault = s.fault ∨ ∃ e k, t = raiseFault (s.emit e) c k := by
  cases h with
  | fail e k hp hk he => exact .inr ⟨e, k, rfl⟩
  | _ => exact .inl rfl

/-- What a move does to the fault record. -/
theorem Move.fault {s t : State} (h : Move s t) :
    t.fault = s.fault ∨ (s.inp.turn = .reset ∧ t.fault = none) ∨
      (s.fault = none ∧ ∃ k, t.fault = some
          { cause := k, ctx := s.inp.sel, dev := s.par.handle s.inp.sel, phase := (s.getCtx s.inp.sel).phase } ∧
        ∃ es, t.trace = s.trace ++ es ++ [.fault s.inp.sel k]) := by
  cases h with
  | stay ht => exact .inl rfl
  | reset ht => exact .inr (.inl ⟨ht, rfl⟩)
  | read r ht => exact .inl rfl
  | master ht => exact .inl rfl
  | hold w hf hl hr => exact .inl rfl
  | accept w i k e hf hl hr hm hd he => exact .inl rfl
  | refuse w k hf hl hr hk =>
    refine .inr (.inr ⟨hr.2, k, ?_, [.accept s.inp.sel w], rfl⟩)
    rw [raiseFault_fault, takeWord_getCtx_phase, takeWord_par]
  | context _ ht hl hf hm =>
    obtain e | ⟨e, k, rfl⟩ := hm.fault
    · exact .inl e
    · exact .inr (.inr ⟨hf, k, rfl, [e], rfl⟩)

/-- Settles O47: of all moves only a raised fault and reset change the record. -/
theorem faultIsSetOnceAndClearedByReset : Obligations.FaultIsSetOnceAndClearedByReset := by
  intro s s' h hne
  obtain ⟨t, hm, rfl⟩ := move_of_step h
  obtain e | hx := hm.fault
  · exact absurd e hne
  · exact hx

/-- While a fault is recorded every step but reset keeps it (R234). -/
theorem step_fault_kept {s s' : State} (hf : s.fault ≠ none) (ht : s.inp.turn ≠ .reset) (h : step s = .next s') :
    s'.fault = s.fault := by
  by_contra hne
  obtain ⟨hr, -⟩ | ⟨hn, -⟩ := faultIsSetOnceAndClearedByReset s s' h hne
  · exact ht hr
  · exact hf hn

theorem faultStatus_of_none {s : State} (h : s.fault = none) : s.faultStatus = 0x0000#16 := by
  simp [State.faultStatus, h]

theorem faultStatus_of_some {s : State} {f : FaultRec} (h : s.fault = some f) :
    s.faultStatus = 0#4 ++ f.phase.code ++ 0#3 ++ f.cause.code ++ 1#1 := by
  simp only [State.faultStatus, h]

/-- The register is a view of the record. -/
theorem faultStatus_congr {s t : State} (h : t.fault = s.fault) : t.faultStatus = s.faultStatus := by
  simp only [State.faultStatus, h]

/-- The fields of FAULT_STATUS while a fault is recorded (R43). -/
theorem faultStatus_fields (p k : BitVec 4) :
    let x := 0#4 ++ p ++ 0#3 ++ k ++ 1#1
    x.getLsbD 0 = true ∧ x.extractLsb' 1 4 = k ∧ x.extractLsb' 8 4 = p ∧ x.extractLsb' 5 3 = 0#3 ∧
      x.extractLsb' 12 4 = 0#4 := by
  revert p k; decide

/-- Settles O41. -/
theorem faultStatusFields : Obligations.FaultStatusFields := by
  refine ⟨fun s => ?_, rfl, rfl, fun p busy => faultStatus_of_none rfl,
    fun s ht => step_hostWrite_readOnly ht nofun nofun,
    fun s s' hf ht h => faultStatus_congr (step_fault_kept hf ht h)⟩
  cases hf : s.fault with
  | none => simp [faultStatus_of_none hf]
  | some f =>
    obtain ⟨hv, hk, hp, h0, h1⟩ := faultStatus_fields f.phase.code f.cause.code
    rw [faultStatus_of_some hf]
    refine ⟨by simp [hv], nofun, fun r hr => ?_, h0, h1⟩
    cases hr
    exact ⟨hk, hp⟩

/-- Settles O42: the record of a state of the invariant names a context and a handle that exist. -/
theorem faultCtxAndDevAndEscalate : Obligations.FaultCtxAndDevAndEscalate := by
  refine ⟨fun p busy => ⟨rfl, rfl, rfl⟩, fun s hf => by simp [State.faultCtx, State.faultDev, hf],
    fun s f hs hf => ?_, fun s => by simp [State.escalate, Option.isSome_iff_ne_none], fun s ht => ?_⟩
  · obtain ⟨hc, hd, -, -⟩ := hs.fault_inv f hf
    have hd : f.dev < s.par.nDev := hd ▸ handle_lt hs.params hc
    constructor
    · intro h
      simpa [State.faultCtx, hf] using Nat.mod_eq_of_lt (hc.trans_le h)
    · intro h
      simpa [State.faultDev, hf] using Nat.mod_eq_of_lt (hd.trans_le h)
  · obtain ht | ht := ht
    · exact step_hostWrite_readOnly ht nofun nofun
    · exact step_hostWrite_readOnly ht nofun nofun

/-! The response registers (R40, R41, R47, R174). -/

/-- The two response registers of a context. -/
def Ctx.responses (C : Ctx) : Option Byte × Option Bool := (C.rspData, C.rspOk)

theorem takeWord_responses (s : State) (c d : Nat) (w : Word16) :
    ((takeWord s c w).getCtx d).responses = (s.getCtx d).responses :=
  State.modCtx_getCtx_field (s.emit (.accept c w)) c d _ Ctx.responses fun _ => rfl

/-- Context c completes its last transaction u between s and t (R174). -/
structure Completes (s t : State) (c : Nat) (u : Txn) : Prop where
  phase   : (s.getCtx c).phase = .release
  cur     : (s.getCtx c).cur = some u
  pending : (s.getCtx c).pending = []
  after   : t.getCtx c = completeCtx (s.par.handleCfg c) u (s.getCtx c)

/-- An enabled step keeps the response registers of every context but one that completes a command. -/
theorem ContextMove.responses {c : Nat} {s t : State} (h : ContextMove c s t) (d : Nat) :
    (t.getCtx d).responses = (s.getCtx d).responses ∨ ∃ u, Completes s t d u := by
  cases h with
  | complete u hp hu hn =>
    by_cases e : d = c
    · subst e
      exact .inr ⟨u, hp, hu, hn, State.modCtx_getCtx_same _ d _ (lt_of_phase_ne_idle (s := s) (by simp [hp]))⟩
    · exact .inl (congrArg Ctx.responses (State.modCtx_getCtx_ne _ _ e))
  | fail e k hp hk he => exact .inl rfl
  | _ => exact .inl (State.modCtx_getCtx_field _ c d _ Ctx.responses fun _ => rfl)

/-- A move but reset keeps the response registers of every context but one that completes a command. -/
theorem Move.responses {s t : State} (h : Move s t) (hr : s.inp.turn ≠ .reset) (d : Nat) :
    (t.getCtx d).responses = (s.getCtx d).responses ∨ ∃ u, Completes s t d u := by
  cases h with
  | stay ht => exact .inl rfl
  | reset ht => exact absurd ht hr
  | read r ht => exact .inl rfl
  | master ht => exact .inl rfl
  | hold w hf hl hr => exact .inl (State.modCtx_getCtx_field _ _ d _ Ctx.responses fun _ => rfl)
  | accept w i k e hf hl hr hm hd he =>
    exact .inl (State.modCtx_getCtx_field _ _ d (acceptCtx k _) Ctx.responses fun _ => rfl)
  | refuse w k hf hl hr hk => exact .inl (takeWord_responses s s.inp.sel d w)
  | context _ ht hl hf hm => exact hm.responses d

/-- The byte of a READ is there when it completes (R169, R173, R174). -/
theorem Completes.rdByte_ne_none {s t : State} {c : Nat} {u : Txn} (h : Completes s t c u) (hs : Inv s)
    (hk : (s.getCtx c).cmd = some .read) : (s.getCtx c).rdByte ≠ none := by
  have hne : (s.getCtx c).phase ≠ .idle := by simp [h.phase]
  have hi := hs.ctx_inv c (hs.ctx_len ▸ lt_of_phase_ne_idle hne)
  have shape := hi.command hne
  simp only [CommandShape, hk] at shape
  obtain ⟨p, r, hc, -⟩ := shape
  exact hi.byte_there (by rw [h.phase]; rfl) _ hc rfl rfl

/-- The test of an INIT has been made when it completes (R174, R203). -/
theorem Completes.initOk_ne_none {s t : State} {c : Nat} {u : Txn} (h : Completes s t c u) (hs : Inv s)
    (hk : (s.getCtx c).cmd = some .init) : (t.getCtx c).initOk ≠ none := by
  have hne : (s.getCtx c).phase ≠ .idle := by simp [h.phase]
  have hi := hs.ctx_inv c (hs.ctx_len ▸ lt_of_phase_ne_idle hne)
  rw [h.after, completeCtx_initOk]
  split
  · simp
  · next hc =>
    refine hi.init_checked hne hk fun x hx y hy => ?_
    obtain rfl := Option.some.inj (h.cur.symm.trans hx)
    rw [h.pending, List.mem_singleton] at hy
    rw [hy]
    simpa using hc

/-- Completing a command writes the response register of its kind (R174). -/
theorem Completes.responses {s t : State} {c : Nat} {u : Txn} (h : Completes s t c u) :
    (t.getCtx c).phase = .idle ∧
    (t.getCtx c).rspData = (if (s.getCtx c).cmd = some .read then (s.getCtx c).rdByte else (s.getCtx c).rspData) ∧
    (t.getCtx c).rspOk = (if (s.getCtx c).cmd = some .init then (t.getCtx c).initOk else (s.getCtx c).rspOk) := by
  rw [h.after]
  exact ⟨rfl, completeCtx_rspData .., completeCtx_rspOk ..⟩

/-- Settles O44: a response register changes only where its context completes a command of its kind. -/
theorem responseRegistersChangeOnlyAtCompletion : Obligations.ResponseRegistersChangeOnlyAtCompletion := by
  refine ⟨fun s s' c hr h => ?_, fun s hl ht => ?_⟩
  · obtain ⟨t, hm, rfl⟩ := move_of_step h
    simp only [finish_getCtx]
    obtain e | ⟨u, hc⟩ := hm.responses hr c
    · obtain ⟨hd, ho⟩ := Prod.mk.inj e
      exact ⟨fun hne => absurd hd hne, fun hne => absurd ho hne, fun _ hn => hd ▸ hn, fun _ hn => ho ▸ hn⟩
    · obtain ⟨hp, hd, ho⟩ := hc.responses
      refine ⟨fun hne => ?_, fun hne => ?_, fun hs hn => ?_, fun hs hn => ?_⟩
      · by_cases hk : (s.getCtx c).cmd = some .read
        · exact ⟨hc.phase, hk, hp, hd.trans (if_pos hk)⟩
        · exact absurd (hd.trans (if_neg hk)) hne
      · by_cases hk : (s.getCtx c).cmd = some .init
        · exact ⟨hc.phase, hk, hp, ho.trans (if_pos hk)⟩
        · exact absurd (ho.trans (if_neg hk)) hne
      · rw [hd]
        split
        · next hk => exact hc.rdByte_ne_none hs hk
        · exact hn
      · rw [ho]
        split
        · next hk => exact hc.initOk_ne_none hs hk
        · exact hn
  · obtain ht | ht := ht
    · exact step_hostWrite_readOnly ht nofun fun _ => hl
    · exact step_hostWrite_readOnly ht nofun fun _ => hl

end Sys2Proof.Machine

/-! The trace as the bus sees it: who owns the bus after each event, and that a transaction is atomic (R68). -/

namespace Sys2Proof.Machine

/-! The owner of the bus, read off the trace alone. -/

/-- The owner of the bus after an event, from the owner o before it: the bus is taken when it is free and given up by
its owner, and only its owner has a bus event; none where the event breaks this (R30, R68, R175). -/
def ownerAfter (o : Option Nat) : Event → Option (Option Nat)
  | .lock c => if o = none then some (some c) else none
  | .unlock c => if o = some c then some none else none
  | .cs c _ _ | .spi c _ _ _ | .i2cW c _ _ _ | .i2cR c _ _ _ => if o = some c then some o else none
  | .accept _ _ | .respond _ _ _ | .fault _ _ => some o

/-- While context c owns the bus, every bus event is its own, and it stays the owner but by its `Unlock`. -/
theorem ownerAfter_of_owned {c : Nat} {e : Event} {o : Option Nat} (h : ownerAfter (some c) e = some o) :
    (∀ d, e.busContext = some d → d = c) ∧ (e ≠ .unlock c → o = some c) := by
  cases e <;> grind [ownerAfter, Event.busContext]

/-- From its `Lock` on, and before its `Unlock`, every bus event of an owned trace is of the owner. -/
theorem busContext_of_owned {c : Nat} {mid : List Event} {o : Option Nat}
    (h : mid.foldlM ownerAfter (some c) = some o) (hu : .unlock c ∉ mid) :
    ∀ e ∈ mid, ∀ d, e.busContext = some d → d = c := by
  induction mid with
  | nil => nofun
  | cons x mid ih =>
    obtain ⟨o', hx, hrest⟩ := Option.bind_eq_some_iff.1 (List.foldlM_cons.symm.trans h)
    rw [List.mem_cons, not_or] at hu
    obtain ⟨hbus, hstay⟩ := ownerAfter_of_owned hx
    rw [hstay (Ne.symm hu.1)] at hrest
    exact List.forall_mem_cons.2 ⟨hbus, ih hrest hu.2⟩

/-- A trace in which every event respects the owner of the bus is atomic. -/
theorem atomicTrace_of_owned {tr : List Event} {o : Option Nat} (h : tr.foldlM ownerAfter none = some o) :
    AtomicTrace tr := by
  rintro before c mid after rfl hu
  rw [List.foldlM_append] at h
  obtain ⟨o₁, -, h⟩ := Option.bind_eq_some_iff.1 h
  obtain ⟨o₂, hlock, h⟩ := Option.bind_eq_some_iff.1 (List.foldlM_cons.symm.trans h)
  obtain rfl : o₂ = some c := by
    simp only [ownerAfter] at hlock
    split at hlock
    · exact (Option.some.inj hlock).symm
    · cases hlock
  rw [List.foldlM_append] at h
  obtain ⟨o₃, hmid, -⟩ := Option.bind_eq_some_iff.1 h
  exact busContext_of_owned hmid hu

/-! The lock is the owner that the trace shows. -/

/-- Every event of the trace respects the owner of the bus, and the owner at its end is the lock holder. -/
def TraceOwned (s : State) : Prop := s.trace.foldlM ownerAfter none = some s.lock

/-- Further events that take the owner from s's lock to t's. -/
theorem TraceOwned.append {s t : State} (h : TraceOwned s) (es : List Event) (htr : t.trace = s.trace ++ es)
    (hl : es.foldlM ownerAfter s.lock = some t.lock) : TraceOwned t := by
  unfold TraceOwned at *
  rw [htr, List.foldlM_append, h]
  exact hl

/-- No event, and the lock stays. -/
theorem TraceOwned.silent {s t : State} (h : TraceOwned s) (htr : t.trace = s.trace) (hl : t.lock = s.lock) :
    TraceOwned t :=
  h.append [] (by simp [htr]) (by simp [hl])

/-- One event. -/
theorem TraceOwned.event {s t : State} (h : TraceOwned s) (e : Event) (htr : t.trace = s.trace ++ [e])
    (he : ownerAfter s.lock e = some t.lock) : TraceOwned t :=
  h.append [e] htr (by simp [he])

/-- The response that completes a command is no bus event. -/
theorem foldlM_ownerAfter_respondEvents (c : Nat) (C : Ctx) (o : Option Nat) :
    (respondEvents c C).foldlM ownerAfter o = some o := by
  unfold respondEvents
  split <;> rfl

/-- A transport call that fails is a bus event of its context, which keeps the bus. -/
theorem ownerAfter_of_failed {e : Event} (h : e.failed = true) :
    ownerAfter (some e.context) e = some (some e.context) := by
  cases e <;> simp_all [ownerAfter, Event.context, Event.failed]

/-- An enabled step of a context: only LOCK_WAIT finds it without the lock, and only LOCK_WAIT and RELEASE move it. -/
theorem ContextMove.traceOwned {c : Nat} {s t : State} (hs : Inv s) (hc : c < s.par.nCtx) (ho : TraceOwned s)
    (h : ContextMove c s t) : TraceOwned t := by
  have owns {p : Phase} (hp : (s.getCtx c).phase = p) (hh : p.holdsLock = true) : s.lock = some c :=
    hs.lock_of_phase hc hp hh
  cases h with
  | lock hp hl => exact ho.event _ rfl (by simp [ownerAfter, hl])
  | assertCs u hp hu => exact ho.event _ rfl (by simp [ownerAfter, owns hp rfl])
  | idleBefore hp hb => exact ho.silent rfl rfl
  | exchange u hp hu => exact ho.event _ rfl (by simp [ownerAfter, owns hp rfl])
  | idleAfter hp hb => exact ho.silent rfl rfl
  | deassertCs hp => exact ho.event _ rfl (by simp [ownerAfter, owns hp rfl])
  | i2cWrite u hp hu => exact ho.event _ rfl (by simp [ownerAfter, owns hp rfl])
  | i2cRead hp => exact ho.event _ rfl (by simp [ownerAfter, owns hp rfl])
  | next u n rest hp hu hn => exact ho.event _ rfl (by simp [ownerAfter, owns hp rfl])
  | complete u hp hu hn =>
    refine ho.append (completeEvents (s.par.handleCfg c) c u (s.getCtx c)) rfl ?_
    simp [completeEvents, ownerAfter, owns hp rfl, foldlM_ownerAfter_respondEvents]
  | fail e k hp hk he =>
    obtain ⟨hfail, rfl⟩ := he
    have hh : k.raisedIn.holdsLock = true := by
      revert hk
      cases k <;> decide
    have hl := owns hp hh
    refine (ho.event (t := s.emit e) e rfl ?_).event (.fault e.context k) rfl rfl
    rw [State.emit_lock, hl]
    exact ownerAfter_of_failed hfail

/-- Every move: reset starts the trace again, and no agent but a context in its step touches the lock. -/
theorem Move.traceOwned {s t : State} (hs : Inv s) (ho : TraceOwned s) (h : Move s t) : TraceOwned t := by
  cases h with
  | stay ht => exact ho
  | reset ht => rfl
  | read r ht => exact ho.silent rfl rfl
  | master ht => exact ho.silent rfl rfl
  | hold w hf hl hr => exact ho.silent rfl rfl
  | accept w i k e hf hl hr hm hd he => exact ho.event (.accept s.inp.sel w) rfl rfl
  | refuse w k hf hl hr hk =>
    exact ho.append [.accept s.inp.sel w, .fault s.inp.sel k] (List.append_assoc ..) rfl
  | context _ ht hl hf hm => exact hm.traceOwned hs hl ho

/-! Every state that a schedule reaches. -/

theorem Inv.present {s : State} (hs : Inv s) (i : Inputs) : Inv (s.present i) := hs.congr rfl rfl rfl rfl rfl

/-- What holds at reset and is kept by every move, whatever is presented to it, holds in every reachable state; of the
invariant of the block this is known. -/
theorem Reachable.induct {p : Params} (hp : p.WellFormed) {P : State → Prop}
    (reset : ∀ busy, P (State.resetOf p busy))
    (move : ∀ s t i, Inv s → P s → Move (s.present i) t → P (finish t)) {s : State} (h : Reachable p s) :
    Inv s ∧ P s := by
  induction h with
  | reset busy => exact ⟨inv_resetOf hp busy, reset busy⟩
  | step s s' i _ hstep ih =>
    obtain ⟨hs, hP⟩ := ih
    obtain ⟨t, hm, rfl⟩ := move_of_step hstep
    exact ⟨(hm.inv (hs.present i)).finish, move s t i hs hP hm⟩

/-- In every reachable state the lock is the owner that the trace shows. -/
theorem Reachable.traceOwned {p : Params} {s : State} (hp : p.WellFormed) (h : Reachable p s) : TraceOwned s :=
  (h.induct hp (P := TraceOwned) (fun _ => rfl)
    fun _ _ i hs ho hm => (hm.traceOwned (hs.present i) (ho.silent rfl rfl)).silent rfl rfl).2

/-- Settles O54: the trace of a reachable state respects the owner of the bus, so it is atomic. -/
theorem transactionsAreAtomic : Obligations.TransactionsAreAtomic :=
  fun _ _ hp h => atomicTrace_of_owned (h.traceOwned hp)

end Sys2Proof.Machine

/-! The loopback fixture: what a context's step does to its devices (R84, R213). -/

namespace Sys2Proof.Machine

/-! The frame that is due, by its bytes. -/

/-- Bit 0 of the control byte, which the fixture reads to tell a read from a write (R98). -/
theorem ctrl_getLsbD_zero (m : Mode) (o : BitVec 3) (rw : RW) : (ctrl m o rw).getLsbD 0 = (rw == .read) := by
  cases m <;> cases rw <;> revert o <;> decide

/-- Three bytes due on I2C are a write's payload, in its write phase (R104, R142). -/
theorem i2cWrite_of_due {s : State} {c : Nat} {k x v : Byte} (h : dueFrame s c = some (.i2c [k, x, v])) :
    (s.getCtx c).phase = .i2cWrite ∧ k.getLsbD 0 = false := by
  obtain ⟨-, t, -, ⟨-, e⟩ | ⟨hp, e⟩ | ⟨-, e⟩⟩ := dueFrame_cases h
  · cases e
  · refine ⟨hp, ?_⟩
    cases hr : t.rw with
    | read => simp [txnFrame, buildFrame, hr] at e
    | write =>
      simp only [txnFrame, buildFrame, hr, Code.i2c.injEq, List.cons.injEq] at e
      rw [e.1, ctrl_getLsbD_zero]
      rfl
  · simp [buildFrame] at e

/-! The effect of a step on the devices, one rule for each frame. -/

/-- The devices after a byte v has been stored at address a of device d. -/
def Devices.store (x : Devices) (d : Nat) (a v : Byte) : Devices :=
  { x with mem := x.mem.set d (memWrite (x.getMem d) a.toNat v) }

/-- The device d receives the write of v to address a in the step that context c is about to take: on SPI the device
whose line is asserted, on I2C the one addressed (R84). -/
def Stores (s : State) (c d : Nat) (a v : Byte) : Prop :=
  ∃ k, k.getLsbD 0 = false ∧
    ((dueFrame s c = some (.spi [k, a, v]) ∧ spiDevice s = some d) ∨
     (dueFrame s c = some (.i2c [k, a, v]) ∧ i2cDevice s (sla (s.par.handleCfg c).opcode) = some d))

/-- The register pointer of device d receives the address a from the header that context c is about to send (R105). -/
def Points (s : State) (c d : Nat) (a : Byte) : Prop :=
  (s.getCtx c).phase = .i2cWrite ∧ (∃ k, dueFrame s c = some (.i2c [k, a])) ∧
    i2cDevice s (sla (s.par.handleCfg c).opcode) = some d

theorem devicesAfter_of_stores {b : Bench} {c d : Nat} {a v : Byte} (h : Stores b.st c d a v) :
    devicesAfter b c = b.dev.store d a v := by
  obtain ⟨k, hk, ⟨hdue, hd⟩ | ⟨hdue, hd⟩⟩ := h
  · simp only [devicesAfter, hdue, hd, hk, Bool.false_eq_true, if_false, Devices.store]
  · obtain ⟨hp, -⟩ := i2cWrite_of_due hdue
    simp [devicesAfter, hdue, hd, hp, Devices.store]

theorem devicesAfter_of_points {b : Bench} {c d : Nat} {a : Byte} (h : Points b.st c d a) :
    devicesAfter b c = { b.dev with ptr := b.dev.ptr.set d a } := by
  obtain ⟨hp, ⟨k, hdue⟩, hd⟩ := h
  simp [devicesAfter, hdue, hd, hp]

/-- A step stores a byte, sets a register pointer, or leaves every device as it was. -/
theorem devicesAfter_cases (b : Bench) (c : Nat) :
    (∃ d a v, Stores b.st c d a v) ∨ (∃ d a, Points b.st c d a) ∨ devicesAfter b c = b.dev := by
  unfold devicesAfter
  split
  · next k a v hdue =>
    split
    · next d hd =>
      cases hk : k.getLsbD 0 with
      | false => exact .inl ⟨d, a, v, k, hk, .inl ⟨hdue, hd⟩⟩
      | true => exact .inr (.inr rfl)
    · exact .inr (.inr rfl)
  · next bytes hdue =>
    split
    · next d k a v hd hp =>
      exact .inl ⟨d, a, v, k, (i2cWrite_of_due hdue).2, .inr ⟨hdue, hd⟩⟩
    · next d k a hd hp => exact .inr (.inl ⟨d, a, hp, ⟨k, hdue⟩, hd⟩)
    · exact .inr (.inr rfl)
  · exact .inr (.inr rfl)

/-! Storing a byte. -/

theorem Devices.store_getMem_ne (x : Devices) {d e : Nat} (a v : Byte) (h : e ≠ d) :
    (x.store d a v).getMem e = x.getMem e := by
  simp [Devices.store, Devices.getMem, h.symm]

theorem Devices.store_getMem_same (x : Devices) {d : Nat} (a v : Byte) (h : d < x.mem.length) :
    (x.store d a v).getMem d = memWrite (x.getMem d) a.toNat v := by
  simp [Devices.store, Devices.getMem, h]

/-- The contents of a device are in canonical form. -/
theorem Devices.getMem_wf {x : Devices} (hx : ∀ m ∈ x.mem, m.wf) (d : Nat) : (x.getMem d).wf := by
  by_cases hd : d < x.mem.length
  · rw [Devices.getMem, List.getD_eq_getElem _ _ hd]
    exact hx _ (List.getElem_mem hd)
  · rw [Devices.getMem, List.getD_eq_default _ _ (not_lt.1 hd)]
    exact ⟨.nil, nofun⟩

/-- The byte stored is read back. -/
theorem Devices.memRead_store {x : Devices} (hx : ∀ m ∈ x.mem, m.wf) {d : Nat} (a v : Byte) (h : d < x.mem.length) :
    memRead ((x.store d a v).getMem d) a.toNat = v := by
  rw [Devices.store_getMem_same x a v h]
  exact memRead_memWrite_same (Devices.getMem_wf hx d) _ _

/-- Storing a byte changes no other address and no other device. -/
theorem Devices.eq_of_store_ne {x : Devices} {d e n : Nat} {a v : Byte} (hd : d < x.mem.length)
    (h : memRead ((x.store d a v).getMem e) n ≠ memRead (x.getMem e) n) : e = d ∧ n = a.toNat := by
  by_cases he : e = d
  · subst he
    refine ⟨rfl, ?_⟩
    by_contra hn
    rw [Devices.store_getMem_same x a v hd, memRead_memWrite_ne _ _ hn] at h
    exact h rfl
  · rw [Devices.store_getMem_ne x a v he] at h
    exact absurd rfl h

/-! The device that a frame goes to exists (entry 23). -/

theorem spiDevice_lt {s : State} {d : Nat} (h : spiDevice s = some d) : d < s.par.nDev :=
  (List.findIdx?_eq_some_iff_getElem.1 h).1

theorem i2cDevice_lt {s : State} {a : Byte} {d : Nat} (h : i2cDevice s a = some d) : d < s.par.nDev :=
  (List.findIdx?_eq_some_iff_getElem.1 h).1

theorem Stores.lt {s : State} {c d : Nat} {a v : Byte} (h : Stores s c d a v) : d < s.par.nDev := by
  obtain ⟨-, -, ⟨-, hd⟩ | ⟨-, hd⟩⟩ := h
  · exact spiDevice_lt hd
  · exact i2cDevice_lt hd

/-- The configuration of a context's handle is one of those of the block (R27, R29). -/
theorem handleCfg_mem {p : Params} (hp : p.WellFormed) {c : Nat} (hc : c < p.nCtx) : p.handleCfg c ∈ p.cfg := by
  have hd : p.handle c < p.cfg.length := handle_lt hp hc
  rw [Params.handleCfg, List.getD_eq_getElem _ _ hd]
  exact List.getElem_mem hd

/-- The test that a context's own handle passes finds a device. -/
theorem exists_device {p : Params} (hp : p.WellFormed) {c : Nat} (hc : c < p.nCtx) {q : HandleCfg → Bool}
    (hq : q (p.handleCfg c) = true) : ∃ d, p.cfg.findIdx? q = some d := by
  rw [← Option.isSome_iff_exists, List.findIdx?_isSome, List.any_eq_true]
  exact ⟨_, handleCfg_mem hp hc, hq⟩

/-- In its exchange a context's own line is asserted (R177). -/
theorem Inv.exists_spiDevice {s : State} (hs : Inv s) {c : Nat} (hc : c < s.par.nCtx)
    (hp : (s.getCtx c).phase = .spiXfer) : ∃ d, spiDevice s = some d := by
  have spi : (s.par.handleCfg c).mode = .spi := (hs.ctx_inv c hc).spi_phase (by rw [hp]; rfl)
  have line : s.getCs (s.par.handleCfg c).csLine = true :=
    (hs.line_iff (hs.lock_of_phase hc hp rfl) (csLine_lt hs.params hc)).2 ⟨rfl, by rw [hp]; rfl⟩
  exact exists_device hs.params hc (by simp [spi, line])

theorem Inv.exists_i2cDevice {s : State} (hs : Inv s) {c : Nat} (hc : c < s.par.nCtx)
    (hp : (s.getCtx c).phase = .i2cWrite) : ∃ d, i2cDevice s (sla (s.par.handleCfg c).opcode) = some d := by
  have i2c : (s.par.handleCfg c).mode = .i2c := (hs.ctx_inv c hc).i2c_phase (by rw [hp]; rfl)
  exact exists_device hs.params hc (by simp [i2c])

/-- Settles O60, by the three things a step can do to the devices. -/
theorem loopbackStoresOnlyWhatIsWritten : Obligations.LoopbackStoresOnlyWhatIsWritten := by
  intro b c hs hc hwf hmem hptr
  refine ⟨fun e n hne => ?_, fun k a v d hk hd => ?_, fun k a d hp hdue hd => ?_, fun hne => ?_,
    fun hp _ => hs.exists_spiDevice hc hp, hs.exists_i2cDevice hc⟩
  · obtain ⟨d, a, v, h⟩ | ⟨d, a, h⟩ | h := devicesAfter_cases b c
    · have hlt : d < b.dev.mem.length := hmem ▸ h.lt
      rw [devicesAfter_of_stores h] at hne ⊢
      obtain ⟨rfl, rfl⟩ := Devices.eq_of_store_ne hlt hne
      obtain ⟨k, hk, hdue⟩ := h
      exact ⟨k, a, v, hdue.imp And.left And.left, hk, rfl, Devices.memRead_store hwf a v hlt⟩
    · rw [devicesAfter_of_points h] at hne
      exact absurd rfl hne
    · rw [h] at hne
      exact absurd rfl hne
  · have h : Stores b.st c d a v := ⟨k, hk, hd⟩
    rw [devicesAfter_of_stores h]
    exact ⟨Devices.memRead_store hwf a v (hmem ▸ h.lt), fun e he => Devices.store_getMem_ne _ a v he, rfl⟩
  · have hlt : d < b.dev.ptr.length := hptr ▸ i2cDevice_lt hd
    rw [devicesAfter_of_points ⟨hp, ⟨k, hdue⟩, hd⟩]
    exact ⟨by simp [Devices.getPtr, hlt], fun e he => by simp [Devices.getPtr, he.symm], rfl⟩
  · obtain ⟨d, a, v, h⟩ | ⟨d, a, hp, ⟨k, hdue⟩, -⟩ | h := devicesAfter_cases b c
    · rw [devicesAfter_of_stores h] at hne
      exact absurd rfl hne
    · exact ⟨hp, k, a, hdue⟩
    · rw [h] at hne
      exact absurd rfl hne

end Sys2Proof.Machine

/-! One context run alone: its step in each phase, a transaction up to its release, and a READ or WRITE to its end
(R78, R164 to R174, R178, R204, R205). -/

namespace Sys2Proof.Machine

/-! The word of a command decodes to it (R97). -/

/-- The fields of a host word (R91). -/
theorem hostWord_fields (op : BitVec 2) (p : BitVec 1) (r : BitVec 4) (d : Byte) :
    (hostWord op p r d).extractLsb' 13 1 = 0#1 ∧ (hostWord op p r d).extractLsb' 14 2 = op ∧
    (hostWord op p r d).extractLsb' 12 1 = p ∧ (hostWord op p r d).extractLsb' 8 4 = r ∧
    (hostWord op p r d).extractLsb' 0 8 = d := by
  refine ⟨?_, ?_, ?_, ?_, ?_⟩
  all_goals
    refine BitVec.eq_of_getLsbD_eq fun i hi => ?_
    simp only [hostWord, BitVec.getLsbD_extractLsb', BitVec.getLsbD_append]
    interval_cases i <;> simp

theorem Port.ofBit_bit (p : Port) : Port.ofBit p.bit = p := by
  cases p <;> rfl

theorem LReg.ofIndex_index (r : LReg) : LReg.ofIndex r.index = some r := by
  cases r <;> rfl

theorem decode_word_read (p : Port) (r : LReg) : decode (.word (Instr.read p r).word) = .instr (.read p r) := by
  obtain ⟨hr, ho, hp, hi, hd⟩ := hostWord_fields 0b01#2 p.bit r.index 0#8
  simp [decode, decodeWord, Instr.word, encode, hr, ho, hp, hi, hd, Port.ofBit_bit, LReg.ofIndex_index]

theorem decode_word_write (p : Port) (r : LReg) (v : Byte) :
    decode (.word (Instr.write p r v).word) = .instr (.write p r v) := by
  obtain ⟨hr, ho, hp, hi, hd⟩ := hostWord_fields 0b10#2 p.bit r.index v
  simp [decode, decodeWord, Instr.word, encode, hr, ho, hp, hi, hd, Port.ofBit_bit, LReg.ofIndex_index]

/-! The step of a context's turn, phase by phase (R164). -/

section
variable {s : State} {c : Nat} {t : Txn}

/-- In a phase without a transport call. -/
theorem step_of_ctxStep (ht : s.inp.turn = .context) (hsel : s.inp.sel = c) (hc : c < s.par.nCtx)
    (hd : dueFrame s c = none) : step s = .next (finish (ctxStep c s)) := by
  subst hsel
  refine step_eq_next_iff.2 ⟨_, ?_, rfl⟩
  simp [takeTurn, fetch_context ht, hd, otherMove, ht, onContext_of_lt hc]

/-- In a transport phase: the instruction that the due frame decodes to, whose meaning is f when it is due. -/
theorem step_of_due {i : Instr} {f : Nat → State → State} (ht : s.inp.turn = .context) (hsel : s.inp.sel = c)
    (hc : c < s.par.nCtx) (hdue : dueFrame s c = some (encode i)) (hd : decode (encode i) = .instr i)
    (hx : exec i s = whenDue i f s) : step s = .next (finish (f c s)) := by
  subst hsel
  rw [step_of_decode ((fetch_context ht).trans hdue) hd, hx, whenDue, onContext_of_lt hc, if_pos hdue]
  rfl

theorem step_of_spiXfer (ht : s.inp.turn = .context) (hsel : s.inp.sel = c) (hc : c < s.par.nCtx)
    (hf : s.fault = none) (hm : (s.par.handleCfg c).mode = .spi) (hp : (s.getCtx c).phase = .spiXfer)
    (hu : (s.getCtx c).cur = some t) :
    step s = .next (finish (spiXferStep (spiTx (txnFrame (s.par.handleCfg c) t) t.rw) t.rw c s)) := by
  obtain ⟨i, -, he, hd⟩ := spiFrame_decodes t hm
  exact step_of_due ht hsel hc (he ▸ dueFrame_spiXfer hf hp hu) hd (exec_of_spi_due he)

theorem step_of_i2cWrite (ht : s.inp.turn = .context) (hsel : s.inp.sel = c) (hc : c < s.par.nCtx)
    (hf : s.fault = none) (hm : (s.par.handleCfg c).mode = .i2c) (hp : (s.getCtx c).phase = .i2cWrite)
    (hu : (s.getCtx c).cur = some t) :
    step s = .next (finish (i2cWriteStep (txnFrame (s.par.handleCfg c) t) t.rw c s)) := by
  obtain ⟨i, -, he, hd⟩ := i2cFrame_decodes t hm
  rw [step_of_due ht hsel hc (he ▸ dueFrame_i2cWrite hf hp hu) hd (exec_of_i2c_due he), if_neg (by simp [hp])]
  rfl

theorem step_of_i2cRead (ht : s.inp.turn = .context) (hsel : s.inp.sel = c) (hc : c < s.par.nCtx)
    (hf : s.fault = none) (hm : (s.par.handleCfg c).mode = .i2c) (hp : (s.getCtx c).phase = .i2cRead)
    (hu : (s.getCtx c).cur = some t) (hr : t.rw = .read) : step s = .next (finish (i2cReadStep c s)) := by
  obtain ⟨i, -, he, hd⟩ := i2cFrame_decodes t hm
  rw [step_of_due ht hsel hc (he ▸ dueFrame_i2cRead hf hp hu hr) hd (exec_of_i2c_due he), if_pos ⟨hr, hp⟩]

end

/-! What the steps of context c alone see and change. -/

/-- Nothing keeps context c, of handle configuration g, from its next step but the lock, which is `lock`; it is in the
context state C, and tr is on the trace. -/
structure Alone (c : Nat) (g : HandleCfg) (s : State) (lock : Option Nat) (C : Ctx) (tr : List Event) : Prop where
  legal    : c < s.par.nCtx
  ctx_len  : s.ctx.length = s.par.nCtx
  cfg_eq   : s.par.handleCfg c = g
  no_fault : s.fault = none
  idle     : s.spiBusy = false
  lock_eq  : s.lock = lock
  ctx_eq   : s.getCtx c = C
  trace_eq : s.trace = tr

section
variable {c : Nat} {g : HandleCfg} {s : State} {lock : Option Nat} {C : Ctx} {tr : List Event}

theorem Alone.present (h : Alone c g s lock C tr) (i : Inputs) : Alone c g (s.present i) lock C tr :=
  ⟨h.legal, h.ctx_len, h.cfg_eq, h.no_fault, h.idle, h.lock_eq, h.ctx_eq, h.trace_eq⟩

theorem Alone.finish (h : Alone c g s lock C tr) : Alone c g (finish s) lock C tr :=
  ⟨h.legal, h.ctx_len, h.cfg_eq, h.no_fault, h.idle, h.lock_eq, h.ctx_eq, h.trace_eq⟩

theorem Alone.emit (h : Alone c g s lock C tr) (e : Event) : Alone c g (s.emit e) lock C (tr ++ [e]) :=
  ⟨h.legal, h.ctx_len, h.cfg_eq, h.no_fault, h.idle, h.lock_eq, h.ctx_eq, by rw [State.emit_trace, h.trace_eq]⟩

theorem Alone.setLock (h : Alone c g s lock C tr) (o : Option Nat) : Alone c g (s.setLock o) o C tr :=
  ⟨h.legal, h.ctx_len, h.cfg_eq, h.no_fault, h.idle, rfl, h.ctx_eq, h.trace_eq⟩

theorem Alone.setCs (h : Alone c g s lock C tr) (l : Nat) (v : Bool) : Alone c g (s.setCs l v) lock C tr :=
  ⟨h.legal, h.ctx_len, h.cfg_eq, h.no_fault, h.idle, h.lock_eq, h.ctx_eq, h.trace_eq⟩

theorem Alone.lt_length (h : Alone c g s lock C tr) : c < s.ctx.length := h.ctx_len.symm ▸ h.legal

theorem Alone.modCtx (h : Alone c g s lock C tr) (f : Ctx → Ctx) : Alone c g (s.modCtx c f) lock (f C) tr :=
  ⟨h.legal, (List.length_set ..).trans h.ctx_len, h.cfg_eq, h.no_fault, h.idle, h.lock_eq,
    by rw [State.modCtx_getCtx_same s c f h.lt_length, h.ctx_eq], h.trace_eq⟩

/-- The step of context c from s with the answers of `a` leads to a state where it is alone with `lock`, C and tr. -/
def StepsTo (c : Nat) (g : HandleCfg) (s : State) (a : Inputs) (lock : Option Nat) (C : Ctx) (tr : List Event) : Prop :=
  ∃ u, step (s.present (contextTurn c a)) = .next u ∧ Alone c g u lock C tr

/-- The steps of context c from s with the answers of `as` lead to a state where it is alone with `lock`, C and tr. -/
def RunsTo (c : Nat) (g : HandleCfg) (s : State) (as : List Inputs) (lock : Option Nat) (C : Ctx) (tr : List Event) :
    Prop :=
  ∃ u, runContext c as s = .next u ∧ Alone c g u lock C tr

/-! One rule for each phase (R166 to R174). -/

/-- A phase without a transport call, whose step is f. -/
theorem Alone.stepsTo_of_ctxStep (h : Alone c g s lock C tr) {p : Phase} (hp : C.phase = p)
    (hn : p ≠ .spiXfer ∧ p ≠ .i2cWrite ∧ p ≠ .i2cRead) (a : Inputs) (f : State → State)
    (hf : ∀ u : State, u.fault = none → (u.getCtx c).phase = p → ctxStep c u = f u) {lock' : Option Nat} {C' : Ctx}
    {tr' : List Event} (hx : ∀ u, Alone c g u lock C tr → Alone c g (f u) lock' C' tr') :
    StepsTo c g s a lock' C' tr' := by
  have h' := h.present (contextTurn c a)
  have hp' : ((s.present (contextTurn c a)).getCtx c).phase = p := (congrArg Ctx.phase h'.ctx_eq).trans hp
  refine ⟨_, step_of_ctxStep (c := c) rfl rfl h'.legal (dueFrame_eq_none (hp' ▸ hn)), .finish ?_⟩
  rw [hf _ h'.no_fault hp']
  exact hx _ h'

/-- LOCK_WAIT with the lock free (R166). -/
theorem Alone.lockWait (h : Alone c g s none C tr) (hp : C.phase = .lockWait) {p : Phase}
    (hm : (if g.mode = .spi then .csAssert else .i2cWrite) = p) (a : Inputs) :
    StepsTo c g s a (some c) { C with phase := p } (tr ++ [.lock c]) := by
  refine h.stepsTo_of_ctxStep hp (by decide) a (stepLockWait c) (fun u hf hp => by simp [ctxStep, hf, hp])
    fun u h => ?_
  simp only [stepLockWait, h.lock_eq, h.cfg_eq, hm, if_true]
  exact ((h.setLock _).emit _).modCtx _

/-- CS_ASSERT (R167). -/
theorem Alone.csAssert (h : Alone c g s lock C tr) (hp : C.phase = .csAssert) {t : Txn} (ht : C.cur = some t)
    {p : Phase} (hk : (if t.kind = .pulse then .csDeassert else .waitIdlePre) = p) (a : Inputs) :
    StepsTo c g s a lock { C with phase := p } (tr ++ [.cs c g.csLine true]) := by
  refine h.stepsTo_of_ctxStep hp (by decide) a (stepCsAssert c) (fun u hf hp => by simp [ctxStep, hf, hp])
    fun u h => ?_
  have hx := ((h.setCs g.csLine true).emit (.cs c g.csLine true)).modCtx fun C => { C with phase := p }
  simpa only [stepCsAssert, h.ctx_eq, ht, h.cfg_eq, hk] using hx

/-- WAIT_IDLE_PRE with the SPI master idle (R168). -/
theorem Alone.waitIdlePre (h : Alone c g s lock C tr) (hp : C.phase = .waitIdlePre) (a : Inputs) :
    StepsTo c g s a lock { C with phase := .spiXfer } tr := by
  refine h.stepsTo_of_ctxStep hp (by decide) a (stepWaitIdlePre c) (fun u hf hp => by simp [ctxStep, hf, hp])
    fun u h => ?_
  rw [stepWaitIdlePre, if_neg (by simp [h.idle])]
  exact h.modCtx _

/-- WAIT_IDLE_POST with the SPI master idle (R170). -/
theorem Alone.waitIdlePost (h : Alone c g s lock C tr) (hp : C.phase = .waitIdlePost) (a : Inputs) :
    StepsTo c g s a lock { C with phase := .csDeassert } tr := by
  refine h.stepsTo_of_ctxStep hp (by decide) a (stepWaitIdlePost c) (fun u hf hp => by simp [ctxStep, hf, hp])
    fun u h => ?_
  rw [stepWaitIdlePost, if_neg (by simp [h.idle])]
  exact h.modCtx _

/-- CS_DEASSERT (R171). -/
theorem Alone.csDeassert (h : Alone c g s lock C tr) (hp : C.phase = .csDeassert) (a : Inputs) :
    StepsTo c g s a lock { C with phase := .release } (tr ++ [.cs c g.csLine false]) := by
  refine h.stepsTo_of_ctxStep hp (by decide) a (stepCsDeassert c) (fun u hf hp => by simp [ctxStep, hf, hp])
    fun u h => ?_
  simp only [stepCsDeassert, h.cfg_eq]
  exact ((h.setCs _ _).emit _).modCtx _

/-- RELEASE of a command's last transaction (R174). -/
theorem Alone.releaseLast (h : Alone c g s lock C tr) (hp : C.phase = .release) {t : Txn} (ht : C.cur = some t)
    (hn : C.pending = []) (a : Inputs) :
    StepsTo c g s a none (completeCtx g t C) (tr ++ completeEvents g c t C) := by
  refine h.stepsTo_of_ctxStep hp (by decide) a (stepRelease c) (fun u hf hp => by simp [ctxStep, hf, hp])
    fun u h => ?_
  rw [stepRelease_of_last h.lt_length (h.ctx_eq ▸ ht) (h.ctx_eq ▸ hn), List.append_assoc, h.cfg_eq, h.ctx_eq,
    h.trace_eq]
  exact ⟨h.legal, (List.length_set ..).trans h.ctx_len, h.cfg_eq, h.no_fault, h.idle, rfl,
    getCtx_set_same rfl h.lt_length, rfl⟩

/-- SPI_XFER with the answer OK (R169). -/
theorem Alone.spiXfer (h : Alone c g s lock C tr) (hp : C.phase = .spiXfer) (hm : g.mode = .spi) {t : Txn}
    (ht : C.cur = some t) {a : Inputs} (ha : a.allOk) :
    StepsTo c g s a lock
      { C with rdByte := if t.rw = .read then some a.rx2 else C.rdByte, phase := .waitIdlePost }
      (tr ++ [.spi c (spiTx (txnFrame g t) t.rw) [a.rx0, a.rx1, a.rx2] .ok]) := by
  have h' := h.present (contextTurn c a)
  have hstep := step_of_spiXfer (c := c) rfl rfl h'.legal h'.no_fault (h'.cfg_eq ▸ hm) (h'.ctx_eq ▸ hp)
    (h'.ctx_eq ▸ ht)
  refine ⟨_, hstep, .finish ?_⟩
  obtain ⟨-, e⟩ | ⟨k, hs, -⟩ := spiXferStep_cases (spiTx (txnFrame g t) t.rw) t.rw c (s.present (contextTurn c a))
  · rw [h'.cfg_eq, e]
    exact (h'.emit _).modCtx _
  · exact absurd ha.1 hs

/-- I2C_WRITE with the answer OK (R172). -/
theorem Alone.i2cWrite (h : Alone c g s lock C tr) (hp : C.phase = .i2cWrite) (hm : g.mode = .i2c) {t : Txn}
    (ht : C.cur = some t) {p : Phase} (hr : (if t.rw = .read then .i2cRead else .release) = p) {a : Inputs}
    (ha : a.allOk) :
    StepsTo c g s a lock { C with phase := p } (tr ++ [.i2cW c (sla g.opcode) (txnFrame g t) .ok]) := by
  have h' := h.present (contextTurn c a)
  have hstep := step_of_i2cWrite (c := c) rfl rfl h'.legal h'.no_fault (h'.cfg_eq ▸ hm) (h'.ctx_eq ▸ hp)
    (h'.ctx_eq ▸ ht)
  refine ⟨_, hstep, .finish ?_⟩
  obtain ⟨-, e⟩ | ⟨k, hs, -⟩ := i2cWriteStep_cases (txnFrame g t) t.rw c (s.present (contextTurn c a))
  · rw [h'.cfg_eq, e, h'.cfg_eq, hr]
    exact (h'.emit _).modCtx _
  · exact absurd ha.2.1 hs

/-- I2C_READ with the answer OK (R173). -/
theorem Alone.i2cRead (h : Alone c g s lock C tr) (hp : C.phase = .i2cRead) (hm : g.mode = .i2c) {t : Txn}
    (ht : C.cur = some t) (hr : t.rw = .read) {a : Inputs} (ha : a.allOk) :
    StepsTo c g s a lock { C with rdByte := some a.i2cRxByte, phase := .release }
      (tr ++ [.i2cR c (sla g.opcode) a.i2cRxByte .ok]) := by
  have h' := h.present (contextTurn c a)
  have hstep := step_of_i2cRead (c := c) rfl rfl h'.legal h'.no_fault (h'.cfg_eq ▸ hm) (h'.ctx_eq ▸ hp)
    (h'.ctx_eq ▸ ht) hr
  refine ⟨_, hstep, .finish ?_⟩
  obtain ⟨-, e⟩ | ⟨k, hs, -⟩ := i2cReadStep_cases c (s.present (contextTurn c a))
  · rw [e, h'.cfg_eq]
    exact (h'.emit _).modCtx _
  · exact absurd ha.2.2 hs

end

/-! Runs. -/

section
variable {c : Nat} {g : HandleCfg} {s : State} {lock lock' : Option Nat} {C C' : Ctx} {tr tr' : List Event}

theorem Alone.done (h : Alone c g s lock C tr) (hC : C = C') (htr : tr = tr') : RunsTo c g s [] lock C' tr' :=
  ⟨s, rfl, hC ▸ htr ▸ h⟩

/-- A step, and a run from the state it leads to. -/
theorem StepsTo.andThen {a : Inputs} {as : List Inputs} (h : StepsTo c g s a lock C tr)
    (hrun : ∀ u, Alone c g u lock C tr → RunsTo c g u as lock' C' tr') : RunsTo c g s (a :: as) lock' C' tr' := by
  obtain ⟨u, hstep, hu⟩ := h
  obtain ⟨v, hv, hend⟩ := hrun u hu
  exact ⟨v, by simp only [runContext, hstep, hv], hend⟩

theorem runContext_append {as bs : List Inputs} {s u : State} (h : runContext c as s = .next u) :
    runContext c (as ++ bs) s = runContext c bs u := by
  induction as generalizing s with
  | nil => cases h; rfl
  | cons a as ih =>
    simp only [List.cons_append, runContext] at h ⊢
    split at h
    · exact ih h
    · cases h
    · cases h

/-- A run, and a step from the state it leads to. -/
theorem RunsTo.thenStep {as : List Inputs} {a : Inputs} (h : RunsTo c g s as lock C tr)
    (hstep : ∀ u, Alone c g u lock C tr → StepsTo c g u a lock' C' tr') : RunsTo c g s (as ++ [a]) lock' C' tr' := by
  obtain ⟨u, hu, ha⟩ := h
  obtain ⟨v, hv, hend⟩ := (hstep u ha).andThen fun _ h => h.done rfl rfl
  exact ⟨v, (runContext_append hu).trans hv, hend⟩

/-- The context C at the RELEASE of its register transaction t, of which a read has received the byte b. -/
def releaseCtx (t : Txn) (b : Byte) (C : Ctx) : Ctx :=
  { C with phase := .release, rdByte := if t.rw = .read then some b else C.rdByte }

/-- A register transaction on SPI, up to its RELEASE: six steps, the byte in the fourth (R167 to R171, R178). -/
theorem Alone.spiTransaction (h : Alone c g s none C tr) (hp : C.phase = .lockWait) {t : Txn} (ht : C.cur = some t)
    (hk : t.kind = .reg) (hm : g.mode = .spi) (a₀ a₁ a₂ : Inputs) {a₃ : Inputs} (ok : a₃.allOk) (a₄ a₅ : Inputs) :
    ∃ rx b, RunsTo c g s [a₀, a₁, a₂, a₃, a₄, a₅] (some c) (releaseCtx t a₃.rx2 C)
      (tr ++ (transactionEvents g c t rx b).dropLast) := by
  refine ⟨[a₃.rx0, a₃.rx1, a₃.rx2], 0#8, ?_⟩
  refine (h.lockWait hp (if_pos hm) a₀).andThen fun _ h => ?_
  refine (h.csAssert rfl ht (if_neg (by simp [hk])) a₁).andThen fun _ h => ?_
  refine (h.waitIdlePre rfl a₂).andThen fun _ h => ?_
  refine (h.spiXfer rfl hm ht ok).andThen fun _ h => ?_
  refine (h.waitIdlePost rfl a₄).andThen fun _ h => ?_
  refine (h.csDeassert rfl a₅).andThen fun _ h => ?_
  refine h.done rfl ?_
  cases hr : t.rw <;>
    simp [transactionEvents, hm, hk, hr, spiTx, txnFrame, buildFrame, txnAddr, Config.dummyByte]

/-- A write on I2C, up to its RELEASE: two steps (R172, R178). -/
theorem Alone.i2cWriteTransaction (h : Alone c g s none C tr) (hp : C.phase = .lockWait) {t : Txn}
    (ht : C.cur = some t) (hr : t.rw = .write) (hm : g.mode = .i2c) (a₀ : Inputs) {a₁ : Inputs} (ok : a₁.allOk)
    (b : Byte) :
    ∃ rx b', RunsTo c g s [a₀, a₁] (some c) (releaseCtx t b C)
      (tr ++ (transactionEvents g c t rx b').dropLast) := by
  refine ⟨[], 0#8, ?_⟩
  refine (h.lockWait hp (if_neg (by simp [hm])) a₀).andThen fun _ h => ?_
  refine (h.i2cWrite rfl hm ht (if_neg (by simp [hr])) ok).andThen fun _ h => ?_
  refine h.done (by simp [releaseCtx, hr]) ?_
  simp [transactionEvents, hm, hr, txnFrame, buildFrame, txnAddr]

/-- A read on I2C, up to its RELEASE: three steps, the byte in the third (R172, R173, R178). -/
theorem Alone.i2cReadTransaction (h : Alone c g s none C tr) (hp : C.phase = .lockWait) {t : Txn}
    (ht : C.cur = some t) (hr : t.rw = .read) (hm : g.mode = .i2c) (a₀ : Inputs) {a₁ a₂ : Inputs} (ok₁ : a₁.allOk)
    (ok₂ : a₂.allOk) :
    ∃ rx b, RunsTo c g s [a₀, a₁, a₂] (some c) (releaseCtx t a₂.i2cRxByte C)
      (tr ++ (transactionEvents g c t rx b).dropLast) := by
  refine ⟨[], a₂.i2cRxByte, ?_⟩
  refine (h.lockWait hp (if_neg (by simp [hm])) a₀).andThen fun _ h => ?_
  refine (h.i2cWrite rfl hm ht (if_pos hr) ok₁).andThen fun _ h => ?_
  refine (h.i2cRead rfl hm ht hr ok₂).andThen fun _ h => ?_
  refine h.done (by simp [releaseCtx, hr]) ?_
  simp [transactionEvents, hm, hr, txnFrame, buildFrame, txnAddr]

/-- A register transaction up to its RELEASE, on either bus (R178). -/
theorem Alone.transaction (h : Alone c g s none C tr) (hp : C.phase = .lockWait) {t : Txn} (ht : C.cur = some t)
    (hk : t.kind = .reg) (hm : g.mode ≠ .undefined) {as : List Inputs} (hlen : as.length = transactionSteps g.mode t)
    (hok : ∀ a ∈ as, a.allOk) :
    ∃ rx b, RunsTo c g s as.dropLast (some c) (releaseCtx t (readAnswer g.mode as) C)
      (tr ++ (transactionEvents g c t rx b).dropLast) := by
  cases hg : g.mode with
  | spi =>
    simp only [transactionSteps, hg, hk] at hlen
    rcases as with _ | ⟨a₀, _ | ⟨a₁, _ | ⟨a₂, _ | ⟨a₃, _ | ⟨a₄, _ | ⟨a₅, _ | ⟨a₆, _ | _⟩⟩⟩⟩⟩⟩⟩ <;> cases hlen
    exact h.spiTransaction hp ht hk hg a₀ a₁ a₂ (hok a₃ (by simp)) a₄ a₅
  | i2c =>
    cases hr : t.rw with
    | write =>
      simp only [transactionSteps, hg, hr] at hlen
      rcases as with _ | ⟨a₀, _ | ⟨a₁, _ | ⟨a₂, _ | _⟩⟩⟩ <;> cases hlen
      exact h.i2cWriteTransaction hp ht hr hg a₀ (hok a₁ (by simp)) _
    | read =>
      simp only [transactionSteps, hg, hr] at hlen
      rcases as with _ | ⟨a₀, _ | ⟨a₁, _ | ⟨a₂, _ | ⟨a₃, _ | _⟩⟩⟩⟩ <;> cases hlen
      exact h.i2cReadTransaction hp ht hr hg a₀ (hok a₁ (by simp)) (hok a₂ (by simp))
  | undefined => exact absurd hg hm

/-- The last transaction of a command, to the command's end (R174, R178). -/
theorem Alone.lastTransaction (h : Alone c g s none C tr) (hp : C.phase = .lockWait) {t : Txn} (ht : C.cur = some t)
    (hk : t.kind = .reg) (hn : C.pending = []) (hm : g.mode ≠ .undefined) {as : List Inputs}
    (hlen : as.length = transactionSteps g.mode t) (hok : ∀ a ∈ as, a.allOk) :
    ∃ es, RunsTo c g s as none (completeCtx g t (releaseCtx t (readAnswer g.mode as) C))
      (tr ++ es ++ completeEvents g c t (releaseCtx t (readAnswer g.mode as) C)) := by
  obtain ⟨rx, b, hrun⟩ := h.transaction hp ht hk hm hlen hok
  have hne : as ≠ [] := by
    rintro rfl
    cases hg : g.mode <;> cases hr : t.rw <;> simp [transactionSteps, hg, hk, hr] at hlen
  refine ⟨(transactionEvents g c t rx b).dropLast, ?_⟩
  have hend := hrun.thenStep (a := as.getLast hne) fun u hu => hu.releaseLast rfl ht hn _
  rwa [List.dropLast_append_getLast] at hend

end

/-! A command from its ACCEPT. -/

/-- An idle context of a free bus, with nothing held, accepts the word of a command (R200). -/
theorem accept_alone {s : State} {c : Nat} {w : Word16} {i : Instr} {k : CmdKind} {e : HandleCfg → List Txn}
    (hs : Inv s) (hc : c < s.par.nCtx) (hf : s.fault = none) (hl : s.lock = none) (hb : s.spiBusy = false)
    (hp : (s.getCtx c).phase = .idle) (hh : (s.getCtx c).held = none) (hm : (s.par.handleCfg c).mode ≠ .undefined)
    (hd : decode (.word w) = .instr i) (he : Expands i.core k e) :
    ∃ u, step (s.present (cmdTurn c w)) = .next u ∧
      Alone c (s.par.handleCfg c) u none (acceptCtx k (e (s.par.handleCfg c)) (s.getCtx c))
        (s.trace ++ [.accept c w]) := by
  have hfetch : fetch (s.present (cmdTurn c w)) = some (.word w) := fetch_eq_word_iff.2 (.inl ⟨rfl, rfl, hh⟩)
  obtain ⟨a, ha, hstep⟩ := step_of_word hfetch hc
  have ready : (s.present (cmdTurn c w)).readyToAccept := ⟨hp, hf⟩
  have accepted := (writeCmd_of_ready (w := w) ready).trans (ha.eq_acceptedState hd he hm)
  refine ⟨_, hstep, ?_⟩
  rw [accepted, acceptedState_eq]
  have start : Alone c (s.par.handleCfg c) s none (s.getCtx c) s.trace := ⟨hc, hs.ctx_len, rfl, hf, hb, hl, rfl, rfl⟩
  exact (((start.present _).emit _).modCtx _).finish

/-- The last event of a run that completes its command is the response. -/
theorem getLast?_append_completeEvents (tr : List Event) (g : HandleCfg) (c : Nat) (t : Txn) (C : Ctx) {e : Event}
    (h : respondEvents c (checkedCtx g t C) = [e]) : (tr ++ completeEvents g c t C).getLast? = some e := by
  simp [completeEvents, h]

/-- Settles O57: each command is one register transaction, whose RELEASE completes it. -/
theorem readAndWriteComplete : Obligations.ReadAndWriteComplete := by
  intro s c as p r v m hs hc hf hl hb hp hh hm hok
  refine ⟨fun hlen => ?_, fun hlen => ?_⟩
  · obtain ⟨s₁, hacc, h⟩ := accept_alone hs hc hf hl hb hp hh hm (decode_word_read p r) (.read p r)
    obtain ⟨es, s', hrun, h'⟩ := h.lastTransaction rfl rfl rfl rfl hm hlen hok
    refine ⟨s₁, s', hacc, hrun, ?_⟩
    rw [h'.ctx_eq, h'.trace_eq, getLast?_append_completeEvents _ _ _ _ _ rfl]
    exact ⟨rfl, rfl, rfl, h'.lock_eq, h'.no_fault, rfl⟩
  · obtain ⟨s₁, hacc, h⟩ := accept_alone hs hc hf hl hb hp hh hm (decode_word_write p r v) (.write p r v)
    obtain ⟨es, s', hrun, h'⟩ := h.lastTransaction rfl rfl rfl rfl hm hlen hok
    refine ⟨s₁, s', hacc, hrun, ?_⟩
    rw [h'.ctx_eq, h'.trace_eq, getLast?_append_completeEvents _ _ _ _ _ rfl]
    exact ⟨rfl, rfl, rfl, h'.lock_eq, h'.no_fault, rfl⟩

end Sys2Proof.Machine

/-! Decoder and encoder are inverse to each other (R97, R99, R102 to R105, R109). -/

namespace Sys2Proof.Machine

/-! The encoder. -/

/-- A host word is the disjunction of its shifted fields (R91). -/
theorem hostWord_eq_or (op : BitVec 2) (p : BitVec 1) (r : BitVec 4) (d : Byte) :
    hostWord op p r d =
      (op.setWidth 16 <<< 14) ||| (p.setWidth 16 <<< 12) ||| (r.setWidth 16 <<< 8) ||| d.setWidth 16 := by
  refine BitVec.eq_of_getLsbD_eq fun i hi => ?_
  simp only [hostWord, BitVec.getLsbD_append, BitVec.getLsbD_or, BitVec.getLsbD_shiftLeft, BitVec.getLsbD_setWidth]
  interval_cases i <;> simp

/-- A port wrapper has the encoding of the command it expands to (R109). -/
theorem encode_core (i : Instr) : encode i.core = encode i := by
  cases i with
  | writePortA v | writePortB v => exact congrArg Code.word (hostWord_eq_or ..)
  | _ => rfl

/-- Settles O4: READ's and WRITE's words are their shifted fields, the other words are fixed but for the data. -/
theorem commandWords : Obligations.CommandWords := by
  refine ⟨rfl, fun p r => ?_, fun p r v => ?_, rfl, rfl, fun v => rfl, fun v => rfl⟩
  · rw [encode, hostWord_eq_or]
    simp
  · rw [encode, hostWord_eq_or]
    simp

/-! Decoding an encoding. -/

/-- An instruction other than a port wrapper is decoded from its own encoding. -/
theorem decode_encode_of_core {i : Instr} (hw : i.wellFormed = true) (hc : i.core = i) :
    decode (encode i) = .instr i := by
  cases i with
  | init => rfl
  | read p r => exact decode_word_read p r
  | write p r v => exact decode_word_write p r v
  | spiWriteFrame e a d => exact decode_spiWriteFrame e d (of_decide_eq_true hw)
  | spiReadFrame e a => exact decode_spiReadFrame e (of_decide_eq_true hw)
  | i2cWriteFrame o a d => exact decode_i2cWriteFrame o d (of_decide_eq_true hw)
  | i2cReadFrame o a => exact decode_i2cReadFrame o (of_decide_eq_true hw)
  | _ => cases hc

theorem Instr.core_core (i : Instr) : i.core.core = i.core := by
  cases i <;> rfl

theorem Instr.core_wellFormed (i : Instr) : i.core.wellFormed = i.wellFormed := by
  cases i <;> rfl

/-- Settles O1: an instruction is encoded as its core is, and the core decodes to itself. -/
theorem decodeOfEncode : Obligations.DecodeOfEncode := by
  intro i hw
  rw [← encode_core]
  exact decode_encode_of_core (Instr.core_wellFormed i ▸ hw) (Instr.core_core i)

/-- Settles O5: each code is the encoding of the instruction. -/
theorem sampleCodesDecode : Obligations.SampleCodesDecode :=
  ⟨decodeOfEncode .init rfl, decodeOfEncode (.read .B .gpio) rfl, decodeOfEncode (.write .B .gpio 0xA5#8) rfl,
   decodeOfEncode (.spiWriteFrame 0b01#2 0x13#8 0xA5#8) rfl, decodeOfEncode (.spiReadFrame 0b01#2 0x13#8) rfl,
   decodeOfEncode (.i2cWriteFrame 0b100#3 0x1A#8 0x80#8) rfl, decodeOfEncode (.i2cReadFrame 0b110#3 0x19#8) rfl⟩

/-! What a code decodes to. -/

theorem decodeWord_core {w : Word16} {i : Instr} (h : decodeWord w = .instr i) :
    i.wellFormed = true ∧ i.core = i := by
  simp only [decodeWord] at h
  cases hreg : LReg.ofIndex (w.extractLsb' 8 4) with
  | none =>
    simp only [hreg] at h
    split_ifs at h
    cases h; exact ⟨rfl, rfl⟩
  | some r =>
    simp only [hreg] at h
    split_ifs at h <;> cases h <;> exact ⟨rfl, rfl⟩

theorem decodeSpi_core {bytes : List Byte} {i : Instr} (h : decodeSpi bytes = .instr i) :
    i.wellFormed = true ∧ i.core = i := by
  unfold decodeSpi at h
  split at h
  · split_ifs at h with _ ha <;> cases h <;> exact ⟨decide_eq_true (not_lt.1 ha), rfl⟩
  · cases h

theorem decodeI2c_core {bytes : List Byte} {i : Instr} (h : decodeI2c bytes = .instr i) :
    i.wellFormed = true ∧ i.core = i := by
  unfold decodeI2c at h
  split at h
  · split_ifs at h with _ ha
    cases h; exact ⟨decide_eq_true (not_lt.1 ha), rfl⟩
  · split_ifs at h with _ ha
    cases h; exact ⟨decide_eq_true (not_lt.1 ha), rfl⟩
  · cases h

/-- Settles O2: the decoder answers well-formed core instructions only, and drops no bit. -/
theorem encodeOfDecode : Obligations.EncodeOfDecode := by
  intro code i h
  rw [← and_assoc]
  refine ⟨?_, encode_of_decode h⟩
  cases code with
  | word w => exact decodeWord_core h
  | spi bytes => exact decodeSpi_core h
  | i2c bytes => exact decodeI2c_core h

/-! The illegal words (R110). -/

theorem LReg.ofIndex_eq_none_iff (x : BitVec 4) : LReg.ofIndex x = none ↔ 10 < x.toNat := by
  revert x; decide

/-- The decoder refuses a word exactly on the five conditions of R110: RSVD, the reserved OP, and one for each legal
OP. -/
theorem decodeWord_illegal_iff (w : Word16) : (∃ e, decodeWord w = .illegal e) ↔
    (w.extractLsb' 13 1 = 1#1 ∨ w.extractLsb' 14 2 = 0b11#2 ∨
     (w.extractLsb' 14 2 = 0b00#2 ∧ w.extractLsb' 0 13 ≠ 0#13) ∨
     (w.extractLsb' 14 2 = 0b01#2 ∧ (10 < (w.extractLsb' 8 4).toNat ∨ w.extractLsb' 0 8 ≠ 0#8)) ∨
     (w.extractLsb' 14 2 = 0b10#2 ∧ 10 < (w.extractLsb' 8 4).toNat)) := by
  have bit : ∀ b : BitVec 1, b = 0#1 ∨ b = 1#1 := by decide
  have ops : ∀ o : BitVec 2, o = 0b00#2 ∨ o = 0b01#2 ∨ o = 0b10#2 ∨ o = 0b11#2 := by decide
  simp only [decodeWord, ← LReg.ofIndex_eq_none_iff]
  obtain hr | hr := bit (w.extractLsb' 13 1)
  · obtain ho | ho | ho | ho := ops (w.extractLsb' 14 2) <;> simp only [hr, ho]
    · by_cases hz : w.extractLsb' 0 13 = 0#13 <;> simp [hz]
    · cases LReg.ofIndex (w.extractLsb' 8 4) with
      | none => simp
      | some r => by_cases hd : w.extractLsb' 0 8 = 0#8 <;> simp [hd]
    · cases LReg.ofIndex (w.extractLsb' 8 4) <;> simp
    · simp
  · simp [hr]

/-- With no word held, taking the held word changes nothing. -/
theorem ctx_set_held_none {s : State} {c : Nat} (h : (s.getCtx c).held = none) :
    s.ctx.set c { s.getCtx c with held := none } = s.ctx := by
  rw [← h]
  exact congrArg State.ctx (s.modCtx_self c)

/-- Settles O3: the decoder's conditions are those of R110, and ACCEPT of an illegal word is the fault. -/
theorem illegalWordsFault : Obligations.IllegalWordsFault := by
  refine ⟨decodeWord_illegal_iff, fun s w hw hr ⟨e, he⟩ => ?_⟩
  obtain ⟨ht, hv, hl, hh⟩ := hw
  obtain ⟨accepted, -⟩ := acceptOfAWord s w hl (.inl ⟨ht, hv, hl, hh⟩)
  obtain ⟨faulted, -⟩ := accepted hr
  have h := faulted e he
  simpa only [ctx_set_held_none hh] using h

end Sys2Proof.Machine

/-! The assembler and its grammar (R108, R109). -/

namespace Sys2Proof.Machine

/-- A line lays out exactly the tokens that the assembler reads from it. -/
theorem lineOf_iff (ts : List (List Char)) (line : List Char) :
    LineOf ts line ↔ tokens [] (dropComment line) = ts := by
  constructor
  · rintro ⟨text, ht, rfl | ⟨rest, rfl⟩⟩
    · rw [(dropComment_of_no_comment _ [] ht.no_comment).1, ht.tokens_eq]
    · rw [(dropComment_of_no_comment text rest ht.no_comment).2, ht.tokens_eq]
  · rintro rfl
    obtain ⟨hc, hl⟩ := dropComment_spec line
    exact ⟨_, lays_tokens _ [] hc (by simp), hl⟩

/-- A line is the instruction that its tokens spell. -/
theorem spellsLine_iff (line : List Char) (i : Instr) :
    SpellsLine line i ↔ command? (tokens [] (dropComment line)) = some i := by
  simp [SpellsLine, lineOf_iff, command?_eq_some_iff]

/-- What the assembler answers, by the tokens of the line. -/
theorem assembleLine_cases (line : List Char) :
    (tokens [] (dropComment line) = [] ∧ assembleLine line = .empty) ∨
    (tokens [] (dropComment line) ≠ [] ∧
      ((∃ i, command? (tokens [] (dropComment line)) = some i ∧ assembleLine line = .instr i) ∨
       (command? (tokens [] (dropComment line)) = none ∧ assembleLine line = .refused))) := by
  unfold assembleLine
  split
  · next h => exact .inl ⟨h, rfl⟩
  · next h =>
    refine .inr ⟨h, ?_⟩
    cases hc : command? (tokens [] (dropComment line)) with
    | none => exact .inr ⟨rfl, rfl⟩
    | some i => exact .inl ⟨i, rfl, rfl⟩

theorem assembleLine_eq_instr_iff (line : List Char) (i : Instr) :
    assembleLine line = .instr i ↔ SpellsLine line i := by
  rw [spellsLine_iff]
  obtain ⟨ht, e⟩ | ⟨-, ⟨j, hj, e⟩ | ⟨hn, e⟩⟩ := assembleLine_cases line
  · simp [e, ht, command?]
  · simp [e, hj]
  · simp [e, hn]

theorem assembleLine_eq_empty_iff (line : List Char) : assembleLine line = .empty ↔ LineOf [] line := by
  rw [lineOf_iff]
  obtain ⟨ht, e⟩ | ⟨ht, ⟨j, -, e⟩ | ⟨-, e⟩⟩ := assembleLine_cases line <;> simp [e, ht]

/-- Only an instruction that is one host word has an assembly. -/
theorem SpellsCommand.encode_eq {ts : List (List Char)} {i : Instr} (h : SpellsCommand ts i) :
    encode i = .word i.word ∧ i.wellFormed = true := by
  cases i with
  | spiWriteFrame | spiReadFrame | i2cWriteFrame | i2cReadFrame => exact h.elim
  | _ => exact ⟨rfl, rfl⟩

/-- A text spells one decimal. -/
theorem SpellsDecimal.unique {t : List Char} {m n : Nat} (hm : SpellsDecimal t m) (hn : SpellsDecimal t n) : m = n :=
  have ⟨_, _, valueM⟩ := hm
  have ⟨_, _, valueN⟩ := hn
  valueM.symm.trans valueN

/-- A decimal immediate is its value; it is never read as hexadecimal. -/
theorem SpellsImm.toNat_eq {t : List Char} {v : Byte} {n : Nat} (h : SpellsImm t v) (hn : SpellsDecimal t n) :
    v.toNat = n := by
  obtain ⟨h, l, a, b, rfl, -⟩ | hd := h
  · obtain ⟨-, digits, -⟩ := hn
    exact absurd (digits 'x' (by simp)) (by decide)
  · exact hd.unique hn

/-- Settles O6: the assembler reads the tokens that the line lays out, and each of its parts its part of the grammar. -/
theorem assemblerIsFaithful : Obligations.AssemblerIsFaithful := by
  refine ⟨assembleLine_eq_instr_iff, assembleLine_eq_empty_iff, fun line hi he => ?_, fun line i h => ?_,
    fun cs n hn hlt => ?_, fun cs n hn hlt => ?_⟩
  · rw [← assembleLine_eq_empty_iff] at he
    cases h : assembleLine line with
    | instr i => exact absurd ((assembleLine_eq_instr_iff line i).1 h) (hi i)
    | empty => exact absurd h he
    | refused => rfl
  · obtain ⟨ts, hts, -⟩ := (assembleLine_eq_instr_iff line i).1 h
    obtain ⟨hw, hwf⟩ := hts.encode_eq
    exact ⟨by rw [assemble, h], hw ▸ decodeOfEncode i hwf⟩
  · have hd := (decimal?_eq_some_iff cs n).2 hn
    simp [reg?, hd, hlt]
  · refine Option.eq_none_iff_forall_ne_some.2 fun v hv => ?_
    have hv := ((imm8?_eq_some_iff cs v).1 hv).toNat_eq hn
    have := v.isLt
    omega

end Sys2Proof.Machine

/-! The wire frames: the step that sends each, and that only legal frames are sent (R102 to R105, R111, R169, R172,
R173). -/

namespace Sys2Proof.Machine

/-- Settles O13: the frame due is the exchange, payload or header of the current transaction. -/
theorem dueFrameDecodes : Obligations.DueFrameDecodes := by
  intro s c code hs hc h
  obtain ⟨i, hw, rfl, hd⟩ := dueFrame_decodes hs hc h
  exact ⟨i, hw, rfl, hd⟩

/-! The transport steps when the master answers OK. -/

theorem spiXferStep_of_ok {s : State} (tx : List Byte) (rw : RW) (c : Nat) (h : s.inp.spiSt = .ok) :
    spiXferStep tx rw c s = (s.emit (.spi c tx [s.inp.rx0, s.inp.rx1, s.inp.rx2] .ok)).modCtx c fun C =>
      { C with rdByte := if rw = .read then some s.inp.rx2 else C.rdByte, phase := .waitIdlePost } := by
  obtain ⟨-, e⟩ | ⟨k, hn, -, -⟩ := spiXferStep_cases tx rw c s
  · exact e
  · exact absurd h hn

theorem i2cWriteStep_of_ok {s : State} (bytes : List Byte) (rw : RW) (c : Nat) (h : s.inp.i2cTxSt = .ok) :
    i2cWriteStep bytes rw c s = (s.emit (.i2cW c (sla (s.par.handleCfg c).opcode) bytes .ok)).modCtx c fun C =>
      { C with phase := if rw = .read then .i2cRead else .release } := by
  obtain ⟨-, e⟩ | ⟨k, hn, -, -⟩ := i2cWriteStep_cases bytes rw c s
  · exact e
  · exact absurd h hn

theorem i2cReadStep_of_ok {s : State} (c : Nat) (h : s.inp.i2cRxSt = .ok) :
    i2cReadStep c s = (s.emit (.i2cR c (sla (s.par.handleCfg c).opcode) s.inp.i2cRxByte .ok)).modCtx c fun C =>
      { C with rdByte := some s.inp.i2cRxByte, phase := .release } := by
  obtain ⟨-, e⟩ | ⟨k, hn, -, -⟩ := i2cReadStep_cases c s
  · exact e
  · exact absurd h hn

/-! The four frames of a transaction, by their bytes (R142 to R144), and the encodings that they are (R102 to R105). -/

section
variable {g : HandleCfg} {t : Txn}

theorem spiTx_of_write (hg : g.mode = .spi) (hr : t.rw = .write) :
    spiTx (txnFrame g t) t.rw = [ctrl .spi g.opcode .write, resolve g.bank t.port t.reg, t.data] := by
  simp [spiTx, txnFrame, txnAddr, buildFrame, hg, hr]

theorem spiTx_of_read (hg : g.mode = .spi) (hr : t.rw = .read) :
    spiTx (txnFrame g t) t.rw = [ctrl .spi g.opcode .read, resolve g.bank t.port t.reg, Config.dummyByte] := by
  simp [spiTx, txnFrame, txnAddr, buildFrame, hg, hr]

theorem txnFrame_of_write (hr : t.rw = .write) :
    txnFrame g t = [ctrl g.mode g.opcode .write, resolve g.bank t.port t.reg, t.data] := by
  simp [txnFrame, txnAddr, buildFrame, hr]

theorem txnFrame_of_read (hr : t.rw = .read) :
    txnFrame g t = [ctrl g.mode g.opcode .read, resolve g.bank t.port t.reg] := by
  simp [txnFrame, txnAddr, buildFrame, hr]

end

theorem encode_spiWriteFrame (o : BitVec 3) (a d : Byte) :
    encode (.spiWriteFrame (o.setWidth 2) a d) = .spi [ctrl .spi o .write, a, d] := by
  rw [ctrl_spi]; rfl

theorem encode_spiReadFrame (o : BitVec 3) (a : Byte) :
    encode (.spiReadFrame (o.setWidth 2) a) = .spi [ctrl .spi o .read, a, Config.dummyByte] := by
  rw [ctrl_spi]; rfl

theorem encode_i2cWriteFrame (o : BitVec 3) (a d : Byte) :
    encode (.i2cWriteFrame o a d) = .i2c [ctrl .i2c o .write, a, d] := by
  rw [ctrl_i2c]; rfl

theorem encode_i2cReadFrame (o : BitVec 3) (a : Byte) :
    encode (.i2cReadFrame o a) = .i2c [ctrl .i2c o .read, a] := by
  rw [ctrl_i2c]; rfl

/-! The instruction of the frame that is due, when the master answers OK (R169, R172, R173). -/

section
variable {s : State} {t : Txn} {i : Instr} {bytes : List Byte}

/-- A frame that is due acts. -/
theorem whenDue_of_due {f : Nat → State → State} (hl : s.turnLegal) (h : dueFrame s s.inp.sel = some (encode i)) :
    whenDue i f s = .next (f s.inp.sel s) :=
  whenDue_eq_next_iff.2 ⟨hl, .inl ⟨h, rfl⟩⟩

theorem exec_of_spiXfer (hl : s.turnLegal) (hf : s.fault = none) (hp : (s.getCtx s.inp.sel).phase = .spiXfer)
    (hu : (s.getCtx s.inp.sel).cur = some t) (hi : encode i = .spi bytes)
    (hb : spiTx (txnFrame (s.par.handleCfg s.inp.sel) t) t.rw = bytes) (hok : s.inp.spiSt = .ok) :
    exec i s = .next ((s.emit (.spi s.inp.sel bytes [s.inp.rx0, s.inp.rx1, s.inp.rx2] .ok)).modCtx s.inp.sel fun C =>
      { C with rdByte := if t.rw = .read then some s.inp.rx2 else C.rdByte, phase := .waitIdlePost }) := by
  subst hb
  rw [exec_of_spi_due hi, whenDue_of_due hl (hi ▸ dueFrame_spiXfer hf hp hu), spiXferStep_of_ok _ _ _ hok]

theorem exec_of_i2cWrite (hl : s.turnLegal) (hf : s.fault = none) (hp : (s.getCtx s.inp.sel).phase = .i2cWrite)
    (hu : (s.getCtx s.inp.sel).cur = some t) (hi : encode i = .i2c bytes)
    (hb : txnFrame (s.par.handleCfg s.inp.sel) t = bytes) (hok : s.inp.i2cTxSt = .ok) :
    exec i s = .next ((s.emit (.i2cW s.inp.sel (sla (s.par.handleCfg s.inp.sel).opcode) bytes .ok)).modCtx s.inp.sel
      fun C => { C with phase := if t.rw = .read then .i2cRead else .release }) := by
  subst hb
  have hn : ¬ (t.rw = .read ∧ (s.getCtx s.inp.sel).phase = .i2cRead) := by simp [hp]
  rw [exec_of_i2c_due hi, whenDue_of_due hl (hi ▸ dueFrame_i2cWrite hf hp hu), if_neg hn,
    i2cWriteStep_of_ok _ _ _ hok]
  rfl

theorem exec_of_i2cRead (hl : s.turnLegal) (hf : s.fault = none) (hp : (s.getCtx s.inp.sel).phase = .i2cRead)
    (hu : (s.getCtx s.inp.sel).cur = some t) (hr : t.rw = .read) (hi : encode i = .i2c bytes)
    (hb : txnFrame (s.par.handleCfg s.inp.sel) t = bytes) (hok : s.inp.i2cRxSt = .ok) :
    exec i s = .next ((s.emit (.i2cR s.inp.sel (sla (s.par.handleCfg s.inp.sel).opcode) s.inp.i2cRxByte .ok)).modCtx
      s.inp.sel fun C => { C with rdByte := some s.inp.i2cRxByte, phase := .release }) := by
  subst hb
  rw [exec_of_i2c_due hi, whenDue_of_due hl (hi ▸ dueFrame_i2cRead hf hp hu hr), if_pos ⟨hr, hp⟩,
    i2cReadStep_of_ok _ hok]

end

/-- Settles O26: the bytes due are the encoding of the frame, and a write keeps the byte read before. -/
theorem spiWriteFrameIsSent : Obligations.SpiWriteFrameIsSent := by
  rintro s t _ c g hl hf hp hu hr hg rfl hok
  rw [exec_of_spiXfer hl hf hp hu (encode_spiWriteFrame ..) (spiTx_of_write hg hr) hok, hr]
  rfl

/-- Settles O27: the bytes due are the encoding of the frame, and a read keeps the third byte received. -/
theorem spiReadFrameIsSent : Obligations.SpiReadFrameIsSent := by
  rintro s t _ c g hl hf hp hu hr hg rfl hok
  rw [exec_of_spiXfer hl hf hp hu (encode_spiReadFrame ..) (spiTx_of_read hg hr) hok, hr]
  rfl

/-- Settles O28: the bytes due are the encoding of the frame, and a write goes on to its release. -/
theorem i2cWriteFrameIsSent : Obligations.I2cWriteFrameIsSent := by
  intro s t c g hl hf hp hu hr hg hok
  rw [exec_of_i2cWrite hl hf hp hu (encode_i2cWriteFrame ..) (hg ▸ txnFrame_of_write hr) hok, hr]
  rfl

/-- Settles O29: the header is due in both phases, sent in the first and read from in the second. -/
theorem i2cReadFrameIsSent : Obligations.I2cReadFrameIsSent := by
  intro s t c g hl hf hu hr hg
  have header := hg ▸ txnFrame_of_read (g := g) hr
  refine ⟨fun hp hok => ?_, fun hp hok => ?_⟩
  · rw [exec_of_i2cWrite hl hf hp hu (encode_i2cReadFrame ..) header hok, hr]
    rfl
  · rw [exec_of_i2cRead hl hf hp hu hr (encode_i2cReadFrame ..) header hok]
    rfl

end Sys2Proof.Machine

/-! Only legal frames are sent (R111). -/

namespace Sys2Proof.Machine

/-! The frames of a transaction are legal. -/

theorem ctrl_spi_range (o : BitVec 3) (rw : RW) :
    0x40 ≤ (ctrl .spi o rw).toNat ∧ (ctrl .spi o rw).toNat ≤ 0x47 := by
  cases rw <;> revert o <;> decide

theorem ctrl_range (m : Mode) (o : BitVec 3) (rw : RW) :
    0x40 ≤ (ctrl m o rw).toNat ∧ (ctrl m o rw).toNat ≤ 0x4F := by
  cases m <;> cases rw <;> revert o <;> decide

theorem frameLegal_spi {g : HandleCfg} (hg : g.mode = .spi) (t : Txn) (c : Nat) (rx : List Byte) (st : Status) :
    FrameLegal g (.spi c (spiTx (txnFrame g t) t.rw) rx st) := by
  cases hr : t.rw with
  | read =>
    obtain ⟨lo, hi⟩ := ctrl_spi_range g.opcode .read
    exact ⟨_, _, _, hr ▸ spiTx_of_read hg hr, lo, hi, _, _, rfl⟩
  | write =>
    obtain ⟨lo, hi⟩ := ctrl_spi_range g.opcode .write
    exact ⟨_, _, _, hr ▸ spiTx_of_write hg hr, lo, hi, _, _, rfl⟩

theorem frameLegal_i2cW (g : HandleCfg) (t : Txn) (c : Nat) (a : Byte) (st : Status) :
    FrameLegal g (.i2cW c a (txnFrame g t) st) := by
  cases hr : t.rw with
  | read =>
    obtain ⟨lo, hi⟩ := ctrl_range g.mode g.opcode .read
    exact ⟨_, _, lo, hi, ⟨_, _, rfl⟩, .inr (txnFrame_of_read hr)⟩
  | write =>
    obtain ⟨lo, hi⟩ := ctrl_range g.mode g.opcode .write
    exact ⟨_, _, lo, hi, ⟨_, _, rfl⟩, .inl ⟨_, txnFrame_of_write hr⟩⟩

/-! What a transport call puts on the trace: itself, and after an answer other than OK its fault. -/

/-- The trace of t is that of s with events of context c behind it, each of which c's handle may send. -/
def SendsLegal (c : Nat) (s t : State) : Prop :=
  ∃ es, t.trace = s.trace ++ es ∧ ∀ e ∈ es, e.context = c ∧ FrameLegal (s.par.handleCfg c) e

theorem SendsLegal.silent {c : Nat} {s t : State} (h : t.trace = s.trace) : SendsLegal c s t :=
  ⟨[], by simp [h], by simp⟩

theorem SendsLegal.event {s t : State} (e : Event) (h : t.trace = s.trace ++ [e])
    (he : FrameLegal (s.par.handleCfg e.context) e) : SendsLegal e.context s t :=
  ⟨[e], h, by simpa using he⟩

/-- A fault is no frame. -/
theorem SendsLegal.fault {c : Nat} {s t : State} (h : SendsLegal c s t) (k : Cause) :
    SendsLegal c s (raiseFault t c k) := by
  obtain ⟨es, htr, hes⟩ := h
  refine ⟨es ++ [.fault c k], by simp [htr], fun e he => ?_⟩
  obtain he | he := List.mem_append.1 he
  · exact hes e he
  · obtain rfl := List.mem_singleton.1 he
    exact ⟨rfl, trivial⟩

theorem spiXferStep_sendsLegal {s : State} {c : Nat} (hg : (s.par.handleCfg c).mode = .spi) (t : Txn) :
    SendsLegal c s (spiXferStep (spiTx (txnFrame (s.par.handleCfg c) t) t.rw) t.rw c s) := by
  obtain ⟨-, e⟩ | ⟨k, -, -, e⟩ := spiXferStep_cases (spiTx (txnFrame (s.par.handleCfg c) t) t.rw) t.rw c s
  all_goals rw [e]
  · exact .event (.spi c _ _ _) rfl (frameLegal_spi hg t c _ _)
  · exact (SendsLegal.event (.spi c _ _ _) rfl (frameLegal_spi hg t c _ _)).fault k

theorem i2cWriteStep_sendsLegal (s : State) (c : Nat) (t : Txn) :
    SendsLegal c s (i2cWriteStep (txnFrame (s.par.handleCfg c) t) t.rw c s) := by
  obtain ⟨-, e⟩ | ⟨k, -, -, e⟩ := i2cWriteStep_cases (txnFrame (s.par.handleCfg c) t) t.rw c s
  all_goals rw [e]
  · exact .event (.i2cW c _ _ _) rfl (frameLegal_i2cW _ t c _ _)
  · exact (SendsLegal.event (.i2cW c _ _ _) rfl (frameLegal_i2cW _ t c _ _)).fault k

theorem i2cReadStep_sendsLegal (s : State) (c : Nat) : SendsLegal c s (i2cReadStep c s) := by
  obtain ⟨-, e⟩ | ⟨k, -, -, e⟩ := i2cReadStep_cases c s
  all_goals rw [e]
  · exact .event (.i2cR c _ _ _) rfl trivial
  · exact (SendsLegal.event (.i2cR c _ _ _) rfl trivial).fault k

/-! What a step puts on the trace. -/

/-- The step of a context that has a frame due sends that frame (R169, R172, R173). -/
theorem step_sendsLegal_of_due {s : State} {code : Code} (hs : Inv s) (ht : s.inp.turn = .context) (hl : s.turnLegal)
    (hd : dueFrame s s.inp.sel = some code) : ∃ t, step s = .next (finish t) ∧ SendsLegal s.inp.sel s t := by
  have hi := hs.ctx_inv _ hl
  obtain ⟨hf, u, hu, ⟨hp, -⟩ | ⟨hp, -⟩ | ⟨hp, -⟩⟩ := dueFrame_cases hd
  · have hm := hi.spi_phase (by rw [hp]; rfl)
    exact ⟨_, step_of_spiXfer ht rfl hl hf hm hp hu, spiXferStep_sendsLegal hm u⟩
  · have hm := hi.i2c_phase (by rw [hp]; rfl)
    exact ⟨_, step_of_i2cWrite ht rfl hl hf hm hp hu, i2cWriteStep_sendsLegal s _ u⟩
  · have hm := hi.i2c_phase (by rw [hp]; rfl)
    exact ⟨_, step_of_i2cRead ht rfl hl hf hm hp hu (hi.read_phase hp u hu), i2cReadStep_sendsLegal s _⟩

/-- A context that is at work has a current transaction (R174). -/
theorem CommandShape.cur_ne_none {g : HandleCfg} {C : Ctx} (h : CommandShape g C) : C.cur ≠ none := by
  unfold CommandShape at h
  split at h
  · obtain ⟨p, r, hc, -⟩ := h; simp [hc]
  · obtain ⟨p, r, v, hc, -⟩ := h; simp [hc]
  · obtain ⟨t, k, hc, -⟩ := h; simp [hc]
  · exact h.elim

/-- In the phase in which a transport call fails, its frame is due (R164, R230). -/
theorem Inv.exists_due {s : State} (hs : Inv s) {c : Nat} (hc : c < s.par.nCtx) (hf : s.fault = none) {k : Cause}
    (hp : (s.getCtx c).phase = k.raisedIn) (hk : k.raisedIn ≠ .idle) : ∃ code, dueFrame s c = some code := by
  have hi := hs.ctx_inv c hc
  obtain ⟨u, hu⟩ := Option.ne_none_iff_exists'.1 (hi.command (hp ▸ hk)).cur_ne_none
  cases k with
  | spiXferError | spiXferTimeout => exact ⟨_, dueFrame_spiXfer hf hp hu⟩
  | i2cTxError | i2cTxTimeout => exact ⟨_, dueFrame_i2cWrite hf hp hu⟩
  | i2cRxError | i2cRxTimeout => exact ⟨_, dueFrame_i2cRead hf hp hu (hi.read_phase hp u hu)⟩
  | modeUndefined | illegalCmd => exact absurd rfl hk

/-- Completing a command sends no frame (R174). -/
theorem frameLegal_completeEvents {g h : HandleCfg} {c : Nat} {t : Txn} {C : Ctx} :
    ∀ e ∈ completeEvents g c t C, e.context = c ∧ FrameLegal h e := by
  unfold completeEvents respondEvents
  split <;> simp [Event.context, FrameLegal]

/-- An enabled step of a context with no frame due sends none. -/
theorem ContextMove.sendsLegal {c : Nat} {s t : State} (hs : Inv s) (hc : c < s.par.nCtx) (hf : s.fault = none)
    (hd : dueFrame s c = none) (h : ContextMove c s t) : SendsLegal c s t := by
  cases h with
  | lock hp hl => exact .event (.lock c) rfl trivial
  | assertCs u hp hu => exact .event (.cs c _ _) rfl trivial
  | idleBefore hp hb => exact .silent rfl
  | exchange u hp hu => cases hd.symm.trans (dueFrame_spiXfer hf hp hu)
  | idleAfter hp hb => exact .silent rfl
  | deassertCs hp => exact .event (.cs c _ _) rfl trivial
  | i2cWrite u hp hu => cases hd.symm.trans (dueFrame_i2cWrite hf hp hu)
  | i2cRead hp => exact .event (.i2cR c _ _ _) rfl trivial
  | next u n rest hp hu hn => exact .event (.unlock c) rfl trivial
  | complete u hp hu hn => exact ⟨_, rfl, frameLegal_completeEvents⟩
  | fail e k hp hk he =>
    obtain ⟨code, hdue⟩ := hs.exists_due hc hf hp hk
    cases hd.symm.trans hdue

/-- A move with no frame due starts the trace again, or sends none. -/
theorem Move.sendsLegal {s t : State} (hs : Inv s)
    (hd : s.inp.turn = .context → s.turnLegal → dueFrame s s.inp.sel = none) (h : Move s t) :
    t.trace = [] ∨ SendsLegal s.inp.sel s t := by
  cases h with
  | stay ht => exact .inr (.silent rfl)
  | reset ht => exact .inl rfl
  | read r ht => exact .inr (.silent rfl)
  | master ht => exact .inr (.silent rfl)
  | hold w hf hl hr => exact .inr (.silent rfl)
  | accept w i k e hf hl hr hm hd he => exact .inr (.event (.accept s.inp.sel w) rfl trivial)
  | refuse w k hf hl hr hk =>
    exact .inr (SendsLegal.fault (.event (t := takeWord s s.inp.sel w) (.accept s.inp.sel w) rfl trivial) k)
  | context _ ht hl hf hm => exact .inr (hm.sendsLegal hs hl hf (hd ht hl))

/-- A step starts the trace again, or puts on it only what the handle of the context of the turn may send. -/
theorem step_sendsLegal {s s' : State} (hs : Inv s) (h : step s = .next s') :
    s'.trace = [] ∨ SendsLegal s.inp.sel s s' := by
  by_cases hd : s.inp.turn = .context → s.turnLegal → dueFrame s s.inp.sel = none
  · obtain ⟨t, hm, rfl⟩ := move_of_step h
    have hsend := hm.sendsLegal hs hd
    exact hsend
  · push Not at hd
    obtain ⟨ht, hl, hne⟩ := hd
    obtain ⟨code, hdue⟩ := Option.ne_none_iff_exists'.1 hne
    obtain ⟨t, hstep, hsend⟩ := step_sendsLegal_of_due hs ht hl hdue
    cases hstep.symm.trans h
    exact .inr hsend

/-! Every state that a schedule reaches. -/

theorem Reachable.inv {p : Params} {s : State} (hp : p.WellFormed) (h : Reachable p s) : Inv s :=
  (h.induct hp (P := fun _ => True) (fun _ => trivial) fun _ _ _ _ _ _ => trivial).1

/-- The parameters are those of the reset (R28). -/
theorem Reachable.par_eq {p : Params} {s : State} (h : Reachable p s) : s.par = p := by
  induction h with
  | reset busy => rfl
  | step s s' i _ hstep ih => exact (step_par hstep).trans ih

/-- Settles O12, by induction on the run: the trace after a step is a new one, or the old one and legal frames. -/
theorem onlyLegalFramesAreSent : Obligations.OnlyLegalFramesAreSent := by
  intro p s hp h
  induction h with
  | reset busy => exact List.forall_mem_nil _
  | step s s' i hr hstep ih =>
    obtain hnil | ⟨es, htr, hes⟩ := step_sendsLegal ((hr.inv hp).present i) hstep
    · simp [hnil]
    · intro e he
      rw [htr] at he
      obtain he | he := List.mem_append.1 he
      · exact ih e he
      · obtain ⟨hc, hlegal⟩ := hes e he
        rw [State.present_par, hr.par_eq] at hlegal
        exact hc ▸ hlegal

end Sys2Proof.Machine

/-! The address resolver (R120 to R126). -/

namespace Sys2Proof.Machine

/-! Ports and register indices. -/

/-- The eleven registers have the indices 0 to 10 (R22). -/
theorem LReg.index_toNat_le (r : LReg) : r.index.toNat ≤ 10 := by
  cases r <;> decide

theorem LReg.index_injective {r t : LReg} (h : r.index = t.index) : r = t :=
  Option.some.inj (by rw [← LReg.ofIndex_index r, h, LReg.ofIndex_index])

theorem Port.bit_toNat (p : Port) : p.bit.toNat = if p = .B then 1 else 0 := by
  cases p <;> rfl

/-! The two formulas. -/

/-- The Bank0 formula as the spec writes it: no bit of the index is lost in the shift (R121). -/
theorem resolve_bank0_toNat_or (p : Port) (r : LReg) :
    (resolve .bank0 p r).toNat = (r.index.toNat <<< 1) ||| (if p = .B then 1 else 0) := by
  have hr := LReg.index_toNat_le r
  have hi : r.index.toNat % 2 ^ 8 = r.index.toNat := Nat.mod_eq_of_lt (by omega)
  have hshift : r.index.toNat <<< 1 % 2 ^ 8 = r.index.toNat <<< 1 := Nat.mod_eq_of_lt (by omega)
  have hbit : p.bit.toNat % 2 ^ 8 = p.bit.toNat := Nat.mod_eq_of_lt (by omega)
  rw [resolve, BitVec.toNat_or, BitVec.toNat_shiftLeft, BitVec.toNat_setWidth, BitVec.toNat_setWidth, hi, hshift, hbit,
    Port.bit_toNat]

/-- The shifted index has bit 0 clear, so the `|` of R121 is a `+`. -/
theorem resolve_bank0_toNat (p : Port) (r : LReg) :
    (resolve .bank0 p r).toNat = (r.index.toNat <<< 1) + (if p = .B then 1 else 0) := by
  rw [resolve_bank0_toNat_or, Nat.shiftLeft_add_eq_or_of_lt]
  split <;> decide

/-- The Bank1 formula as the spec writes it: the sum does not leave the byte (R122). -/
theorem resolve_bank1_toNat (p : Port) (r : LReg) :
    (resolve .bank1 p r).toNat = r.index.toNat + (if p = .B then 0x10 else 0) := by
  have hr := LReg.index_toNat_le r
  cases p with
  | A => simp [resolve]; omega
  | B => simp [resolve]; omega

/-- The index lies below bit 4, so the `+` of R122 is an `|`. -/
theorem resolve_bank1_toNat_or (p : Port) (r : LReg) :
    (resolve .bank1 p r).toNat = r.index.toNat ||| (if p = .B then 0x10 else 0) := by
  rw [resolve_bank1_toNat]
  cases p with
  | A => simp
  | B => simpa [Nat.add_comm, Nat.or_comm] using Nat.two_pow_add_eq_or_of_lt r.index.isLt 1

/-- Settles O7: R121 and R122 in both forms, with their examples. -/
theorem resolveFormulas : Obligations.ResolveFormulas :=
  ⟨fun p r => ⟨resolve_bank0_toNat_or p r, resolve_bank0_toNat p r⟩, by decide,
    fun p r => ⟨resolve_bank1_toNat p r, resolve_bank1_toNat_or p r⟩, by decide⟩

/-! The laws. -/

/-- The parity law (R124). -/
theorem resolve_bank0_bit_zero (p : Port) (r : LReg) : (resolve .bank0 p r).getLsbD 0 = decide (p = .B) := by
  rw [← BitVec.testBit_toNat, Nat.testBit_zero, resolve_bank0_toNat]
  cases p with
  | A => simp
  | B => simp; omega

/-- The offset law (R125). -/
theorem resolve_bank1_offset (r : LReg) : (resolve .bank1 .B r).toNat = (resolve .bank1 .A r).toNat + 16 := by
  simp [resolve_bank1_toNat]

/-- Under Bank0 the port is the address's bit 0 and the index is the rest; under Bank1 the port is whether the address
reaches 16, and the index is what is left (R126). -/
theorem resolve_injective {b : Bank} {p q : Port} {r t : LReg} (h : resolve b p r = resolve b q t) :
    p = q ∧ r = t := by
  have hr := LReg.index_toNat_le r
  have ht := LReg.index_toNat_le t
  have hnat := congrArg BitVec.toNat h
  obtain ⟨hport, hindex⟩ : p = q ∧ r.index.toNat = t.index.toNat := by
    cases b with
    | bank0 =>
      rw [resolve_bank0_toNat, resolve_bank0_toNat] at hnat
      cases p <;> cases q <;> simp at hnat ⊢ <;> omega
    | bank1 =>
      rw [resolve_bank1_toNat, resolve_bank1_toNat] at hnat
      cases p <;> cases q <;> simp at hnat ⊢ <;> omega
  exact ⟨hport, LReg.index_injective (BitVec.eq_of_toNat_eq hindex)⟩

/-- Settles O8: each law follows from the formula of its bank, as the index is at most 10. -/
theorem resolveLaws : Obligations.ResolveLaws := by
  refine ⟨resolve_bank0_bit_zero, resolve_bank1_offset, fun p r => ?_, fun r => ?_, fun r => ?_,
    fun _ _ _ _ _ => resolve_injective⟩
  all_goals have hr := LReg.index_toNat_le r
  · rw [resolve_bank0_toNat]; split <;> omega
  · rw [resolve_bank1_toNat, if_neg (by decide)]; exact hr
  · rw [resolve_bank1_toNat, if_pos rfl]; omega

end Sys2Proof.Machine

/-! The frame builder: the control byte, the slave address argument, and the forms of a frame (R140 to R148). -/

namespace Sys2Proof.Machine

/-! The control byte. -/

/-- EFFOP is the only difference between the buses: the control byte has the same layout on both, with EFFOP as its
opcode field (R98, R141). -/
theorem ctrl_eq_i2cControl_effop (m : Mode) (o : BitVec 3) (rw : RW) :
    ctrl m o rw = i2cControl (effop m o) (rwBit rw) :=
  ctrl_i2c (effop m o) rw

theorem ctrl_opcode_field (m : Mode) (o : BitVec 3) (rw : RW) : (ctrl m o rw).extractLsb' 1 3 = effop m o := by
  obtain ⟨-, opcode_field, -⟩ := i2cControl_fields (effop m o) (rwBit rw)
  rw [ctrl_eq_i2cControl_effop, opcode_field]

/-- Settles O9: the opcode field of the control byte is EFFOP of the bus, and SLA is the extended opcode by definition. -/
theorem opcodeLaw : Obligations.OpcodeLaw :=
  fun o rw => ⟨ctrl_opcode_field .spi o rw, rfl, ctrl_opcode_field .i2c o rw⟩

/-- Settles O10: the table is closed, so the frame builder's own bytes are compared with it. -/
theorem controlByteTable : Obligations.ControlByteTable := by
  unfold Obligations.ControlByteTable
  decide

/-! The forms of a frame. -/

section
variable (m : Mode) (o : BitVec 3) (a d : Byte)

theorem buildFrame_write : buildFrame m o a .write d = [ctrl m o .write, a, d] := rfl

theorem buildFrame_read : buildFrame m o a .read d = [ctrl m o .read, a] := rfl

end

theorem spiTx_write (frame : List Byte) : spiTx frame .write = frame := rfl

theorem spiTx_read (frame : List Byte) : spiTx frame .read = frame ++ [Config.dummyByte] := rfl

/-- A write fills the exchange by itself, and the dummy byte fills a read's up to it (R144). -/
theorem length_spiTx_buildFrame (m : Mode) (o : BitVec 3) (a : Byte) (rw : RW) (d : Byte) :
    (spiTx (buildFrame m o a rw d) rw).length = 3 := by
  cases rw with
  | write => rw [spiTx_write, buildFrame_write]; rfl
  | read => rw [spiTx_read, buildFrame_read]; rfl

/-- Settles O11: the two forms and the padding are the builder's own equations, and the examples of the spec are
evaluated. -/
theorem frameForms : Obligations.FrameForms :=
  ⟨buildFrame_write, buildFrame_read, spiTx_write, spiTx_read, length_spiTx_buildFrame, by decide, by decide, by decide⟩

end Sys2Proof.Machine

/-! The order of events on the trace: the phase in which each is emitted, the framing of the exchanges by chip-selects,
and that a fault ends the trace (R175 to R177, R232). -/

namespace Sys2Proof.Machine

/-! Every event is emitted in its phase (R166 to R174, R200). -/

/-- The phase of the step that emits an event. -/
def Event.emittedIn : Event → Phase
  | .accept _ _ => .idle
  | .lock _ => .lockWait
  | .cs _ _ true => .csAssert
  | .cs _ _ false => .csDeassert
  | .spi _ _ _ _ => .spiXfer
  | .i2cW _ _ _ _ => .i2cWrite
  | .i2cR _ _ _ _ => .i2cRead
  | .unlock _ | .respond _ _ _ => .release
  | .fault _ k => k.raisedIn

/-- The trace of t is that of s with events of context c behind it, each of the phase that c has in s. -/
def EmitsInPhase (c : Nat) (s t : State) : Prop :=
  ∃ es, t.trace = s.trace ++ es ∧ ∀ e ∈ es, e.context = c ∧ e.emittedIn = (s.getCtx c).phase

theorem EmitsInPhase.silent {c : Nat} {s t : State} (h : t.trace = s.trace) : EmitsInPhase c s t :=
  ⟨[], by simp [h], by simp⟩

theorem EmitsInPhase.event {s t : State} (e : Event) (h : t.trace = s.trace ++ [e])
    (hp : (s.getCtx e.context).phase = e.emittedIn) : EmitsInPhase e.context s t :=
  ⟨[e], h, by simp [hp]⟩

/-- A fault raised in the phase of its cause, behind the events of the step. -/
theorem EmitsInPhase.fault {c : Nat} {s t : State} {k : Cause} (h : EmitsInPhase c s t)
    (hp : (s.getCtx c).phase = k.raisedIn) : EmitsInPhase c s (raiseFault t c k) := by
  obtain ⟨es, htr, hes⟩ := h
  refine ⟨es ++ [.fault c k], by simp [htr], fun e he => ?_⟩
  obtain he | he := List.mem_append.1 he
  · exact hes e he
  · obtain rfl := List.mem_singleton.1 he
    exact ⟨rfl, hp.symm⟩

theorem spiXferStep_emits {s : State} {c : Nat} (hp : (s.getCtx c).phase = .spiXfer) (tx : List Byte) (rw : RW) :
    EmitsInPhase c s (spiXferStep tx rw c s) := by
  obtain ⟨-, e⟩ | ⟨k, -, hk, e⟩ := spiXferStep_cases tx rw c s <;> rw [e]
  · exact .event (.spi c _ _ _) rfl hp
  · have hr : k.raisedIn = .spiXfer := by obtain rfl | rfl := hk <;> rfl
    exact (EmitsInPhase.event (.spi c _ _ _) rfl hp).fault (hp.trans hr.symm)

theorem i2cWriteStep_emits {s : State} {c : Nat} (hp : (s.getCtx c).phase = .i2cWrite) (bytes : List Byte) (rw : RW) :
    EmitsInPhase c s (i2cWriteStep bytes rw c s) := by
  obtain ⟨-, e⟩ | ⟨k, -, hk, e⟩ := i2cWriteStep_cases bytes rw c s <;> rw [e]
  · exact .event (.i2cW c _ _ _) rfl hp
  · have hr : k.raisedIn = .i2cWrite := by obtain rfl | rfl := hk <;> rfl
    exact (EmitsInPhase.event (.i2cW c _ _ _) rfl hp).fault (hp.trans hr.symm)

theorem i2cReadStep_emits {s : State} {c : Nat} (hp : (s.getCtx c).phase = .i2cRead) :
    EmitsInPhase c s (i2cReadStep c s) := by
  obtain ⟨-, e⟩ | ⟨k, -, hk, e⟩ := i2cReadStep_cases c s <;> rw [e]
  · exact .event (.i2cR c _ _ _) rfl hp
  · have hr : k.raisedIn = .i2cRead := by obtain rfl | rfl := hk <;> rfl
    exact (EmitsInPhase.event (.i2cR c _ _ _) rfl hp).fault (hp.trans hr.symm)

/-- The step of a context that has a frame due is the transport step of its phase (R169, R172, R173). -/
theorem step_emits_of_due {s : State} {code : Code} (hs : Inv s) (ht : s.inp.turn = .context) (hl : s.turnLegal)
    (hd : dueFrame s s.inp.sel = some code) : ∃ t, step s = .next (finish t) ∧ EmitsInPhase s.inp.sel s t := by
  have hi := hs.ctx_inv _ hl
  obtain ⟨hf, u, hu, ⟨hp, -⟩ | ⟨hp, -⟩ | ⟨hp, -⟩⟩ := dueFrame_cases hd
  · exact ⟨_, step_of_spiXfer ht rfl hl hf (hi.spi_phase (by rw [hp]; rfl)) hp hu, spiXferStep_emits hp ..⟩
  · exact ⟨_, step_of_i2cWrite ht rfl hl hf (hi.i2c_phase (by rw [hp]; rfl)) hp hu, i2cWriteStep_emits hp ..⟩
  · exact ⟨_, step_of_i2cRead ht rfl hl hf (hi.i2c_phase (by rw [hp]; rfl)) hp hu (hi.read_phase hp u hu),
      i2cReadStep_emits hp⟩

/-- The events that complete a command are those of RELEASE (R174). -/
theorem emittedIn_completeEvents {g : HandleCfg} {c : Nat} {t : Txn} {C : Ctx} :
    ∀ e ∈ completeEvents g c t C, e.context = c ∧ e.emittedIn = .release := by
  unfold completeEvents respondEvents
  split <;> simp [Event.context, Event.emittedIn]

/-- An enabled step of a context with no frame due: no transport call fails in it. -/
theorem ContextMove.emits {c : Nat} {s t : State} (hs : Inv s) (hc : c < s.par.nCtx) (hf : s.fault = none)
    (hd : dueFrame s c = none) (h : ContextMove c s t) : EmitsInPhase c s t := by
  cases h with
  | lock hp hl => exact .event (.lock c) rfl hp
  | assertCs u hp hu => exact .event (.cs c _ true) rfl hp
  | idleBefore hp hb => exact .silent rfl
  | exchange u hp hu => exact .event (.spi c _ _ _) rfl hp
  | idleAfter hp hb => exact .silent rfl
  | deassertCs hp => exact .event (.cs c _ false) rfl hp
  | i2cWrite u hp hu => exact .event (.i2cW c _ _ _) rfl hp
  | i2cRead hp => exact .event (.i2cR c _ _ _) rfl hp
  | next u n rest hp hu hn => exact .event (.unlock c) rfl hp
  | complete u hp hu hn => exact ⟨_, rfl, hp ▸ emittedIn_completeEvents⟩
  | fail e k hp hk he =>
    obtain ⟨code, hdue⟩ := hs.exists_due hc hf hp hk
    cases hd.symm.trans hdue

/-- A move with no frame due starts the trace again, or emits the events of the phase of the context of the turn. -/
theorem Move.emits {s t : State} (hs : Inv s)
    (hd : s.inp.turn = .context → s.turnLegal → dueFrame s s.inp.sel = none) (h : Move s t) :
    t.trace = [] ∨ EmitsInPhase s.inp.sel s t := by
  cases h with
  | stay ht => exact .inr (.silent rfl)
  | reset ht => exact .inl rfl
  | read r ht => exact .inr (.silent rfl)
  | master ht => exact .inr (.silent rfl)
  | hold w hf hl hr => exact .inr (.silent rfl)
  | accept w i k e hf hl hr hm hd he => exact .inr (.event (.accept s.inp.sel w) rfl hr.1)
  | refuse w k hf hl hr hk =>
    have taken : EmitsInPhase s.inp.sel s (takeWord s s.inp.sel w) := .event (.accept s.inp.sel w) rfl hr.1
    exact .inr (taken.fault (hr.1.trans hk.symm))
  | context _ ht hl hf hm => exact .inr (hm.emits hs hl hf (hd ht hl))

/-- A step starts the trace again, or emits events of the phase of the context of the turn. -/
theorem step_emits {s s' : State} (hs : Inv s) (h : step s = .next s') :
    s'.trace = [] ∨ EmitsInPhase s.inp.sel s s' := by
  by_cases hd : s.inp.turn = .context → s.turnLegal → dueFrame s s.inp.sel = none
  · obtain ⟨t, hm, rfl⟩ := move_of_step h
    have hemit := hm.emits hs hd
    exact hemit
  · push Not at hd
    obtain ⟨ht, hl, hne⟩ := hd
    obtain ⟨code, hdue⟩ := Option.ne_none_iff_exists'.1 hne
    obtain ⟨t, hstep, hemit⟩ := step_emits_of_due hs ht hl hdue
    cases hstep.symm.trans h
    exact .inr hemit

/-! Mutual exclusion (R175). -/

/-- The eight phases of R175. -/
theorem Phase.holdsLock_iff (p : Phase) :
    p.holdsLock = true ↔ p = .csAssert ∨ p = .waitIdlePre ∨ p = .spiXfer ∨ p = .waitIdlePost ∨ p = .csDeassert ∨
      p = .i2cWrite ∨ p = .i2cRead ∨ p = .release := by
  cases p <;> decide

/-- Only the lock holder is in a phase that holds the lock, whether or not the context exists (R175). -/
theorem Inv.lock_of_holdsLock {s : State} (hs : Inv s) {c : Nat} (h : (s.getCtx c).phase.holdsLock = true) :
    s.lock = some c := by
  have hc : c < s.ctx.length := lt_of_phase_ne_idle fun hp => by rw [hp] at h; cases h
  exact (hs.lock_iff c (hs.ctx_len ▸ hc)).2 h

/-- The bus transfers and the chip-selects belong to phases that hold the lock (R175). -/
theorem Event.holdsLock_emittedIn {e : Event}
    (h : (∃ c l v, e = .cs c l v) ∨ (∃ c tx rx st, e = .spi c tx rx st) ∨ (∃ c a bs st, e = .i2cW c a bs st) ∨
      (∃ c a b st, e = .i2cR c a b st)) : e.emittedIn.holdsLock = true := by
  obtain ⟨c, l, v, rfl⟩ | ⟨c, tx, rx, st, rfl⟩ | ⟨c, a, bs, st, rfl⟩ | ⟨c, a, b, st, rfl⟩ := h
  · cases v <;> rfl
  · rfl
  · rfl
  · rfl

/-- Settles O52: the lock follows the phases in the invariant, and every event is emitted in its phase. -/
theorem mutualExclusion : Obligations.MutualExclusion := by
  intro p s hp h
  have hs := h.inv hp
  rw [← h.par_eq]
  refine ⟨fun c hc => ?_, fun c _ d _ hcl hdl => ?_, fun i s' hstep e he hbus => ?_⟩
  · rw [hs.lock_iff c hc, Phase.holdsLock_iff]
  · exact Option.some.inj ((hs.lock_of_holdsLock hcl).symm.trans (hs.lock_of_holdsLock hdl))
  · obtain hnil | ⟨es, htr, hes⟩ := step_emits (hs.present i) hstep
    · simp [hnil] at he
    · rw [htr, State.present_trace, List.drop_left] at he
      obtain ⟨hc, hph⟩ := hes e he
      rw [State.present_getCtx, ← hc] at hph
      exact hph ▸ Event.holdsLock_emittedIn hbus

/-! Chip-select framing (R177). -/

/-- The four phases of R177. -/
theorem Phase.assertsCs_iff (p : Phase) :
    p.assertsCs = true ↔ p = .waitIdlePre ∨ p = .spiXfer ∨ p = .waitIdlePost ∨ p = .csDeassert := by
  cases p <;> decide

/-- The last chip-select event of the trace is the assertion of a line by context c. -/
def AssertedBy (c : Nat) (tr : List Event) : Prop :=
  ∃ l xs ys, tr = xs ++ .cs c l true :: ys ∧ ∀ e ∈ ys, ∀ d m v, e ≠ .cs d m v

/-- Events other than chip-selects leave the last chip-select event where it is. -/
theorem AssertedBy.append {c : Nat} {tr : List Event} (h : AssertedBy c tr) {es : List Event}
    (hes : ∀ e ∈ es, ∀ d m v, e ≠ .cs d m v) : AssertedBy c (tr ++ es) := by
  obtain ⟨l, xs, ys, rfl, hys⟩ := h
  refine ⟨l, xs, ys ++ es, by simp, fun e he => ?_⟩
  exact (List.mem_append.1 he).elim (hys e) (hes e)

/-- Every context in one of the four phases of R177 was the last to move a line, and asserted it. -/
def LineAsserted (s : State) : Prop := ∀ c, (s.getCtx c).phase.assertsCs = true → AssertedBy c s.trace

/-- A step without a chip-select event, after which no further context is in the four phases. -/
theorem LineAsserted.keep {s t : State} (h : LineAsserted s) (es : List Event) (htr : t.trace = s.trace ++ es)
    (hes : ∀ e ∈ es, ∀ d m v, e ≠ .cs d m v)
    (hph : ∀ d, (t.getCtx d).phase.assertsCs = true → (s.getCtx d).phase.assertsCs = true) : LineAsserted t :=
  fun d hd => htr ▸ (h d (hph d hd)).append hes

/-- The phase of one context goes on, and not into the four phases from outside them. -/
theorem assertsCs_of_modCtx {s : State} {c : Nat} {f : Ctx → Ctx}
    (hf : (f (s.getCtx c)).phase.assertsCs = true → (s.getCtx c).phase.assertsCs = true) (d : Nat)
    (h : ((s.modCtx c f).getCtx d).phase.assertsCs = true) : (s.getCtx d).phase.assertsCs = true := by
  by_cases hd : d = c
  · subst hd
    by_cases hl : d < s.ctx.length
    · exact hf (State.modCtx_getCtx_same s d f hl ▸ h)
    · simpa [State.getCtx, State.modCtx, hl] using h
  · exact State.modCtx_getCtx_ne s f hd ▸ h

/-- While context c holds the lock no other is in the four phases (R175, R177). -/
theorem Inv.eq_of_assertsCs {s : State} (hs : Inv s) {c d : Nat} (hl : s.lock = some c)
    (hd : (s.getCtx d).phase.assertsCs = true) : d = c :=
  Option.some.inj ((hs.lock_of_holdsLock (Phase.holdsLock_of_assertsCs hd)).symm.trans hl)

/-- A chip-select event of the lock holder, after which it is in the four phases only if it has asserted its line. -/
theorem LineAsserted.of_lineMove {s t : State} {c l : Nat} {v : Bool} (hs : Inv s) (hl : s.lock = some c)
    (htr : t.trace = s.trace ++ [.cs c l v]) (hctx : ∀ d, d ≠ c → t.getCtx d = s.getCtx d)
    (hv : (t.getCtx c).phase.assertsCs = true → v = true) : LineAsserted t := by
  intro d hd
  by_cases e : d = c
  · subst e
    exact ⟨l, s.trace, [], hv hd ▸ htr, nofun⟩
  · exact absurd (hs.eq_of_assertsCs hl (hctx d e ▸ hd)) e

/-- A transport call that fails is no chip-select event. -/
theorem ne_cs_of_failed {e : Event} (h : e.failed = true) (d m : Nat) (v : Bool) : e ≠ .cs d m v := by
  rintro rfl
  cases h

/-- An enabled step of a context: only CS_ASSERT leads into the four phases, and CS_DEASSERT leads out of them. -/
theorem ContextMove.lineAsserted {c : Nat} {s t : State} (hs : Inv s) (hc : c < s.par.nCtx) (ha : LineAsserted s)
    (h : ContextMove c s t) : LineAsserted t := by
  cases h with
  | lock hp hl =>
    refine ha.keep [.lock c] rfl (by simp) (assertsCs_of_modCtx fun h => ?_)
    by_cases hm : (s.par.handleCfg c).mode = .spi <;> simp [hm, Phase.assertsCs] at h
  | assertCs u hp hu =>
    exact .of_lineMove hs (hs.lock_of_phase hc hp rfl) rfl (fun d hd => State.modCtx_getCtx_ne _ _ hd) fun _ => rfl
  | idleBefore hp hb =>
    exact ha.keep [] (List.append_nil _).symm nofun (assertsCs_of_modCtx fun _ => by rw [hp]; rfl)
  | exchange u hp hu =>
    exact ha.keep [.spi c _ _ _] rfl (by simp) (assertsCs_of_modCtx fun _ => by rw [State.emit_getCtx, hp]; rfl)
  | idleAfter hp hb =>
    exact ha.keep [] (List.append_nil _).symm nofun (assertsCs_of_modCtx fun _ => by rw [hp]; rfl)
  | deassertCs hp =>
    refine .of_lineMove hs (hs.lock_of_phase hc hp rfl) rfl (fun d hd => State.modCtx_getCtx_ne _ _ hd) fun h => ?_
    rw [getCtx_set_same (s := s) rfl (lt_of_phase_ne_idle (by simp [hp]))] at h
    cases h
  | i2cWrite u hp hu =>
    refine ha.keep [.i2cW c _ _ _] rfl (by simp) (assertsCs_of_modCtx fun h => ?_)
    by_cases hr : u.rw = .read <;> simp [hr, Phase.assertsCs] at h
  | i2cRead hp => exact ha.keep [.i2cR c _ _ _] rfl (by simp) (assertsCs_of_modCtx nofun)
  | next u n rest hp hu hn => exact ha.keep [.unlock c] rfl (by simp) (assertsCs_of_modCtx nofun)
  | complete u hp hu hn =>
    refine ha.keep (completeEvents (s.par.handleCfg c) c u (s.getCtx c)) rfl (fun e he d m v hcs => ?_)
      (assertsCs_of_modCtx (s := { s with lock := none, trace := _ }) nofun)
    have hph := (emittedIn_completeEvents e he).2
    cases v <;> simp [hcs, Event.emittedIn] at hph
  | fail e k hp hk he =>
    exact ha.keep [e, .fault c k] (List.append_assoc ..) (by simpa using ne_cs_of_failed he.1) fun _ h => h

/-- Every move: reset starts the trace again, and no agent but a context in its step touches a line. -/
theorem Move.lineAsserted {s t : State} (hs : Inv s) (ha : LineAsserted s) (h : Move s t) : LineAsserted t := by
  cases h with
  | stay ht => exact ha
  | reset ht => exact fun d hd => by rw [applyReset_getCtx] at hd; cases hd
  | read r ht => exact ha
  | master ht => exact ha
  | hold w hf hl hr => exact ha.keep [] (List.append_nil _).symm nofun (assertsCs_of_modCtx id)
  | accept w i k e hf hl hr hm hd he =>
    rw [acceptedState_eq]
    exact ha.keep [.accept s.inp.sel w] rfl (by simp) (assertsCs_of_modCtx nofun)
  | refuse w k hf hl hr hk =>
    exact ha.keep [.accept s.inp.sel w, .fault s.inp.sel k] (List.append_assoc ..) (by simp)
      fun d hd => by rwa [raiseFault_getCtx, takeWord_getCtx_phase] at hd
  | context _ ht hl hf hm => exact hm.lineAsserted hs hl ha

theorem Reachable.lineAsserted {p : Params} {s : State} (hp : p.WellFormed) (h : Reachable p s) : LineAsserted s :=
  (h.induct hp (P := LineAsserted) (fun busy c hc => by rw [resetOf_getCtx] at hc; cases hc)
    fun _ t i hs ha hm => Move.lineAsserted (t := t) (hs.present i) ha hm).2

/-- The exchanges of a trace stay framed behind events of one phase, if that is SPI_XFER only for a context that was
the last to move a line and asserted it. -/
theorem ExchangesFramed.append {tr es : List Event} (h : ExchangesFramed tr) {c : Nat} {p : Phase}
    (hes : ∀ e ∈ es, e.context = c ∧ e.emittedIn = p) (ha : p = .spiXfer → AssertedBy c tr) :
    ExchangesFramed (tr ++ es) := by
  intro before d tx rx st after heq
  obtain ⟨mid, rfl, hmid⟩ | ⟨rest, rfl, hrest⟩ := List.append_eq_append_iff.1 heq
  · obtain ⟨rfl, hp⟩ := hes (.spi d tx rx st) (by simp [hmid])
    refine (ha hp.symm).append fun e he d m v hcs => ?_
    obtain ⟨-, hx⟩ := hes e (by simp [hmid, he])
    rw [hcs, ← hp] at hx
    cases v <;> cases hx
  · cases rest with
    | nil =>
      have first : es = .spi d tx rx st :: after := hrest.symm
      obtain ⟨rfl, hp⟩ := hes (.spi d tx rx st) (by simp [first])
      have asserted := ha hp.symm
      rwa [List.append_nil] at asserted
    | cons x rest =>
      obtain ⟨rfl, rfl⟩ := List.cons.inj hrest
      exact h before d tx rx st rest rfl

/-- Every exchange of a reachable state's trace is framed: it is emitted in SPI_XFER, with its line asserted. -/
theorem Reachable.exchangesFramed {p : Params} {s : State} (hp : p.WellFormed) (h : Reachable p s) :
    ExchangesFramed s.trace := by
  have nil : ExchangesFramed [] := fun before c tx rx st after h => by simp at h
  induction h with
  | reset busy => exact nil
  | step s s' i hr hstep ih =>
    obtain hnil | ⟨es, htr, hes⟩ := step_emits ((hr.inv hp).present i) hstep
    · exact hnil ▸ nil
    · rw [htr]
      exact ih.append hes fun hx => hr.lineAsserted hp _ (by rw [State.present_getCtx] at hx; rw [hx]; rfl)

/-- While a fault is recorded only reset touches the trace, the lines and the record (R232, R235). -/
theorem Move.frozen {s t : State} (h : Move s t) (hf : s.fault ≠ none) (hr : s.inp.turn ≠ .reset) :
    t.trace = s.trace ∧ t.cs = s.cs ∧ t.fault = s.fault := by
  cases h with
  | stay ht => exact ⟨rfl, rfl, rfl⟩
  | reset ht => exact absurd ht hr
  | read r ht => exact ⟨rfl, rfl, rfl⟩
  | master ht => exact ⟨rfl, rfl, rfl⟩
  | hold w _ hl hr => exact ⟨rfl, rfl, rfl⟩
  | accept w i k e _ hl hr hm hd he => exact absurd hr.2 hf
  | refuse w k _ hl hr hk => exact absurd hr.2 hf
  | context _ ht hl hn hm => exact absurd hn hf

/-- Settles O53: the lines follow the lock holder's phase in the invariant, and each exchange is emitted with the line
of its context asserted. -/
theorem chipSelectFraming : Obligations.ChipSelectFraming := by
  intro p s hp h
  have hs := h.inv hp
  refine ⟨?_, ?_, h.exchangesFramed hp, fun i s' hf hr hstep => ?_⟩
  · intro l hl
    simp only [← Phase.assertsCs_iff, ← h.par_eq]
    exact hs.cs_iff l (h.par_eq ▸ hl)
  · intro l hl m hm hls hms
    obtain ⟨c, hc, rfl, -⟩ := (hs.cs_iff l (h.par_eq ▸ hl)).1 hls
    obtain ⟨d, hd, rfl, -⟩ := (hs.cs_iff m (h.par_eq ▸ hm)).1 hms
    rw [Option.some.inj (hc.symm.trans hd)]
  · obtain ⟨t, hm, rfl⟩ := move_of_step hstep
    obtain ⟨-, hcs, -⟩ := hm.frozen hf hr
    exact hcs

/-! A fault ends the trace (R176, R232). -/

/-- No call of the trace has failed, and no fault was raised. -/
def Calm (tr : List Event) : Prop := ∀ e ∈ tr, e.failed = false ∧ ∀ c k, e ≠ .fault c k

/-- With no fault recorded the trace is calm; with a fault recorded it ends with the event of the faulting step (the
failed call, or the word accepted) and its fault, and was calm before that step. -/
def EndsAtFault (s : State) : Prop :=
  (s.fault = none ∧ Calm s.trace) ∨
    (s.fault ≠ none ∧ ∃ tr e k, s.trace = tr ++ [e, .fault e.context k] ∧ Calm tr ∧ ∀ c j, e ≠ .fault c j)

theorem Calm.append {tr es : List Event} (h : Calm tr) (hes : Calm es) : Calm (tr ++ es) :=
  fun e he => (List.mem_append.1 he).elim (h e) (hes e)

/-- While no fault is recorded the trace is calm. -/
theorem EndsAtFault.calm {s : State} (h : EndsAtFault s) (hf : s.fault = none) : Calm s.trace := by
  obtain ⟨-, hc⟩ | ⟨hn, -⟩ := h
  · exact hc
  · exact absurd hf hn

/-- A step that raises no fault and whose events are calm. -/
theorem EndsAtFault.running {s t : State} (h : EndsAtFault s) (hf : s.fault = none) (ht : t.fault = s.fault)
    (es : List Event) (htr : t.trace = s.trace ++ es) (hes : Calm es) : EndsAtFault t :=
  .inl ⟨ht.trans hf, htr ▸ (h.calm hf).append hes⟩

/-- A step that raises a fault behind one event. -/
theorem EndsAtFault.raised {s u : State} (h : EndsAtFault s) (hf : s.fault = none) (e : Event) (k : Cause)
    (htr : u.trace = s.trace ++ [e]) (he : ∀ c j, e ≠ .fault c j) : EndsAtFault (raiseFault u e.context k) :=
  .inr ⟨nofun, s.trace, e, k, by simp [htr], h.calm hf, he⟩

theorem calm_completeEvents (g : HandleCfg) (c : Nat) (t : Txn) (C : Ctx) : Calm (completeEvents g c t C) := by
  unfold Calm completeEvents respondEvents
  split <;> simp [Event.failed]

theorem ContextMove.endsAtFault {c : Nat} {s t : State} (hf : s.fault = none) (h : EndsAtFault s)
    (hm : ContextMove c s t) : EndsAtFault t := by
  cases hm with
  | lock hp hl => exact h.running hf rfl [.lock c] rfl (by simp [Calm, Event.failed])
  | assertCs u hp hu => exact h.running hf rfl [.cs c _ true] rfl (by simp [Calm, Event.failed])
  | idleBefore hp hb => exact h.running hf rfl [] (List.append_nil _).symm nofun
  | exchange u hp hu => exact h.running hf rfl [.spi c _ _ .ok] rfl (by simp [Calm, Event.failed])
  | idleAfter hp hb => exact h.running hf rfl [] (List.append_nil _).symm nofun
  | deassertCs hp => exact h.running hf rfl [.cs c _ false] rfl (by simp [Calm, Event.failed])
  | i2cWrite u hp hu => exact h.running hf rfl [.i2cW c _ _ .ok] rfl (by simp [Calm, Event.failed])
  | i2cRead hp => exact h.running hf rfl [.i2cR c _ _ .ok] rfl (by simp [Calm, Event.failed])
  | next u n rest hp hu hn => exact h.running hf rfl [.unlock c] rfl (by simp [Calm, Event.failed])
  | complete u hp hu hn => exact h.running hf rfl _ rfl (calm_completeEvents _ c u _)
  | fail e k hp hk he =>
    obtain ⟨hfail, rfl⟩ := he
    exact h.raised hf e k rfl fun c j hx => by rw [hx] at hfail; cases hfail

theorem Move.endsAtFault {s t : State} (h : EndsAtFault s) (hm : Move s t) : EndsAtFault t := by
  cases hm with
  | stay ht => exact h
  | reset ht => exact .inl ⟨rfl, nofun⟩
  | read r ht => exact h
  | master ht => exact h
  | hold w hf hl hr => exact h
  | accept w i k e hf hl hr hm hd he =>
    exact h.running hr.2 rfl [.accept s.inp.sel w] rfl (by simp [Calm, Event.failed])
  | refuse w k hf hl hr hk => exact h.raised hr.2 (.accept s.inp.sel w) k rfl nofun
  | context _ ht hl hf hm => exact hm.endsAtFault hf h

theorem Reachable.endsAtFault {p : Params} {s : State} (hp : p.WellFormed) (h : Reachable p s) : EndsAtFault s :=
  (h.induct hp (P := EndsAtFault) (fun _ => .inl ⟨rfl, nofun⟩)
    fun s t i _ hs hm => Move.endsAtFault (s := s.present i) (t := t) hs hm).2

/-- An event that is not among the first ones of a trace is one of its last two. -/
theorem eq_of_append_pair {tr before after : List Event} {e x y : Event} (h : tr ++ [x, y] = before ++ e :: after)
    (he : e ∉ tr) : (e = x ∧ after = [y]) ∨ (e = y ∧ after = []) := by
  obtain ⟨mid, rfl, hmid⟩ | ⟨rest, rfl, hrest⟩ := List.append_eq_append_iff.1 h
  · rcases mid with _ | ⟨a, _ | ⟨b, mid⟩⟩
    · obtain ⟨rfl, rfl⟩ := List.cons.inj hmid
      exact .inl ⟨rfl, rfl⟩
    · obtain ⟨-, htail⟩ := List.cons.inj hmid
      obtain ⟨rfl, rfl⟩ := List.cons.inj htail
      exact .inr ⟨rfl, rfl⟩
    · simp at hmid
  · cases rest with
    | nil =>
      obtain ⟨rfl, rfl⟩ := List.cons.inj hrest
      exact .inl ⟨rfl, rfl⟩
    | cons z rest =>
      obtain ⟨rfl, -⟩ := List.cons.inj hrest
      simp at he

/-- Settles O55: a reachable trace that is not calm ends with a faulting step, so a failed call or a fault stands in its
last two places. -/
theorem noRetry : Obligations.NoRetry := by
  intro p s hp h
  obtain ⟨-, hcalm⟩ | ⟨hf, tr, x, j, htr, hcalm, hx⟩ := h.endsAtFault hp
  · refine ⟨fun before e after heq hfail => ?_, fun before c k after heq => ?_⟩
    · have hn := (hcalm e (by simp [heq])).1
      cases hn.symm.trans hfail
    · exact absurd rfl ((hcalm (.fault c k) (by simp [heq])).2 c k)
  · rw [htr]
    refine ⟨fun before e after heq hfail => ?_, fun before c k after heq => ?_⟩
    · have hnot : e ∉ tr := fun he => by cases (hcalm e he).1.symm.trans hfail
      obtain ⟨rfl, rfl⟩ | ⟨rfl, -⟩ := eq_of_append_pair heq hnot
      · exact ⟨j, rfl, hf⟩
      · cases hfail
    · have hnot : .fault c k ∉ tr := fun he => (hcalm _ he).2 c k rfl
      obtain ⟨e, -⟩ | ⟨-, hafter⟩ := eq_of_append_pair heq hnot
      · exact absurd e.symm (hx c k)
      · exact hafter

end Sys2Proof.Machine

/-! The steps of the sequencer, one phase at a time (R166 to R174, R180, R181, R231). -/

namespace Sys2Proof.Machine

/-! The SPI master (R181). -/

/-- No enabled step of a context sets `spiBusy`. -/
theorem ContextMove.spiBusy {c : Nat} {s t : State} (h : ContextMove c s t) : t.spiBusy = s.spiBusy := by
  cases h <;> rfl

/-- Of all moves only the SPI master's sets `spiBusy`. -/
theorem Move.spiBusy {s t : State} (h : Move s t) (ht : s.inp.turn ≠ .spiMaster) : t.spiBusy = s.spiBusy := by
  cases h with
  | master hm => exact absurd hm ht
  | context _ _ hl hf hm => exact hm.spiBusy
  | _ => rfl

/-- Settles O39: the SPI master's turn fetches nothing, and no other move sets `spiBusy`. -/
theorem spiMasterTurn : Obligations.SpiMasterTurn := by
  refine ⟨fun s ht => ?_, fun s s' ht h => ?_⟩
  · have hf : fetch s = none := fetch_other (by simp [ht]) (by simp [ht]) (by simp [ht])
    exact step_eq_next_iff.2 ⟨_, by simp [takeTurn, hf, otherMove, ht], rfl⟩
  · obtain ⟨t, hm, rfl⟩ := move_of_step h
    exact hm.spiBusy ht

/-! A frame that is not due (R164). -/

/-- Settles O30: an instruction that is no command word acts only when its frame is due. -/
theorem frameNotDueHasNoEffect : Obligations.FrameNotDueHasNoEffect := by
  intro s i hw hl hd
  have stays (f : Nat → State → State) : whenDue i f s = .next s := whenDue_eq_next_iff.2 ⟨hl, .inr ⟨hd, rfl⟩⟩
  cases i with
  | init | read | write | readPortA | readPortB | writePortA | writePortB => exact absurd rfl (hw _)
  | spiWriteFrame => exact stays _
  | spiReadFrame => exact stays _
  | i2cWriteFrame => exact stays _
  | i2cReadFrame => rw [exec, execI2cReadFrame, stays]

/-! A transport call that fails, in the context of the turn (R169, R172, R173, R231). -/

section
variable {s : State}

theorem spiXferStep_of_error (tx : List Byte) (rw : RW) (h : s.inp.spiSt = .error) :
    spiXferStep tx rw s.inp.sel s =
      faultedState s [.spi s.inp.sel tx [s.inp.rx0, s.inp.rx1, s.inp.rx2] .error] .spiXferError := by
  simp only [spiXferStep, h]; rfl

theorem spiXferStep_of_timeout (tx : List Byte) (rw : RW) (h : s.inp.spiSt = .timeout) :
    spiXferStep tx rw s.inp.sel s =
      faultedState s [.spi s.inp.sel tx [s.inp.rx0, s.inp.rx1, s.inp.rx2] .timeout] .spiXferTimeout := by
  simp only [spiXferStep, h]; rfl

theorem i2cWriteStep_of_error (bytes : List Byte) (rw : RW) (h : s.inp.i2cTxSt = .error) :
    i2cWriteStep bytes rw s.inp.sel s =
      faultedState s [.i2cW s.inp.sel (sla (s.par.handleCfg s.inp.sel).opcode) bytes .error] .i2cTxError := by
  simp only [i2cWriteStep, h]; rfl

theorem i2cWriteStep_of_timeout (bytes : List Byte) (rw : RW) (h : s.inp.i2cTxSt = .timeout) :
    i2cWriteStep bytes rw s.inp.sel s =
      faultedState s [.i2cW s.inp.sel (sla (s.par.handleCfg s.inp.sel).opcode) bytes .timeout] .i2cTxTimeout := by
  simp only [i2cWriteStep, h]; rfl

theorem i2cReadStep_of_error (h : s.inp.i2cRxSt = .error) :
    i2cReadStep s.inp.sel s =
      faultedState s [.i2cR s.inp.sel (sla (s.par.handleCfg s.inp.sel).opcode) s.inp.i2cRxByte .error]
        .i2cRxError := by
  simp only [i2cReadStep, h]; rfl

theorem i2cReadStep_of_timeout (h : s.inp.i2cRxSt = .timeout) :
    i2cReadStep s.inp.sel s =
      faultedState s [.i2cR s.inp.sel (sla (s.par.handleCfg s.inp.sel).opcode) s.inp.i2cRxByte .timeout]
        .i2cRxTimeout := by
  simp only [i2cReadStep, h]; rfl

end

/-- Settles O31: the step of a context in a transport phase is the call of that phase, and a call that fails leaves the
faulted state. -/
theorem transportFaultIsTaken : Obligations.TransportFaultIsTaken := by
  intro s t c g ht hl hf hu
  refine ⟨fun hp hm => ?_, fun hp hm => ?_, fun hp hm hr => ?_⟩
  · rw [step_of_spiXfer ht rfl hl hf hm hp hu]
    exact ⟨fun h => by rw [spiXferStep_of_error _ _ h], fun h => by rw [spiXferStep_of_timeout _ _ h]⟩
  · rw [step_of_i2cWrite ht rfl hl hf hm hp hu]
    exact ⟨fun h => by rw [i2cWriteStep_of_error _ _ h], fun h => by rw [i2cWriteStep_of_timeout _ _ h]⟩
  · rw [step_of_i2cRead ht rfl hl hf hm hp hu hr]
    exact ⟨fun h => by rw [i2cReadStep_of_error h], fun h => by rw [i2cReadStep_of_timeout h]⟩

/-! The phases without a transport call (R166 to R168, R170, R171, R174, R180). -/

section
variable {s : State} {c : Nat}

/-! The step of each phase, with no fault recorded (R164). -/

theorem ctxStep_lockWait (hf : s.fault = none) (hp : (s.getCtx c).phase = .lockWait) :
    ctxStep c s = stepLockWait c s := by simp [ctxStep, hf, hp]

theorem ctxStep_csAssert (hf : s.fault = none) (hp : (s.getCtx c).phase = .csAssert) :
    ctxStep c s = stepCsAssert c s := by simp [ctxStep, hf, hp]

theorem ctxStep_waitIdlePre (hf : s.fault = none) (hp : (s.getCtx c).phase = .waitIdlePre) :
    ctxStep c s = stepWaitIdlePre c s := by simp [ctxStep, hf, hp]

theorem ctxStep_waitIdlePost (hf : s.fault = none) (hp : (s.getCtx c).phase = .waitIdlePost) :
    ctxStep c s = stepWaitIdlePost c s := by simp [ctxStep, hf, hp]

theorem ctxStep_csDeassert (hf : s.fault = none) (hp : (s.getCtx c).phase = .csDeassert) :
    ctxStep c s = stepCsDeassert c s := by simp [ctxStep, hf, hp]

theorem ctxStep_release (hf : s.fault = none) (hp : (s.getCtx c).phase = .release) :
    ctxStep c s = stepRelease c s := by simp [ctxStep, hf, hp]

/-- An idle context has no step, with or without a fault (R180, R232). -/
theorem ctxStep_idle (hp : (s.getCtx c).phase = .idle) : ctxStep c s = s := by simp [ctxStep, hp]

/-- The turn of a context in a phase without a transport call is its step of that phase. -/
theorem step_of_silent_phase (ht : s.inp.turn = .context) (hl : s.turnLegal) {p : Phase}
    (hp : (s.getCtx s.inp.sel).phase = p) (hn : p ≠ .spiXfer ∧ p ≠ .i2cWrite ∧ p ≠ .i2cRead) :
    step s = .next (finish (ctxStep s.inp.sel s)) :=
  step_of_ctxStep ht rfl hl (dueFrame_eq_none (hp ▸ hn))

end

/-- CS_ASSERT of a context with a current transaction (R167). -/
theorem stepCsAssert_of_cur {s : State} {c : Nat} {t : Txn} (hu : (s.getCtx c).cur = some t) :
    stepCsAssert c s =
      ((s.setCs (s.par.handleCfg c).csLine true).emit (.cs c (s.par.handleCfg c).csLine true)).modCtx c fun C =>
        { C with phase := if t.kind = .pulse then .csDeassert else .waitIdlePre } := by
  simp only [stepCsAssert, hu]

/-- Settles O37. -/
theorem idleContextHasNoStep : Obligations.IdleContextHasNoStep := by
  intro s ht hl hp
  rw [step_of_silent_phase ht hl hp (by decide), ctxStep_idle hp]

/-- Settles O32, by whether the lock is free. -/
theorem lockWaitStep : Obligations.LockWaitStep := by
  rintro s ⟨ht, hl, hf, hp⟩
  rw [step_of_silent_phase ht hl hp (by decide), ctxStep_lockWait hf hp]
  refine ⟨fun hfree => ?_, fun hheld => ?_⟩
  · rw [stepLockWait, if_pos hfree]
    rfl
  · rw [stepLockWait, if_neg hheld]

/-- Settles O33. -/
theorem csAssertStep : Obligations.CsAssertStep := by
  rintro s t ⟨ht, hl, hf, hp⟩ hu
  rw [step_of_silent_phase ht hl hp (by decide), ctxStep_csAssert hf hp, stepCsAssert_of_cur hu]
  rfl

/-- Settles O34, by the phase and by whether the SPI master is busy. -/
theorem waitIdleSteps : Obligations.WaitIdleSteps := by
  rintro s ph next (⟨rfl, rfl⟩ | ⟨rfl, rfl⟩) ⟨ht, hl, hf, hp⟩
  · rw [step_of_silent_phase ht hl hp (by decide), ctxStep_waitIdlePre hf hp, stepWaitIdlePre]
    exact ⟨fun hb => by rw [if_neg (by simp [hb])]; rfl, fun hb => by rw [if_pos hb]⟩
  · rw [step_of_silent_phase ht hl hp (by decide), ctxStep_waitIdlePost hf hp, stepWaitIdlePost]
    exact ⟨fun hb => by rw [if_neg (by simp [hb])]; rfl, fun hb => by rw [if_pos hb]⟩

/-- Settles O35. -/
theorem csDeassertStep : Obligations.CsDeassertStep := by
  rintro s ⟨ht, hl, hf, hp⟩
  rw [step_of_silent_phase ht hl hp (by decide), ctxStep_csDeassert hf hp]
  rfl

/-- RELEASE of a command's last transaction completes it (R174). -/
theorem completes_stepRelease {s : State} {c : Nat} {t : Txn} (hc : c < s.ctx.length)
    (hp : (s.getCtx c).phase = .release) (ht : (s.getCtx c).cur = some t) (hn : (s.getCtx c).pending = []) :
    Completes s (stepRelease c s) c t where
  phase := hp
  cur := ht
  pending := hn
  after := by
    rw [stepRelease_of_last hc ht hn]
    exact getCtx_set_same rfl hc

/-- What completing a command does, for each kind (R174). -/
theorem respond_of_read {C : Ctx} (c : Nat) (h : C.cmd = some .read) :
    respondEvents c C = [.respond c .read (respByte C.rdByte)] ∧ respondCtx C = { C with rspData := C.rdByte } := by
  simp [respondEvents, respondCtx, h]

theorem respond_of_write {C : Ctx} (c : Nat) (h : C.cmd = some .write) :
    respondEvents c C = [.respond c .write .none] ∧ respondCtx C = C := by
  simp [respondEvents, respondCtx, h]

theorem respond_of_init {C : Ctx} (c : Nat) (h : C.cmd = some .init) :
    respondEvents c C = [.respond c .init (respBool C.initOk)] ∧ respondCtx C = { C with rspOk := C.initOk } := by
  simp [respondEvents, respondCtx, h]

/-- RELEASE of a command's last transaction, by the events and the context state of its response (R174). -/
theorem stepRelease_of_respond {s : State} {c : Nat} {t : Txn} {es : List Event} {C : Ctx} (hc : c < s.ctx.length)
    (ht : (s.getCtx c).cur = some t) (hn : (s.getCtx c).pending = [])
    (hr : respondEvents c (checkedCtx (s.par.handleCfg c) t (s.getCtx c)) = es ∧
      respondCtx (checkedCtx (s.par.handleCfg c) t (s.getCtx c)) = C) :
    stepRelease c s =
      { s with
        lock := none
        trace := s.trace ++ .unlock c :: es
        ctx := s.ctx.set c { C with cur := none, phase := .idle } } := by
  obtain ⟨rfl, rfl⟩ := hr
  rw [stepRelease_of_last hc ht hn, List.append_assoc]
  rfl

/-- Settles O36: with more transactions pending the next one starts; the last one writes what the command's kind asks,
which the invariant says is there. -/
theorem releaseStep : Obligations.ReleaseStep := by
  rintro s t hlen ⟨ht, hl, hf, hp⟩ hu
  have hc : s.inp.sel < s.ctx.length := hlen ▸ hl
  rw [step_of_silent_phase ht hl hp (by decide), ctxStep_release hf hp]
  refine ⟨fun n rest hn => ?_, fun hn hk => ?_, fun hn hk => ?_, fun hn hk => ?_, fun hs hn => ?_⟩
  · rw [stepRelease_of_pending hu hn]
    rfl
  · rw [stepRelease_of_respond hc hu hn (respond_of_read _ hk)]
    rfl
  · rw [stepRelease_of_respond hc hu hn (respond_of_write _ hk)]
    rfl
  · rw [stepRelease_of_respond hc hu hn (respond_of_init _ hk)]
    rfl
  · have done := completes_stepRelease hc hp hu hn
    refine ⟨done.rdByte_ne_none hs, fun hk => ?_⟩
    have test := done.initOk_ne_none hs hk
    rwa [done.after, completeCtx_initOk] at test

/-! One transaction run alone (R178). -/

section
variable {c : Nat} {g : HandleCfg} {s : State} {lock : Option Nat} {C : Ctx} {tr : List Event} {t : Txn}

/-- A transaction's last event is its `Unlock`. -/
theorem transactionEvents_eq (g : HandleCfg) (c : Nat) (t : Txn) (rx : List Byte) (b : Byte) :
    transactionEvents g c t rx b = (transactionEvents g c t rx b).dropLast ++ [.unlock c] := by
  cases hm : g.mode <;> cases hk : t.kind <;> cases hr : t.rw <;> simp [transactionEvents, hm, hk, hr]

/-- RELEASE with another transaction pending (R174). -/
theorem Alone.releaseNext (h : Alone c g s lock C tr) (hp : C.phase = .release) (ht : C.cur = some t) {n : Txn}
    {rest : List Txn} (hn : C.pending = n :: rest) (a : Inputs) :
    StepsTo c g s a none (nextCtx g t n rest C) (tr ++ [.unlock c]) := by
  refine h.stepsTo_of_ctxStep hp (by decide) a (stepRelease c) (fun u hf hp => ctxStep_release hf hp) fun u h => ?_
  rw [stepRelease_of_pending (h.ctx_eq ▸ ht) (h.ctx_eq ▸ hn), h.cfg_eq]
  exact ((h.setLock none).emit _).modCtx (nextCtx g t n rest)

/-- INIT's pulse, up to its RELEASE: three steps (R167, R171, R178). -/
theorem Alone.pulseTransaction (h : Alone c g s none C tr) (hp : C.phase = .lockWait) (ht : C.cur = some t)
    (hk : t.kind = .pulse) (hm : g.mode = .spi) (a₀ a₁ a₂ : Inputs) :
    RunsTo c g s [a₀, a₁, a₂] (some c) { C with phase := .release }
      (tr ++ (transactionEvents g c t [] 0#8).dropLast) := by
  refine (h.lockWait hp (if_pos hm) a₀).andThen fun _ h => ?_
  refine (h.csAssert rfl ht (if_pos hk) a₁).andThen fun _ h => ?_
  refine (h.csDeassert rfl a₂).andThen fun _ h => ?_
  exact h.done rfl (by simp [transactionEvents, hm, hk])

/-- Any transaction that its bus has, up to its RELEASE: a pulse is on SPI only (R178, R202). -/
theorem Alone.runsToRelease (h : Alone c g s none C tr) (hp : C.phase = .lockWait) (ht : C.cur = some t)
    (hm : g.mode ≠ .undefined) (hk : g.mode ≠ .spi → t.kind = .reg) {as : List Inputs}
    (hlen : as.length = transactionSteps g.mode t) (hok : ∀ a ∈ as, a.allOk) :
    ∃ rx b rd, RunsTo c g s as.dropLast (some c) { C with phase := .release, rdByte := rd }
      (tr ++ (transactionEvents g c t rx b).dropLast) := by
  cases kind : t.kind with
  | reg =>
    obtain ⟨rx, b, hrun⟩ := h.transaction hp ht kind hm hlen hok
    exact ⟨rx, b, _, hrun⟩
  | pulse =>
    have spi : g.mode = .spi := by
      by_contra hne
      cases kind.symm.trans (hk hne)
    simp only [transactionSteps, spi, kind] at hlen
    rcases as with _ | ⟨a₀, _ | ⟨a₁, _ | ⟨a₂, _ | ⟨a₃, _ | _⟩⟩⟩⟩ <;> cases hlen
    exact ⟨[], 0#8, C.rdByte, h.pulseTransaction hp ht kind spi a₀ a₁ a₂⟩

end

/-- A transaction takes a step at least. -/
theorem transactionSteps_pos (m : Mode) (t : Txn) : 0 < transactionSteps m t := by
  unfold transactionSteps
  split <;> decide

/-- A context at work has a command (R174). -/
theorem CommandShape.exists_cmd {g : HandleCfg} {C : Ctx} (h : CommandShape g C) : ∃ k, C.cmd = some k := by
  refine Option.ne_none_iff_exists'.1 fun hn => ?_
  simp [CommandShape, hn] at h

/-- The completion of a command of kind k is one response of that kind (R38, R174). -/
theorem respondEvents_of_cmd {C : Ctx} {k : CmdKind} (c : Nat) (h : C.cmd = some k) :
    ∃ v, respondEvents c C = [.respond c k v] := by
  cases k with
  | read => exact ⟨_, (respond_of_read c h).1⟩
  | write => exact ⟨_, (respond_of_write c h).1⟩
  | init => exact ⟨_, (respond_of_init c h).1⟩

/-- Settles O56: the transaction runs alone to its RELEASE, whose step starts the next one or completes the command. -/
theorem transactionTrace : Obligations.TransactionTrace := by
  intro s c t as hs hc hf hl hb hp ht hlen hok
  have hi := hs.ctx_inv c hc
  have work : (s.getCtx c).phase ≠ .idle := by simp [hp]
  have shape := hi.command work
  have start : Alone c (s.par.handleCfg c) s none (s.getCtx c) s.trace := ⟨hc, hs.ctx_len, rfl, hf, hb, hl, rfl, rfl⟩
  obtain ⟨rx, b, rd, hrun⟩ :=
    start.runsToRelease hp ht (hi.mode_known work) (fun hm => shape.kind_eq_reg hm ht) hlen hok
  have hne : as ≠ [] := List.ne_nil_of_length_pos (hlen ▸ transactionSteps_pos _ t)
  cases hn : (s.getCtx c).pending with
  | cons n rest =>
    have hend := hrun.thenStep (a := as.getLast hne) fun u hu => hu.releaseNext rfl ht hn _
    rw [List.dropLast_append_getLast, List.append_assoc, ← transactionEvents_eq] at hend
    obtain ⟨s', hs', h⟩ := hend
    refine ⟨s', rx, b, [], hs', by rw [h.trace_eq, List.append_nil], h.lock_eq, h.no_fault, fun _ => ?_, nofun⟩
    rw [h.ctx_eq]
    exact ⟨rfl, rfl, rfl, rfl⟩
  | nil =>
    obtain ⟨k, hk⟩ := shape.exists_cmd
    have hend := hrun.thenStep (a := as.getLast hne) fun u hu => hu.releaseLast rfl ht hn _
    rw [List.dropLast_append_getLast, completeEvents] at hend
    obtain ⟨s', hs', h⟩ := hend
    obtain ⟨v, hv⟩ := respondEvents_of_cmd c
      (C := checkedCtx (s.par.handleCfg c) t { s.getCtx c with phase := .release, rdByte := rd }) hk
    refine ⟨s', rx, b, [.respond c k v], hs', ?_, h.lock_eq, h.no_fault, fun hne => absurd rfl hne, fun _ => ?_⟩
    · rw [h.trace_eq, hv, transactionEvents_eq]
      simp
    · rw [h.ctx_eq]
      exact ⟨rfl, k, v, hk, rfl⟩

end Sys2Proof.Machine

/-! ACCEPT of the host commands, and INIT's transaction list (R109, R200 to R209, R214, R230). -/

namespace Sys2Proof.Machine

/-! ACCEPT of the seven command instructions (R200). -/

section
variable {s : State} {i : Instr} {w : Word16} {k : CmdKind} {e : HandleCfg → List Txn}

/-- An instruction encoded as a word is ACCEPT of that word, where ACCEPT is enabled. -/
theorem exec_of_ready (hi : encode i = .word w) (he : Expands i.core k e) (hl : s.turnLegal)
    (hr : s.readyToAccept) : exec i s = .next (acceptCommand w k e s.inp.sel s) := by
  obtain ⟨k', e', he', hx⟩ := exec_of_encode_word hi s
  obtain ⟨rfl, rfl⟩ := he.unique he'
  rw [hx, hostCommand, onContext_of_lt hl, writeCmd_of_ready hr]

/-- With a transport behind the handle the command's transactions are loaded. -/
theorem exec_eq_acceptedState (i : Instr) (hi : encode i = .word w) (he : Expands i.core k e) (hl : s.turnLegal)
    (hr : s.readyToAccept) (hm : (s.par.handleCfg s.inp.sel).mode ≠ .undefined) :
    exec i s = .next (acceptedState s w k (e (s.par.handleCfg s.inp.sel))) := by
  rw [exec_of_ready hi he hl hr, acceptCommand_of_known w k e hm]
  rfl

end

/-- Settles O17: INIT is encoded as the zero word. -/
theorem initIsAccepted : Obligations.InitIsAccepted := fun _ hl hr hm =>
  exec_eq_acceptedState .init rfl .init hl hr hm

/-- Settles O18, for every operand by the one rule of ACCEPT. -/
theorem readIsAccepted : Obligations.ReadIsAccepted := fun p r _ hl hr hm =>
  exec_eq_acceptedState (.read p r) rfl (.read p r) hl hr hm

/-- Settles O19: no register is told apart, so a read-only one is written like any other (R271). -/
theorem writeIsAccepted : Obligations.WriteIsAccepted := fun p r v _ hl hr hm =>
  exec_eq_acceptedState (.write p r v) rfl (.write p r v) hl hr hm

/-- Settles O20: each wrapper expands as its core does (R109). -/
theorem portWrappersAreAccepted : Obligations.PortWrappersAreAccepted := fun v _ hl hr hm =>
  ⟨exec_eq_acceptedState .readPortA rfl (.read .A .gpio) hl hr hm,
    exec_eq_acceptedState .readPortB rfl (.read .B .gpio) hl hr hm,
    exec_eq_acceptedState (.writePortA v) rfl (.write .A .gpio v) hl hr hm,
    exec_eq_acceptedState (.writePortB v) rfl (.write .B .gpio v) hl hr hm⟩

/-- A port wrapper means what its core means: one word, and one expansion (R109). -/
theorem exec_core_of_encode_word {i : Instr} {w : Word16} (h : encode i = .word w) (s : State) :
    exec i s = exec i.core s := by
  obtain ⟨k, e, he, hx⟩ := exec_of_encode_word h s
  obtain ⟨k', e', he', hx'⟩ := exec_of_encode_word ((encode_core i).trans h) s
  rw [Instr.core_core] at he'
  obtain ⟨rfl, rfl⟩ := he.unique he'
  rw [hx, hx']

/-- Settles O21: a wrapper is its core, and the words and addresses are evaluated. -/
theorem portWrappersAreReadAndWriteOfGpio : Obligations.PortWrappersAreReadAndWriteOfGpio := fun _ s =>
  ⟨exec_core_of_encode_word rfl s, exec_core_of_encode_word rfl s, exec_core_of_encode_word rfl s,
    exec_core_of_encode_word rfl s, rfl, rfl, rfl, rfl, by decide, by decide, by decide, by decide⟩

/-- Settles O22: ACCEPT takes the word and raises the fault. -/
theorem undefinedModeFaults : Obligations.UndefinedModeFaults := by
  intro s i w hi hl hr hm
  obtain ⟨k, e, he, -⟩ := exec_of_encode_word hi s
  rw [exec_of_ready hi he hl hr, acceptCommand, if_pos hm, raiseFault_takeWord]

/-! INIT's transaction list (R202, R214). -/

/-- Off SPI there is no pulse: INIT is the configuration write, its read-back, and the two ports (R202). -/
theorem initSeq_of_ne_spi {g : HandleCfg} (hm : g.mode ≠ .spi) :
    initSeq g = txnWrite .A .iocon g.portA.iocon :: txnCheck :: (initPort .A g.portA ++ initPort .B g.portB) := by
  simp [initSeq, hm]

theorem initSeq_of_spi {g : HandleCfg} (hm : g.mode = .spi) :
    initSeq g =
      txnPulse :: txnWrite .A .iocon g.portA.iocon :: txnCheck :: (initPort .A g.portA ++ initPort .B g.portB) := by
  simp [initSeq, hm]

/-- A port's block writes plain registers: no read-back, no read-only register, no configuration register. -/
theorem initPort_writes {p : Port} {pc : PortCfg} {t : Txn} (ht : t ∈ initPort p pc) :
    t.kind = .reg ∧ t.rw = .write ∧ t.check = false ∧ t.reg ≠ .intf ∧ t.reg ≠ .intcap ∧ t.reg ≠ .iocon := by
  have block : ∀ u ∈ initPort p pc,
      u.kind = .reg ∧ u.rw = .write ∧ u.check = false ∧ u.reg ≠ .intf ∧ u.reg ≠ .intcap ∧ u.reg ≠ .iocon := by
    simp [initPort, txnWrite]
  exact block t ht

/-- Settles O25, from the list without the pulse. -/
theorem initSequence : Obligations.InitSequence := by
  intro g seq
  have hseq : seq = txnWrite .A .iocon g.portA.iocon :: txnCheck :: (initPort .A g.portA ++ initPort .B g.portB) :=
    initSeq_of_ne_spi nofun
  rw [hseq]
  refine ⟨initSeq_of_spi, initSeq_of_ne_spi, rfl, rfl, rfl, rfl, rfl, fun t ht => ?_⟩
  obtain h | h := List.mem_append.1 ht
  · exact initPort_writes h
  · exact initPort_writes h

end Sys2Proof.Machine

/-! INIT run alone: its transactions one after another, what they write, and its read-back test (R202, R203, R211,
R212). -/

namespace Sys2Proof.Machine

/-! The register writes on a trace. -/

theorem registerWrites_append (xs ys : List Event) :
    registerWrites (xs ++ ys) = registerWrites xs ++ registerWrites ys := by
  induction xs using registerWrites.induct with
  | case1 => rfl
  | case2 c k a d rx st tr hk ih => simp only [List.cons_append, registerWrites, if_pos hk, ih]
  | case3 c k a d rx st tr hk ih => simp only [List.cons_append, registerWrites, if_neg hk, ih]
  | case4 c a k x d st tr ih => simp only [List.cons_append, registerWrites, ih]
  | case5 e tr hspi hi2c ih => simpa [registerWrites] using ih

/-- The register write of a transaction, as address and data; none of a read or of the pulse. -/
def Txn.writes (g : HandleCfg) (t : Txn) : List (Byte × Byte) :=
  match t.kind, t.rw with
  | .reg, .write => [(resolve g.bank t.port t.reg, t.data)]
  | _, _ => []

/-- What a transaction shows on the bus is its register write: bit 0 of the control byte tells a write from a read. -/
theorem registerWrites_transactionEvents {g : HandleCfg} {t : Txn} (hm : g.mode ≠ .spi → t.kind = .reg) (c : Nat)
    (rx : List Byte) (b : Byte) : registerWrites (transactionEvents g c t rx b) = t.writes g := by
  cases kind : t.kind with
  | pulse =>
    have spi : g.mode = .spi := by
      by_contra hn
      cases kind.symm.trans (hm hn)
    simp [transactionEvents, registerWrites, Txn.writes, spi, kind]
  | reg =>
    cases op : t.rw with
    | read =>
      have bit (m : Mode) : (ctrl m g.opcode .read).getLsbD 0 = true := ctrl_getLsbD_zero ..
      cases hg : g.mode <;> simp only [transactionEvents, hg, kind, op, registerWrites, bit, if_true, Txn.writes]
    | write =>
      have bit (m : Mode) : ¬ (ctrl m g.opcode .write).getLsbD 0 = true := by simp only [ctrl_getLsbD_zero]; decide
      cases hg : g.mode <;> simp only [transactionEvents, hg, kind, op, registerWrites, if_neg (bit _), Txn.writes]

/-! INIT's test. -/

/-- INIT's success flag after the transactions ts, whose steps receive the answers `as` (R178, R203). -/
def testAfter (g : HandleCfg) : List Txn → List Inputs → Option Bool → Option Bool
  | [], _, ok => ok
  | t :: ts, as, ok =>
    testAfter g ts (as.drop (transactionSteps g.mode t))
      (if t.check then some (readAnswer g.mode (as.take (transactionSteps g.mode t)) == g.portA.iocon) else ok)

theorem testAfter_of_unchecked {g : HandleCfg} {ts : List Txn} (h : ∀ t ∈ ts, t.check = false) (as : List Inputs)
    (ok : Option Bool) : testAfter g ts as ok = ok := by
  induction ts generalizing as with
  | nil => rfl
  | cons t ts ih =>
    obtain ⟨ht, hts⟩ := List.forall_mem_cons.1 h
    simp [testAfter, ht, ih hts]

theorem initPorts_unchecked {g : HandleCfg} {t : Txn} (ht : t ∈ initPort .A g.portA ++ initPort .B g.portB) :
    t.check = false := by
  obtain h | h := List.mem_append.1 ht
  · obtain ⟨-, -, hc, -⟩ := initPort_writes h
    exact hc
  · obtain ⟨-, -, hc, -⟩ := initPort_writes h
    exact hc

/-- The transactions of INIT before its read-back leave the flag, the read-back sets it, those after it leave it. -/
theorem testAfter_initSeq {g : HandleCfg} (hm : g.mode ≠ .undefined) (as : List Inputs) :
    testAfter g (initSeq g) as none = some (initReadBack g.mode as == g.portA.iocon) := by
  have ports := testAfter_of_unchecked (g := g) fun t => initPorts_unchecked (g := g) (t := t)
  cases hg : g.mode with
  | spi =>
    rw [initSeq_of_spi hg]
    simp [testAfter, ports, txnPulse, txnWrite, txnCheck, hg, transactionSteps, readAnswer, initReadBack]
  | i2c =>
    rw [initSeq_of_ne_spi (by simp [hg])]
    simp [testAfter, ports, txnWrite, txnCheck, hg, transactionSteps, readAnswer, initReadBack]
  | undefined => exact absurd hg hm

/-! What INIT writes, and its number of steps. -/

theorem writes_initPort (g : HandleCfg) (p : Port) (pc : PortCfg) :
    (initPort p pc).flatMap (Txn.writes g) = portWrites g p pc := by
  simp [initPort, Txn.writes, txnWrite, portWrites]

/-- INIT writes port A's configuration and the two ports' blocks; the pulse and the read-back write nothing (R202,
R212). -/
theorem writes_initSeq (g : HandleCfg) :
    (initSeq g).flatMap (Txn.writes g) =
      (resolve g.bank .A .iocon, g.portA.iocon) :: (portWrites g .A g.portA ++ portWrites g .B g.portB) := by
  rw [← writes_initPort, ← writes_initPort]
  by_cases hm : g.mode = .spi
  · simp [initSeq_of_spi hm, Txn.writes, txnPulse, txnWrite, txnCheck]
  · simp [initSeq_of_ne_spi hm, Txn.writes, txnWrite, txnCheck]

/-- Each of a port's eight writes takes the steps of a register write (R178). -/
theorem steps_initPort (m : Mode) (p : Port) (pc : PortCfg) :
    ((initPort p pc).map (transactionSteps m)).sum = 8 * transactionSteps m (txnWrite p .iodir 0#8) := by
  cases m <;> rfl

/-- INIT's steps are those of its transactions (R178, R214). -/
theorem steps_initSeq {g : HandleCfg} (hm : g.mode ≠ .undefined) :
    ((initSeq g).map (transactionSteps g.mode)).sum = initSteps g.mode := by
  cases hg : g.mode with
  | spi =>
    simp only [initSeq_of_spi hg, List.map_cons, List.map_append, List.sum_cons, List.sum_append, steps_initPort]
    rfl
  | i2c =>
    have hne : g.mode ≠ .spi := by simp [hg]
    simp only [initSeq_of_ne_spi hne, List.map_cons, List.map_append, List.sum_cons, List.sum_append, steps_initPort]
    rfl
  | undefined => exact absurd hg hm

/-- The bus of g has the transaction t, and only a register read is checked (R202, R203). -/
structure Txn.Runs (g : HandleCfg) (t : Txn) : Prop where
  bus   : g.mode ≠ .spi → t.kind = .reg
  check : t.check = true → t.kind = .reg ∧ t.rw = .read

theorem runs_of_mem_initSeq {g : HandleCfg} {t : Txn} (ht : t ∈ initSeq g) : t.Runs g where
  bus hm := kind_eq_reg_of_mem_initSeq hm ht
  check hc := by
    have only_check : ∀ u ∈ initSeq g, u.check = true → u = txnCheck := by
      by_cases hm : g.mode = .spi
      · simp [initSeq, hm, initPort, txnWrite, txnPulse]
      · simp [initSeq, hm, initPort, txnWrite]
    rw [only_check t ht hc]
    exact ⟨rfl, rfl⟩

/-! The transactions of INIT run to its end (R178). -/

section
variable {c : Nat} {g : HandleCfg} {s : State} {C : Ctx} {tr : List Event} {t : Txn} {as : List Inputs}

/-- A transaction up to its RELEASE, a checked one with the byte that the masters answered (R178, R203). -/
theorem Alone.runsToRelease_checked (h : Alone c g s none C tr) (hp : C.phase = .lockWait) (ht : C.cur = some t)
    (hm : g.mode ≠ .undefined) (hr : t.Runs g) (hlen : as.length = transactionSteps g.mode t)
    (hok : ∀ a ∈ as, a.allOk) :
    ∃ rx b rd, RunsTo c g s as.dropLast (some c) { C with phase := .release, rdByte := rd }
        (tr ++ (transactionEvents g c t rx b).dropLast) ∧
      (t.check = true → rd = some (readAnswer g.mode as)) := by
  by_cases hc : t.check = true
  · obtain ⟨kind, read⟩ := hr.check hc
    obtain ⟨rx, b, hrun⟩ := h.transaction hp ht kind hm hlen hok
    exact ⟨rx, b, _, hrun, fun _ => if_pos read⟩
  · obtain ⟨rx, b, rd, hrun⟩ := h.runsToRelease hp ht hm hr.bus hlen hok
    exact ⟨rx, b, rd, hrun, fun h => absurd h hc⟩

/-- INIT's flag as the RELEASE of a transaction leaves it (R174, R203). -/
theorem checkedCtx_initOk {rd : Option Byte} (hrd : t.check = true → rd = some (readAnswer g.mode as)) :
    (checkedCtx g t { C with phase := .release, rdByte := rd }).initOk =
      if t.check then some (readAnswer g.mode as == g.portA.iocon) else C.initOk := by
  by_cases hc : t.check = true
  · simp [checkedCtx, hc, readBackMatches, hrd hc]
  · simp [checkedCtx, hc]

/-- A transaction of a command that has another, to the start of that one (R174, R178). -/
theorem Alone.runsToNext (h : Alone c g s none C tr) (hp : C.phase = .lockWait) (ht : C.cur = some t) {n : Txn}
    {rest : List Txn} (hn : C.pending = n :: rest) (hm : g.mode ≠ .undefined) (hr : t.Runs g)
    (hlen : as.length = transactionSteps g.mode t) (hok : ∀ a ∈ as, a.allOk) :
    ∃ rx b rd, RunsTo c g s as none (nextCtx g t n rest { C with phase := .release, rdByte := rd })
        (tr ++ transactionEvents g c t rx b) ∧
      (t.check = true → rd = some (readAnswer g.mode as)) := by
  obtain ⟨rx, b, rd, hrun, hrd⟩ := h.runsToRelease_checked hp ht hm hr hlen hok
  have hne : as ≠ [] := List.ne_nil_of_length_pos (hlen ▸ transactionSteps_pos _ t)
  have hend := hrun.thenStep (a := as.getLast hne) fun u hu => hu.releaseNext rfl ht hn _
  rw [List.dropLast_append_getLast, List.append_assoc, ← transactionEvents_eq] at hend
  exact ⟨rx, b, rd, hend, hrd⟩

/-- The last transaction of a command, to the command's end (R174, R178). -/
theorem Alone.runsToComplete (h : Alone c g s none C tr) (hp : C.phase = .lockWait) (ht : C.cur = some t)
    (hn : C.pending = []) (hm : g.mode ≠ .undefined) (hr : t.Runs g)
    (hlen : as.length = transactionSteps g.mode t) (hok : ∀ a ∈ as, a.allOk) :
    ∃ rx b rd, RunsTo c g s as none (completeCtx g t { C with phase := .release, rdByte := rd })
        (tr ++ transactionEvents g c t rx b ++
          respondEvents c (checkedCtx g t { C with phase := .release, rdByte := rd })) ∧
      (t.check = true → rd = some (readAnswer g.mode as)) := by
  obtain ⟨rx, b, rd, hrun, hrd⟩ := h.runsToRelease_checked hp ht hm hr hlen hok
  have hne : as ≠ [] := List.ne_nil_of_length_pos (hlen ▸ transactionSteps_pos _ t)
  have hend := hrun.thenStep (a := as.getLast hne) fun u hu => hu.releaseLast rfl ht hn _
  rw [List.dropLast_append_getLast] at hend
  refine ⟨rx, b, rd, ?_, hrd⟩
  rw [transactionEvents_eq]
  simpa [completeEvents] using hend

/-- The transactions t and ts that are left of an INIT, to its end: by induction on ts, the writes of each and the flag
passed on from each to the next (R174, R178, R203). -/
theorem Alone.runsInit {ts : List Txn} (h : Alone c g s none C tr) (hp : C.phase = .lockWait)
    (hcmd : C.cmd = some .init) (ht : C.cur = some t) (hn : C.pending = ts) (hm : g.mode ≠ .undefined)
    (hr : ∀ u ∈ t :: ts, u.Runs g) (hlen : as.length = ((t :: ts).map (transactionSteps g.mode)).sum)
    (hok : ∀ a ∈ as, a.allOk) :
    ∃ es C', registerWrites es = (t :: ts).flatMap (Txn.writes g) ∧
      RunsTo c g s as none C' (tr ++ es ++ [.respond c .init (respBool (testAfter g (t :: ts) as C.initOk))]) ∧
      C'.phase = .idle ∧ C'.rspOk = testAfter g (t :: ts) as C.initOk ∧ C'.rspData = C.rspData := by
  induction ts generalizing s C tr t as with
  | nil =>
    have hrt := hr t (by simp)
    have hlen : as.length = transactionSteps g.mode t := by simpa using hlen
    obtain ⟨rx, b, rd, hrun, hrd⟩ := h.runsToComplete hp ht hn hm hrt hlen hok
    have test : (checkedCtx g t { C with phase := .release, rdByte := rd }).initOk = testAfter g [t] as C.initOk := by
      rw [checkedCtx_initOk hrd, testAfter, testAfter, ← hlen, List.take_length]
    obtain ⟨hevents, hctx⟩ := respond_of_init c (C := checkedCtx g t { C with phase := .release, rdByte := rd }) hcmd
    rw [completeCtx, hevents, hctx, test] at hrun
    exact ⟨_, _, by simp [registerWrites_transactionEvents hrt.bus], hrun, rfl, rfl, rfl⟩
  | cons n rest ih =>
    obtain ⟨hrt, hrts⟩ := List.forall_mem_cons.1 hr
    have parts := List.take_append_drop (transactionSteps g.mode t) as
    rw [List.map_cons, List.sum_cons] at hlen
    obtain ⟨rx, b, rd, ⟨u, hu, hnext⟩, hrd⟩ := h.runsToNext (as := as.take (transactionSteps g.mode t)) hp ht hn hm hrt
      (by simp [hlen]) fun a ha => hok a (List.mem_of_mem_take ha)
    obtain ⟨es, C', hw, ⟨v, hv, hend⟩, hidle, hres, hdata⟩ := ih (as := as.drop (transactionSteps g.mode t)) hnext rfl
      hcmd rfl rfl hrts (by simp [hlen]) fun a ha => hok a (List.mem_of_mem_drop ha)
    have test : testAfter g (n :: rest) (as.drop (transactionSteps g.mode t))
        (nextCtx g t n rest { C with phase := .release, rdByte := rd }).initOk =
          testAfter g (t :: n :: rest) as C.initOk :=
      congrArg (testAfter g (n :: rest) _) (checkedCtx_initOk hrd)
    rw [test] at hres hend
    refine ⟨transactionEvents g c t rx b ++ es, C', ?_, ⟨v, ?_, ?_⟩, hidle, hres, hdata⟩
    · rw [registerWrites_append, registerWrites_transactionEvents hrt.bus, hw]
      rfl
    · rw [← parts, runContext_append hu, hv]
    · simpa using hend

/-- The INIT that was accepted, to its end: its writes and its read-back test (R202, R203, R211, R212). -/
theorem Alone.runsInitSeq (h : Alone c g s none (acceptCtx .init (initSeq g) C) tr) (hm : g.mode ≠ .undefined)
    (hlen : as.length = initSteps g.mode) (hok : ∀ a ∈ as, a.allOk) :
    ∃ es C',
      registerWrites es =
        (resolve g.bank .A .iocon, g.portA.iocon) :: (portWrites g .A g.portA ++ portWrites g .B g.portB) ∧
      RunsTo c g s as none C' (tr ++ es ++ [.respond c .init (.bool (initReadBack g.mode as == g.portA.iocon))]) ∧
      C'.phase = .idle ∧ C'.rspOk = some (initReadBack g.mode as == g.portA.iocon) ∧ C'.rspData = C.rspData := by
  have test : testAfter g (initSeq g) as (acceptCtx .init (initSeq g) C).initOk =
    some (initReadBack g.mode as == g.portA.iocon) := testAfter_initSeq hm as
  have writes := writes_initSeq g
  have steps := steps_initSeq hm
  have runs : ∀ u ∈ initSeq g, u.Runs g := fun _ => runs_of_mem_initSeq
  obtain ⟨t, ts, hseq⟩ := List.exists_cons_of_ne_nil (initSeq_ne_nil g)
  rw [hseq] at h test writes steps runs
  obtain ⟨es, C', hw, hrun, hidle, hres, hdata⟩ := h.runsInit (ts := ts) rfl rfl rfl rfl hm runs
    (hlen.trans steps.symm) hok
  rw [test] at hres hrun
  exact ⟨es, C', hw.trans writes, hrun, hidle, hres, hdata⟩

end

/-- Settles O58: ACCEPT of the zero word, then INIT's transactions run to their end. -/
theorem initRuns : Obligations.InitRuns := by
  intro s c as g hs hc hf hl hb hp hh hm hlen hok
  obtain ⟨s₁, hacc, h⟩ := accept_alone (w := 0x0000#16) hs hc hf hl hb hp hh hm rfl .init
  obtain ⟨es, C', hw, ⟨s', hrun, h'⟩, hidle, hres, hdata⟩ := h.runsInitSeq hm hlen hok
  have trace := h'.trace_eq
  rw [List.append_assoc, List.append_assoc] at trace
  refine ⟨s₁, s', _, hacc, hrun, trace, ?_, ?_, h'.no_fault, h'.lock_eq, ?_, ?_, ?_⟩
  · simpa [registerWrites_append, registerWrites] using hw
  · rw [h'.ctx_eq, hidle]
  · rw [h'.ctx_eq, hres]
  · rw [h'.ctx_eq, hdata]
  · rw [h'.trace_eq, List.getLast?_append_of_ne_nil _ (by simp)]
    rfl

end Sys2Proof.Machine

/-! The round trip on the loopback fixture: one context run alone against the fixture's own answers (R84, R213). -/

namespace Sys2Proof.Machine

/-! The device of a handle (entry 23). -/

/-- The device that the frames of handle configuration g go to: the first one on its bus that has its line or its
opcode. -/
def deviceOf (p : Params) (g : HandleCfg) : Option Nat :=
  match g.mode with
  | .spi => p.cfg.findIdx? fun h => h.mode == .spi && h.csLine == g.csLine
  | _ => p.cfg.findIdx? fun h => h.mode == .i2c && sla h.opcode == sla g.opcode

theorem deviceOf_lt {p : Params} {g : HandleCfg} {d : Nat} (h : deviceOf p g = some d) : d < p.nDev := by
  unfold deviceOf at h
  split at h
  · exact (List.findIdx?_eq_some_iff_getElem.1 h).1
  · exact (List.findIdx?_eq_some_iff_getElem.1 h).1

/-- The handle of a context has a device on its own bus. -/
theorem exists_deviceOf {p : Params} (hp : p.WellFormed) {c : Nat} (hc : c < p.nCtx)
    (hm : (p.handleCfg c).mode ≠ .undefined) : ∃ d, deviceOf p (p.handleCfg c) = some d := by
  cases hg : (p.handleCfg c).mode with
  | spi => simpa only [deviceOf, hg] using exists_device hp hc (by simp [hg])
  | i2c => simpa only [deviceOf, hg] using exists_device hp hc (by simp [hg])
  | undefined => exact absurd hg hm

theorem findIdx?_congr {α : Type} {l : List α} {p q : α → Bool} (h : ∀ x ∈ l, p x = q x) :
    l.findIdx? p = l.findIdx? q := by
  induction l with
  | nil => rfl
  | cons x l ih =>
    obtain ⟨hx, hl⟩ := List.forall_mem_cons.1 h
    rw [List.findIdx?_cons, List.findIdx?_cons, hx, ih hl]

/-- While a context's line is asserted no other is, so its exchange goes to the device of its handle (R177). -/
theorem Inv.spiDevice_eq {s : State} {c : Nat} (hs : Inv s) (hm : (s.par.handleCfg c).mode = .spi)
    (hl : s.lock = some c) (hp : (s.getCtx c).phase.assertsCs = true) :
    spiDevice s = deviceOf s.par (s.par.handleCfg c) := by
  simp only [deviceOf, hm, spiDevice]
  refine findIdx?_congr fun h hh => ?_
  obtain ⟨-, -, -, lines⟩ := hs.params
  have line : s.getCs h.csLine = (h.csLine == (s.par.handleCfg c).csLine) := by
    rw [Bool.eq_iff_iff, hs.line_iff hl (lines h hh), beq_iff_eq]
    exact ⟨fun ⟨e, _⟩ => e.symm, fun e => ⟨e.symm, hp⟩⟩
  rw [line]

theorem i2cDevice_eq {s : State} {c : Nat} (hm : (s.par.handleCfg c).mode = .i2c) :
    i2cDevice s (sla (s.par.handleCfg c).opcode) = deviceOf s.par (s.par.handleCfg c) := by
  simp only [deviceOf, hm, i2cDevice]

/-! The fixture's answers (R84). -/

section
variable {b : Bench} {c d : Nat}

/-- With no frame due every answer is OK, and no device changes. -/
theorem fixture_of_silent (h : dueFrame b.st c = none) :
    loopbackTurn b c = contextTurn c {} ∧ devicesAfter b c = b.dev := by
  simp [loopbackTurn, devicesAfter, h]

theorem loopbackTurn_of_spi {k a v : Byte} (h : dueFrame b.st c = some (.spi [k, a, v]))
    (hd : spiDevice b.st = some d) :
    loopbackTurn b c = contextTurn c
      { rx2 := if k.getLsbD 0 = true then memRead (b.dev.getMem d) a.toNat else 0x00#8 } := by
  simp only [loopbackTurn, h, hd]

theorem loopbackTurn_of_i2c {bytes : List Byte} (h : dueFrame b.st c = some (.i2c bytes))
    (hd : i2cDevice b.st (sla (b.st.par.handleCfg c).opcode) = some d) :
    loopbackTurn b c = contextTurn c { i2cRxByte := memRead (b.dev.getMem d) (b.dev.getPtr d).toNat } := by
  simp only [loopbackTurn, h, hd]

/-- A read on SPI leaves the devices as they are. -/
theorem devicesAfter_of_spiRead {k a v : Byte} (h : dueFrame b.st c = some (.spi [k, a, v]))
    (hk : k.getLsbD 0 = true) : devicesAfter b c = b.dev := by
  simp only [devicesAfter, h, hk, if_true]
  split <;> rfl

/-- The read phase on I2C leaves the devices as they are. -/
theorem devicesAfter_of_i2cRead (hp : (b.st.getCtx c).phase = .i2cRead) : devicesAfter b c = b.dev := by
  obtain ⟨d, a, v, k, -, ⟨hdue, -⟩ | ⟨hdue, -⟩⟩ | ⟨d, a, hw, -⟩ | h := devicesAfter_cases b c
  · obtain ⟨-, t, -, ⟨hx, -⟩ | ⟨-, e⟩ | ⟨-, e⟩⟩ := dueFrame_cases hdue
    · cases hp.symm.trans hx
    · cases e
    · cases e
  · obtain ⟨hw, -⟩ := i2cWrite_of_due hdue
    cases hp.symm.trans hw
  · cases hp.symm.trans hw
  · exact h

end

/-! Context c alone on the fixture. -/

/-- On the bench b, with the parameters p and the devices x, context c is alone with `lock` in the context state C. -/
structure OnBench (p : Params) (c : Nat) (x : Devices) (lock : Option Nat) (C : Ctx) (b : Bench) : Prop where
  inv    : Inv b.st
  par_eq : b.st.par = p
  dev_eq : b.dev = x
  alone  : ∃ tr, Alone c (p.handleCfg c) b.st lock C tr

section
variable {p : Params} {c d : Nat} {x x' : Devices} {lock lock' : Option Nat} {C C' : Ctx} {b : Bench} {t : Txn}

/-- A step with the answers that the fixture presents. -/
theorem OnBench.step (h : OnBench p c x lock C b) {a : Inputs} (ha : loopbackTurn b c = contextTurn c a)
    (hx : devicesAfter b c = x')
    (hs : ∀ tr, Alone c (p.handleCfg c) b.st lock C tr →
      ∃ tr', StepsTo c (p.handleCfg c) b.st a lock' C' tr') : OnBench p c x' lock' C' (benchContext c b) := by
  obtain ⟨tr, halone⟩ := h.alone
  obtain ⟨tr', u, hstep, hu⟩ := hs tr halone
  have hb : benchContext c b = { dev := x', st := u } := by simp only [benchContext, ha, hstep, hx]
  rw [hb]
  exact ⟨invariantKept _ _ (h.inv.present _) hstep, (step_par hstep).trans h.par_eq, rfl, tr', hu⟩

theorem OnBench.getCtx_eq (h : OnBench p c x lock C b) : b.st.getCtx c = C := by
  obtain ⟨tr, halone⟩ := h.alone
  exact halone.ctx_eq

theorem OnBench.no_fault (h : OnBench p c x lock C b) : b.st.fault = none := by
  obtain ⟨tr, halone⟩ := h.alone
  exact halone.no_fault

/-- A step in a phase without a transport call. -/
theorem OnBench.silentStep (h : OnBench p c x lock C b)
    (hn : C.phase ≠ .spiXfer ∧ C.phase ≠ .i2cWrite ∧ C.phase ≠ .i2cRead)
    (hs : ∀ tr, Alone c (p.handleCfg c) b.st lock C tr →
      ∃ tr', StepsTo c (p.handleCfg c) b.st {} lock' C' tr') : OnBench p c x lock' C' (benchContext c b) := by
  obtain ⟨ha, hx⟩ := fixture_of_silent (dueFrame_eq_none (s := b.st) (c := c) (by rwa [h.getCtx_eq]))
  exact h.step ha (hx.trans h.dev_eq) hs

/-- The devices after device d has received the exchange or the payload of transaction t at address a: a write's byte is
stored, and a read's header sets the register pointer on I2C. -/
def Devices.receive (x : Devices) (m : Mode) (d : Nat) (a : Byte) (t : Txn) : Devices :=
  match t.rw, m with
  | .write, _ => x.store d a t.data
  | .read, .spi => x
  | .read, _ => { x with ptr := x.ptr.set d a }

/-- A read's header sets the pointer of its device to its address, and stores nothing (R105). -/
theorem Devices.getPtr_receive_header (hr : t.rw = .read) (hd : d < x.ptr.length) {a : Byte} :
    (x.receive .i2c d a t).getPtr d = a := by
  simp [Devices.receive, hr, Devices.getPtr, hd]

theorem Devices.getMem_receive_read (hr : t.rw = .read) {m : Mode} {a : Byte} (e : Nat) :
    (x.receive m d a t).getMem e = x.getMem e := by
  cases m <;> simp only [Devices.receive, hr, Devices.getMem]

/-- The exchange: a write's byte is stored in the device, a read's comes from it (R169). -/
theorem OnBench.exchange (h : OnBench p c x (some c) C b) (hp : C.phase = .spiXfer)
    (hm : (p.handleCfg c).mode = .spi) (ht : C.cur = some t) (hd : deviceOf p (p.handleCfg c) = some d) :
    OnBench p c (x.receive .spi d (txnAddr (p.handleCfg c) t) t) (some c)
      { C with
        rdByte := if t.rw = .read then some (memRead (x.getMem d) (txnAddr (p.handleCfg c) t).toNat) else C.rdByte
        phase := .waitIdlePost }
      (benchContext c b) := by
  obtain ⟨hinv, rfl, rfl, tr, halone⟩ := id h
  have due := dueFrame_spiXfer (s := b.st) (c := c) (t := t) h.no_fault (by rwa [h.getCtx_eq]) (by rwa [h.getCtx_eq])
  have dev : spiDevice b.st = some d :=
    (hinv.spiDevice_eq hm halone.lock_eq (by rw [h.getCtx_eq, hp]; rfl)).trans hd
  cases hr : t.rw with
  | write =>
    rw [spiTx_of_write hm hr] at due
    have hk : (ctrl .spi (b.st.par.handleCfg c).opcode .write).getLsbD 0 = false := ctrl_getLsbD_zero ..
    have hb := h.step (loopbackTurn_of_spi due dev) (devicesAfter_of_stores ⟨_, hk, .inl ⟨due, dev⟩⟩) fun tr h =>
      ⟨_, h.spiXfer hp hm ht ⟨rfl, rfl, rfl⟩⟩
    simpa [hr, Devices.receive, txnAddr] using hb
  | read =>
    rw [spiTx_of_read hm hr] at due
    have hk : (ctrl .spi (b.st.par.handleCfg c).opcode .read).getLsbD 0 = true := ctrl_getLsbD_zero ..
    have hb := h.step (loopbackTurn_of_spi due dev) (devicesAfter_of_spiRead due hk) fun tr h =>
      ⟨_, h.spiXfer hp hm ht ⟨rfl, rfl, rfl⟩⟩
    simpa only [hr, hk, if_true, Devices.receive, txnAddr] using hb

/-- The I2C write: a write's byte is stored in the device, a read's header sets its register pointer (R172). -/
theorem OnBench.i2cWrite (h : OnBench p c x (some c) C b) (hp : C.phase = .i2cWrite)
    (hm : (p.handleCfg c).mode = .i2c) (ht : C.cur = some t) (hd : deviceOf p (p.handleCfg c) = some d) :
    OnBench p c (x.receive .i2c d (txnAddr (p.handleCfg c) t) t) (some c)
      { C with phase := if t.rw = .read then .i2cRead else .release } (benchContext c b) := by
  obtain ⟨hinv, rfl, rfl, tr, halone⟩ := id h
  have phase : (b.st.getCtx c).phase = .i2cWrite := by rwa [h.getCtx_eq]
  have due := dueFrame_i2cWrite h.no_fault phase (t := t) (by rwa [h.getCtx_eq])
  have dev := (i2cDevice_eq (s := b.st) hm).trans hd
  refine h.step (loopbackTurn_of_i2c due dev) ?_ fun tr h => ⟨_, h.i2cWrite hp hm ht rfl ⟨rfl, rfl, rfl⟩⟩
  cases hr : t.rw with
  | write =>
    rw [txnFrame_of_write hr] at due
    have hk : (ctrl (b.st.par.handleCfg c).mode (b.st.par.handleCfg c).opcode .write).getLsbD 0 = false :=
      ctrl_getLsbD_zero ..
    simpa only [Devices.receive, hr, txnAddr] using devicesAfter_of_stores ⟨_, hk, .inr ⟨due, dev⟩⟩
  | read =>
    rw [txnFrame_of_read hr] at due
    simpa only [Devices.receive, hr, txnAddr] using devicesAfter_of_points ⟨phase, ⟨_, due⟩, dev⟩

/-- The I2C read: the byte at the register pointer (R173). -/
theorem OnBench.i2cRead (h : OnBench p c x (some c) C b) (hp : C.phase = .i2cRead)
    (hm : (p.handleCfg c).mode = .i2c) (ht : C.cur = some t) (hr : t.rw = .read)
    (hd : deviceOf p (p.handleCfg c) = some d) :
    OnBench p c x (some c)
      { C with rdByte := some (memRead (x.getMem d) (x.getPtr d).toNat), phase := .release } (benchContext c b) := by
  obtain ⟨hinv, rfl, rfl, tr, halone⟩ := id h
  have phase : (b.st.getCtx c).phase = .i2cRead := by rwa [h.getCtx_eq]
  have due := dueFrame_i2cRead h.no_fault phase (t := t) (by rwa [h.getCtx_eq]) hr
  have dev := (i2cDevice_eq (s := b.st) hm).trans hd
  exact h.step (loopbackTurn_of_i2c due dev) (devicesAfter_of_i2cRead phase) fun tr h =>
    ⟨_, h.i2cRead hp hm ht hr ⟨rfl, rfl, rfl⟩⟩

/-- A register transaction of a command, its only one, run to the command's end (R178). -/
theorem OnBench.transaction (h : OnBench p c x none C b) (hp : C.phase = .lockWait) (ht : C.cur = some t)
    (hn : C.pending = []) (hk : t.kind = .reg) (hm : (p.handleCfg c).mode ≠ .undefined)
    (hd : deviceOf p (p.handleCfg c) = some d) (hptr : d < x.ptr.length) :
    OnBench p c (x.receive (p.handleCfg c).mode d (txnAddr (p.handleCfg c) t) t) none
      (completeCtx (p.handleCfg c) t
        (releaseCtx t (memRead (x.getMem d) (txnAddr (p.handleCfg c) t).toNat) C))
      (benchRun c (transactionSteps (p.handleCfg c).mode t) b) := by
  cases hg : (p.handleCfg c).mode with
  | spi =>
    have h := h.silentStep (by simp [hp]) fun _ h => ⟨_, h.lockWait hp (if_pos hg) {}⟩
    have h := h.silentStep (by simp) fun _ h => ⟨_, h.csAssert rfl ht (if_neg (by simp [hk])) {}⟩
    have h := h.silentStep (by simp) fun _ h => ⟨_, h.waitIdlePre rfl {}⟩
    have h := h.exchange rfl hg ht hd
    have h := h.silentStep (by simp) fun _ h => ⟨_, h.waitIdlePost rfl {}⟩
    have h := h.silentStep (by simp) fun _ h => ⟨_, h.csDeassert rfl {}⟩
    have h := h.silentStep (by simp) fun _ h => ⟨_, h.releaseLast rfl ht hn {}⟩
    simp only [transactionSteps, hk]
    exact h
  | i2c =>
    have h := h.silentStep (by simp [hp]) fun _ h => ⟨_, h.lockWait hp (if_neg (by simp [hg])) {}⟩
    have h := h.i2cWrite rfl hg ht hd
    cases hr : t.rw with
    | write =>
      rw [hr] at h
      have h := h.silentStep (by simp) fun _ h => ⟨_, h.releaseLast rfl ht hn {}⟩
      simp only [transactionSteps, hr, releaseCtx]
      exact h
    | read =>
      rw [hr] at h
      have h := h.i2cRead rfl hg ht hr hd
      rw [Devices.getPtr_receive_header hr hptr, Devices.getMem_receive_read hr] at h
      have h := h.silentStep (by simp) fun _ h => ⟨_, h.releaseLast rfl ht hn {}⟩
      simp only [transactionSteps, hr, releaseCtx]
      exact h
  | undefined => exact absurd hg hm

/-- An idle context accepts the word of a command (R200). -/
theorem OnBench.command (h : OnBench p c x none C b) (hp : C.phase = .idle) (hh : C.held = none)
    (hm : (p.handleCfg c).mode ≠ .undefined) {w : Word16} {i : Instr} {k : CmdKind} {e : HandleCfg → List Txn}
    (hd : decode (.word w) = .instr i) (he : Expands i.core k e) :
    OnBench p c x none (acceptCtx k (e (p.handleCfg c)) C) (benchCommand c w b) := by
  obtain ⟨hinv, rfl, rfl, tr, halone⟩ := h
  obtain ⟨u, hstep, hu⟩ := accept_alone hinv halone.legal halone.no_fault halone.lock_eq halone.idle
    (by rwa [halone.ctx_eq]) (by rwa [halone.ctx_eq]) hm hd he
  have hb : benchCommand c w b = { b with st := u } := by simp only [benchCommand, hstep]
  rw [halone.ctx_eq] at hu
  rw [hb]
  exact ⟨invariantKept _ _ (hinv.present _) hstep, (step_par hstep).trans (State.present_par ..), rfl, _, hu⟩

/-- A command of one register transaction, from its ACCEPT to its end (R178, R200). -/
theorem OnBench.runCommand (h : OnBench p c x none C b) (hp : C.phase = .idle) (hh : C.held = none)
    (hm : (p.handleCfg c).mode ≠ .undefined) {i : Instr} {k : CmdKind} (hi : decode (.word i.word) = .instr i)
    (he : Expands i.core k fun _ => [t]) (hk : t.kind = .reg) (hd : deviceOf p (p.handleCfg c) = some d)
    (hptr : d < x.ptr.length) :
    OnBench p c (x.receive (p.handleCfg c).mode d (txnAddr (p.handleCfg c) t) t) none
      (completeCtx (p.handleCfg c) t
        (releaseCtx t (memRead (x.getMem d) (txnAddr (p.handleCfg c) t).toNat) (acceptCtx k [t] C)))
      (benchTransaction c i t b) := by
  rw [benchTransaction, h.par_eq]
  exact (h.command hp hh hm hi he).transaction rfl rfl rfl hk hm hd hptr

end

/-- Settles O59: the WRITE stores v in the device of the handle, at the address that the READ then asks for. -/
theorem loopbackRoundTrip : Obligations.LoopbackRoundTrip := by
  intro b c p r v hs hmem hptr hwf hc hf hl hb hp hh hm b'
  obtain ⟨d, hd⟩ := exists_deviceOf hs.params hc hm
  have hlt : d < b.st.par.nDev := deviceOf_lt hd
  have start : OnBench b.st.par c b.dev none (b.st.getCtx c) b :=
    ⟨hs, rfl, rfl, _, hc, hs.ctx_len, rfl, hf, hb, hl, rfl, rfl⟩
  have wrote := start.runCommand hp hh hm (decode_word_write p r v) (.write p r v) rfl hd (hptr ▸ hlt)
  have read := wrote.runCommand rfl rfl hm (decode_word_read p r) (.read p r) rfl hd (hptr ▸ hlt)
  have stored := Devices.memRead_store hwf (txnAddr (b.st.par.handleCfg c) (txnWrite p r v)) v (hmem ▸ hlt)
  rw [read.getCtx_eq]
  exact ⟨congrArg some stored, read.no_fault, rfl⟩

end Sys2Proof.Machine

/-! What a turn leaves alone: the contexts that it does not name, and the whole block while a fault is recorded (R232,
R234, R235, R244). -/

namespace Sys2Proof.Machine

/-! The other contexts (R244). -/

/-- An enabled step of context c leaves every other context alone. -/
theorem ContextMove.getCtx_ne {c d : Nat} {s t : State} (h : ContextMove c s t) (hd : d ≠ c) :
    t.getCtx d = s.getCtx d := by
  cases h with
  | fail e k hp hk he => rfl
  | _ => exact State.modCtx_getCtx_ne _ _ hd

/-- Of all moves only reset touches a context that the turn does not name. -/
theorem Move.getCtx_ne {s t : State} {d : Nat} (h : Move s t) (hr : s.inp.turn ≠ .reset) (hd : d ≠ s.inp.sel) :
    t.getCtx d = s.getCtx d := by
  cases h with
  | stay ht => rfl
  | reset ht => exact absurd ht hr
  | read r ht => rfl
  | master ht => rfl
  | hold w hf hl hn => exact State.modCtx_getCtx_ne _ _ hd
  | accept w i k e hf hl hn hm hx he => exact State.modCtx_getCtx_ne (s.emit _) (acceptCtx k _) hd
  | refuse w k hf hl hn hk => rw [raiseFault_getCtx, takeWord, State.modCtx_getCtx_ne _ _ hd, State.emit_getCtx]
  | context _ ht hl hf hm => exact hm.getCtx_ne hd

/-- Settles O38: only reset touches a context other than the turn's, and presenting the next inputs touches none. -/
theorem otherContextsUntouched : Obligations.OtherContextsUntouched := by
  intro s s' d hr h hd
  obtain ⟨t, hm, rfl⟩ := move_of_step h
  exact hm.getCtx_ne hr hd

/-! The block while a fault is recorded (R232, R235). -/

/-- Holding the word that is held already changes nothing (R39). -/
theorem State.modCtx_held_same {s : State} {c : Nat} {w : Word16} (h : (s.getCtx c).held = some w) :
    (s.modCtx c fun C => { C with held := some w }) = s := by
  have hset : s.ctx.set c (s.getCtx c) = s.ctx := by
    by_cases hc : c < s.ctx.length
    · simp [State.getCtx, hc]
    · exact List.set_eq_of_length_le (not_lt.1 hc)
  simp only [State.modCtx, ← h, hset]

/-- What is left of the moves while a fault is recorded: at most a new value on the lines of a host read, the SPI
master's move, and a write to `CMD` that the interface holds. -/
theorem Move.cases_of_fault {s t : State} (h : Move s t) (hf : s.fault ≠ none) (hr : s.inp.turn ≠ .reset) :
    (∃ v, t = { s with readData := v }) ∨ (s.inp.turn = .spiMaster ∧ t = { s with spiBusy := s.inp.busy }) ∨
    (s.inp.turn = .hostWrite .cmd ∧ ∃ w, t = s.modCtx s.inp.sel fun C => { C with held := some w }) := by
  cases h with
  | stay ht => exact .inl ⟨s.readData, rfl⟩
  | reset ht => exact absurd ht hr
  | read r ht => exact .inl ⟨_, rfl⟩
  | master ht => exact .inr (.inl ⟨ht, rfl⟩)
  | hold w hw hl hn =>
    obtain ⟨ht, -, -⟩ | ⟨-, hh⟩ := fetch_eq_word_iff.1 hw
    · exact .inr (.inr ⟨ht, w, rfl⟩)
    · exact .inl ⟨s.readData, State.modCtx_held_same hh⟩
  | accept w i k e hw hl hn hm hd he => exact absurd hn.2 hf
  | refuse w k hw hl hn hk => exact absurd hn.2 hf
  | context _ ht hl hn hm => exact absurd hn hf

/-- Settles O45, by the moves that are left while a fault is recorded. -/
theorem faultHaltsTheBlock : Obligations.FaultHaltsTheBlock := by
  intro s s' hf hr h
  obtain ⟨t, hm, rfl⟩ := move_of_step h
  obtain ⟨v, rfl⟩ | ⟨ht, rfl⟩ | ⟨ht, w, rfl⟩ := hm.cases_of_fault hf hr
  · exact ⟨rfl, rfl, rfl, rfl, rfl, fun hne => absurd rfl hne, fun _ => rfl, fun _ => .inl rfl⟩
  · exact ⟨rfl, rfl, rfl, rfl, rfl, fun _ => ht, fun _ => rfl, fun _ => .inl rfl⟩
  · refine ⟨rfl, rfl, rfl, rfl, rfl, fun hne => absurd rfl hne, fun c => ?_, fun _ => .inr ht⟩
    exact State.modCtx_getCtx_field s s.inp.sel c (fun C => { C with held := some w })
      (fun C => { C with held := (s.getCtx c).held }) fun _ => rfl

end Sys2Proof.Machine

/-! Reset: its step, and the block it leaves (R234, R260). -/

namespace Sys2Proof.Machine

/-- The reset turn fetches no word and no frame, whatever the phase of the context and the fault record. -/
theorem fetch_reset {s : State} (ht : s.inp.turn = .reset) : fetch s = none :=
  fetch_other (by simp [ht]) (by simp [ht]) (by simp [ht])

/-- The step of the reset turn (R260): it is enabled in every state. -/
theorem step_reset {s : State} (ht : s.inp.turn = .reset) : step s = .next (finish (applyReset s)) :=
  step_eq_next_iff.2 ⟨applyReset s, by simp only [takeTurn, fetch_reset ht, otherMove, ht], rfl⟩

/-- Reset leaves one context for each handle assigned to one (R6, R32). -/
theorem applyReset_ctx_length (s : State) : (applyReset s).ctx.length = s.par.nCtx := by
  rw [applyReset_ctx]
  exact List.length_replicate

/-- Settles O46: the reset turn fetches nothing, so its step is `applyReset` in any phase and beside any fault, and the
next inputs touch no field of the block. -/
theorem resetStep : Obligations.ResetStep := by
  intro s ht
  refine ⟨finish (applyReset s), step_reset ht, rfl, rfl, applyReset_ctx_length s, fun c => ?_, rfl, rfl, rfl, rfl, rfl⟩
  rw [finish_getCtx, applyReset_getCtx]
  exact ⟨rfl, rfl, rfl, rfl, rfl, rfl, rfl, rfl⟩

/-- Settles O48: after reset the lock is free, every line is low and every context is idle. -/
theorem invariantAtReset : Obligations.InvariantAtReset := fun _ busy hp => inv_resetOf hp busy

end Sys2Proof.Machine
